-- ==== Sys2Proof/Word.lean ====
section
/-! DEFINITION. The machine's fixed-width values and the two things that cross the command port:
the command triple (spec/30_encoding.md R80) and the events a host can send. -/

namespace Sys2Proof

/-- A 32-bit register word or sparse entry (spec/00_scope.md R6, `WORD`). -/
abbrev Word := BitVec 32

/-- A 64-bit value: a hash, a counter index or a result (spec/00_scope.md R6, `HASHW`). -/
abbrev DWord := BitVec 64

/-- A byte of an image (spec/20_memory.md R50). -/
abbrev Byte := BitVec 8

/-- A context operand: a 4-bit number (spec/30_encoding.md R93). -/
abbrev ContextId := BitVec 4

/-- One command as the host presents it: the triple `(CMD, ARG, IN)` (spec/30_encoding.md R80). -/
structure Command where
  cmd   : Word
  arg   : DWord
  input : List Byte
  deriving DecidableEq, Repr

/-- What the host can do to the block: present a command (spec/30_encoding.md R80) or reset it
(spec/70_reset_and_hazards.md R280). -/
inductive HostEvent where
  | command (c : Command)
  | reset
  deriving DecidableEq, Repr

end Sys2Proof
end

