-- ==== Sys2Proof/Syntax.lean ====
section
/-! DEFINITION. The twelve commands with their operands (spec/30_encoding.md R86), one constructor
for each row of spec/opcode_table.json. -/

namespace Sys2Proof

/-- The twelve commands. `dst` and `src` are context operands (R93), `pb` and `rb` the unclamped
parameter bytes (R81), `hash` and `index` the content of `ARG` (R82), `image` the content of `IN`
(R83). -/
inductive Instr where
  /-- `NEW.S cD, p, r` (spec/45_lifecycle.md R230). -/
  | newS (dst : ContextId) (pb rb : Byte)
  /-- `NEW.D cD, p, r` (R231). -/
  | newD (dst : ContextId) (pb rb : Byte)
  /-- `FREE cD` (R232). -/
  | free (dst : ContextId)
  /-- `ADD cD, h` (spec/40_register_store.md R114). -/
  | add (dst : ContextId) (hash : DWord)
  /-- `MERGE cD, cS` (spec/42_merge.md R160). -/
  | merge (dst src : ContextId)
  /-- `EST cD` (spec/43_estimator.md R180). -/
  | est (dst : ContextId)
  /-- `SER cD` (spec/44_codec.md R200). -/
  | ser (dst : ContextId)
  /-- `DES cD, [bytes]` (R205). -/
  | des (dst : ContextId) (image : List Byte)
  /-- `SER.L cD` (R212). -/
  | serL (dst : ContextId)
  /-- `DES.L cD, [bytes]` (R213). -/
  | desL (dst : ContextId) (image : List Byte)
  /-- `RDREG cD, i` (spec/40_register_store.md R118). -/
  | rdreg (dst : ContextId) (index : DWord)
  /-- `STAT cD` (spec/45_lifecycle.md R234). -/
  | stat (dst : ContextId)
  deriving DecidableEq, Repr

end Sys2Proof
end

