-- ==== Sys2Proof/WellFormed.lean ====
section
/-! DEFINITION. Which terms of `Instr` are commands a host can present. The operand types carry
every range but one: `ARG` must equal the number of bytes of `IN` (spec/30_encoding.md R83), and
`ARG` is 64 bits wide (R80), so an image has fewer than `2^64` bytes. -/

namespace Sys2Proof

/-- An image whose length `ARG` can state (R80, R83). -/
def imageFits (image : List Byte) : Bool :=
  decide (image.length < 2 ^ 64)

/-- The term is a command that some triple `(CMD, ARG, IN)` encodes. -/
def Instr.wf : Instr → Bool
  | .newS _ _ _ => true
  | .newD _ _ _ => true
  | .free _ => true
  | .add _ _ => true
  | .merge _ _ => true
  | .est _ => true
  | .ser _ => true
  | .des _ image => imageFits image
  | .serL _ => true
  | .desL _ image => imageFits image
  | .rdreg _ _ => true
  | .stat _ => true

end Sys2Proof
end

