-- ==== Sys2Proof/Decode.lean ====
section
/-! DEFINITION. The decoder of command triples, total, which names what it rejects, and after it
the encoder, both from the field table, the format table and the opcode map of
spec/30_encoding.md (R81 to R88, R95). -/

namespace Sys2Proof

/-- Why a triple is none of the twelve commands: the cases of spec/30_encoding.md R88. All of them
are answered with the one status `IllegalCommand`. -/
inductive Rejection where
  /-- `op` is 0x00 or from 0x0D to 0xFF. -/
  | unknownOpcode
  /-- A non-zero bit in a field of `CMD` that the format does not use. -/
  | reservedField
  /-- `ARG ≠ 0` in formats N, C, M. -/
  | argNotZero
  /-- `IN` not empty in formats N, C, A, M. -/
  | inputNotEmpty
  /-- `ARG` is not the number of bytes of `IN` in format L. -/
  | lengthMismatch
  deriving DecidableEq, Repr

/-- The five formats (the table under R83). -/
inductive Format where
  | n | c | a | m | l
  deriving DecidableEq, Repr

/-- The twelve rows of the opcode map (R86). -/
inductive Opcode where
  | newS | newD | free | add | merge | est | ser | des | serL | desL | rdreg | stat
  deriving DecidableEq, Repr

/-! ## Fields of `CMD` (R81) -/

/-- `CMD[31:24]`. -/
def Command.op (c : Command) : Byte := c.cmd.extractLsb' 24 8

/-- `CMD[23:20]`. -/
def Command.dst (c : Command) : ContextId := c.cmd.extractLsb' 20 4

/-- `CMD[19:16]`. -/
def Command.src (c : Command) : ContextId := c.cmd.extractLsb' 16 4

/-- `CMD[15:8]`. -/
def Command.pb (c : Command) : Byte := c.cmd.extractLsb' 8 8

/-- `CMD[7:0]`. -/
def Command.rb (c : Command) : Byte := c.cmd.extractLsb' 0 8

/-! ## The opcode map (R86) -/

/-- The opcode of a row. -/
def Opcode.byte : Opcode → Byte
  | .newS => 0x01
  | .newD => 0x02
  | .free => 0x03
  | .add => 0x04
  | .merge => 0x05
  | .est => 0x06
  | .ser => 0x07
  | .des => 0x08
  | .serL => 0x09
  | .desL => 0x0A
  | .rdreg => 0x0B
  | .stat => 0x0C

/-- The row of an opcode, none when it is not one of 0x01 to 0x0C (R87). -/
def opcodeOf (op : Byte) : Option Opcode :=
  match op.toNat with
  | 0x01 => some .newS
  | 0x02 => some .newD
  | 0x03 => some .free
  | 0x04 => some .add
  | 0x05 => some .merge
  | 0x06 => some .est
  | 0x07 => some .ser
  | 0x08 => some .des
  | 0x09 => some .serL
  | 0x0A => some .desL
  | 0x0B => some .rdreg
  | 0x0C => some .stat
  | _ => none

/-- The format of a row (R86). -/
def Opcode.format : Opcode → Format
  | .newS => .n
  | .newD => .n
  | .free => .c
  | .add => .a
  | .merge => .m
  | .est => .c
  | .ser => .c
  | .des => .l
  | .serL => .c
  | .desL => .l
  | .rdreg => .a
  | .stat => .c

/-! ## What each format leaves unused (R82, R83 and the format table) -/

/-- The `src` field is used. -/
def Format.usesSrc : Format → Bool
  | .m => true
  | .n | .c | .a | .l => false

/-- The `pb` and `rb` fields are used. -/
def Format.usesParams : Format → Bool
  | .n => true
  | .c | .a | .m | .l => false

/-- `ARG` is an operand or a length. -/
def Format.usesArg : Format → Bool
  | .a | .l => true
  | .n | .c | .m => false

/-- `IN` holds an image. -/
def Format.usesInput : Format → Bool
  | .l => true
  | .n | .c | .a | .m => false

/-- The first field of the triple that the format forbids (R87, R88), none when there is none. The
order cannot be observed: every rejection gives one status (log entry 10). -/
def fieldViolation (f : Format) (c : Command) : Option Rejection :=
  if !f.usesSrc && c.src != 0 then some .reservedField
  else if !f.usesParams && (c.pb != 0 || c.rb != 0) then some .reservedField
  else if !f.usesArg && c.arg != 0 then some .argNotZero
  else if !f.usesInput && !c.input.isEmpty then some .inputNotEmpty
  else if f.usesInput && c.arg.toNat != c.input.length then some .lengthMismatch
  else none

/-- The command of a row with the triple's operands. -/
def Opcode.build (o : Opcode) (c : Command) : Instr :=
  match o with
  | .newS => .newS c.dst c.pb c.rb
  | .newD => .newD c.dst c.pb c.rb
  | .free => .free c.dst
  | .add => .add c.dst c.arg
  | .merge => .merge c.dst c.src
  | .est => .est c.dst
  | .ser => .ser c.dst
  | .des => .des c.dst c.input
  | .serL => .serL c.dst
  | .desL => .desL c.dst c.input
  | .rdreg => .rdreg c.dst c.arg
  | .stat => .stat c.dst

/-- Decoding (R87): the opcode gives the row and its format, the format's fields are checked, and
then the operands are taken. Total: every triple is a command or is rejected by name. -/
def decode (c : Command) : Except Rejection Instr :=
  match opcodeOf c.op with
  | none => .error .unknownOpcode
  | some o =>
    match fieldViolation o.format c with
    | some why => .error why
    | none => .ok (o.build c)

/-! ## The encoder (R81, R95) -/

/-- The triple with these fields; the fields stand in `CMD` as R81 lays them out. -/
def assemble (o : Opcode) (dst src : ContextId) (pb rb : Byte) (arg : DWord)
    (input : List Byte) : Command :=
  { cmd := o.byte ++ dst ++ src ++ pb ++ rb, arg := arg, input := input }

/-- The triple of a command (R95). -/
def encode : Instr → Command
  | .newS dst pb rb => assemble .newS dst 0 pb rb 0 []
  | .newD dst pb rb => assemble .newD dst 0 pb rb 0 []
  | .free dst => assemble .free dst 0 0 0 0 []
  | .add dst hash => assemble .add dst 0 0 0 hash []
  | .merge dst src => assemble .merge dst src 0 0 0 []
  | .est dst => assemble .est dst 0 0 0 0 []
  | .ser dst => assemble .ser dst 0 0 0 0 []
  | .des dst image => assemble .des dst 0 0 0 (BitVec.ofNat 64 image.length) image
  | .serL dst => assemble .serL dst 0 0 0 0 []
  | .desL dst image => assemble .desL dst 0 0 0 (BitVec.ofNat 64 image.length) image
  | .rdreg dst index => assemble .rdreg dst 0 0 0 index []
  | .stat dst => assemble .stat dst 0 0 0 0 []

/-! ## Words of the opcode table -/

/-- The triple whose bits are `w`, numbered as spec/opcode_table.json numbers them: bits 31 to 0 are
`CMD`, bits 95 to 32 are `ARG`, the bytes of `IN` follow (log entry 9, DESIGN CHOICE). Bits at and above `nbits` are 0, and the
table's rows give `CMD` alone, so `ARG` is 0 and `IN` empty for them. -/
def tableCommand (nbits w : Nat) : Command :=
  let v := w % 2 ^ nbits
  { cmd := BitVec.ofNat 32 v
    arg := BitVec.ofNat 64 (v >>> 32)
    input := (List.range ((nbits - 96) / 8)).map fun k => BitVec.ofNat 8 (v >>> (96 + 8 * k)) }

/-- The instruction the decoder reads from a table word. -/
def decodeTableWord (nbits w : Nat) : Option Instr :=
  (decode (tableCommand nbits w)).toOption

end Sys2Proof
end

