-- ==== Sys2Proof/Config.lean ====
section
/-! DEFINITION. What the spec leaves to the implementation: the number of contexts (R9), the
estimator's arithmetic `EstNum` (R11, R190) and the estimate that no rule gives (R189). Every one is
a constant without a body, so a claim holds whatever it is. -/

namespace Sys2Proof

/-- How many contexts the block has beyond the two that `MERGE` needs: 0 to 14. -/
opaque Config.extraContexts : Fin 15

/-- `NCTX`, from 2 to 16 (spec/00_scope.md R9, spec/92_eei_decisions.md D31). Log entry 1,
DESIGN CHOICE. -/
def Config.nctx : Nat := Config.extraContexts.val + 2

/-- How far a computed `raw` and its comparison with a limit may be off, as a part of `raw` and in units
of `2^-128`, for a sketch of precision `p` (R190 item 3). Any number, for the spec gives none. Log
entry 3. -/
opaque Config.rawError : Nat → Nat

/-- How far a computed `M · ln(…)` may be off, as a part of `M + M · ln(…)` and in units of `2^-128`
(R190 item 3). Any number, for the spec gives none. Log entry 3. -/
opaque Config.lnError : Nat

/-- `EstNum` in Sparse mode, as a function of `p` and `alen` (spec/43_estimator.md R190 item 1). The
estimator takes it where it lies within the rounding error. Log entry 3. -/
opaque Config.sparseEstimate : Nat → Nat → DWord

/-- `EstNum` in Dense mode, as a function of `p` and the histogram of the counter values (R190 item 1).
The estimator takes it where it lies within the rounding error. Log entry 3. -/
opaque Config.denseEstimate : Nat → List Nat → DWord

/-- The results of `EST` where `raw ≥ 2^32` (R189, spec/93_implementation_defined.md U3): any 64-bit
value, a fresh one for each draw. Log entry 4. -/
opaque Config.freeEstimate : Nat → DWord

end Sys2Proof
end

