-- ==== Sys2Proof/Machine/State.lean ====
section
/-! DEFINITION. The state of the block (spec/10_state.md), the two things at its command port, the
ways a step can stop, and the state after reset (spec/70_reset_and_hazards.md R280, R281). -/

namespace Sys2Proof.Machine

/-- The payload of a sketch, one of two variants (spec/10_state.md R29). -/
inductive Payload where
  /-- Sparse mode (`mode = 0`): the entries in use of the temporary buffer `TB`, in the order they
  were appended (R27), and of the sorted array `SA` (R28). `tcnt` and `alen` are the two lengths. -/
  | sparse (buffer array : List Word)
  /-- Dense mode (`mode = 1`): the register words `W[0 .. wordCount-1]` (R25). -/
  | dense (words : List Word)
  deriving DecidableEq, Repr

/-- One sketch: precision `p` (R22), register width `r` (R23) and the payload of its mode (R24). -/
structure Sketch where
  p       : Nat
  r       : Nat
  payload : Payload
  deriving DecidableEq, Repr

/-- A context holds no sketch (`valid = 0`) or exactly one (`valid = 1`) (R20, R21). An empty context
has no fields at all (spec/70_reset_and_hazards.md R281; log entry 2, DEDUCED). -/
abbrev Context := Option Sketch

/-- The two modes of a sketch (R24). -/
inductive Mode where
  | sparse
  | dense
  deriving DecidableEq, Repr

/-- The status codes of a response (spec/60_exceptions.md R250). -/
inductive Status where
  | ok
  | invalidParameter
  | incompatibleShape
  | formatError
  | illegalCommand
  | badOperand
  deriving DecidableEq, Repr

/-- The response to a command: `(STATUS, RES, OUT)` (spec/30_encoding.md R84). -/
structure Response where
  status : Status
  res    : DWord
  out    : List Byte
  deriving DecidableEq, Repr

/-- The whole state. `contexts` is the block's state (R20); its length is `NCTX`. `inputs` and
`response` are the block's command port: what the host has issued and the block has not yet taken,
in issue order (spec/20_memory.md R70; log entry 5), and the answer to the latest command, which
nothing reads (log entry 6, DESIGN CHOICE). `draws` counts the free values taken so far and is the
model's own (log entry 4, DESIGN CHOICE). -/
structure State where
  contexts : List Context
  inputs   : List HostEvent
  response : Option Response
  draws    : Nat
  deriving DecidableEq, Repr

/-- The ways a step can stop with a fault: none. Every error the spec describes is a status in the
response, after which the block takes the next command (spec/60_exceptions.md R257, R258), so the
type has no constructor: nothing raises a fault, and that is safe (log entry 12). -/
inductive Fault where
  deriving DecidableEq, Repr

/-- The ways a step can be refused. -/
inductive Refusal where
  /-- Raised by an arm of `exec` whose command has no meaning yet. Safe: no behaviour is claimed. -/
  | notModelled (mnemonic : String)
  /-- Raised by `DES` and `DES.L` for an image that passes every check of R206 or R213 and is not
  content-valid: the spec defines no behaviour and a model refuses the command
  (spec/44_codec.md R207, spec/93_implementation_defined.md U2). Safe: neither of the two things an
  implementation may do is claimed (log entry 8). -/
  | undefinedImage
  deriving DecidableEq, Repr

/-- The outcomes of a step of this machine. -/
abbrev Result := Host.Outcome State Fault Refusal

/-- A block with `n` contexts right after reset: every context is empty (R280). -/
def State.powerOn (n : Nat) : State :=
  { contexts := List.replicate n none, inputs := [], response := none, draws := 0 }

/-- The block right after reset: `NCTX` empty contexts (R280). No command has been issued and
none has been answered (log entries 5 and 6), and no free value has been taken (log entry 4). -/
def State.reset : State := State.powerOn Config.nctx

end Sys2Proof.Machine
end

