-- ==== Sys2Proof/Machine/Ops.lean ====
section
/-! DEFINITION. The shared operations: the sizes of a shape, reading and writing counters
(spec/40_register_store.md R111 to R113), bytes of words (spec/20_memory.md R60), access to a
context, ending a command with a result, and ending it with an error. -/

namespace Sys2Proof.Machine

/-! ## Sizes of a shape (spec/00_scope.md R5, R6) -/

/-- `m = 2^p`, the number of counters. -/
def regCount (p : Nat) : Nat := 2 ^ p

/-- `sp = p + 4`, the width of a fine index. -/
def fineWidth (p : Nat) : Nat := p + 4

/-- `regPerWord = floor(32 / r)`. -/
def regPerWord (r : Nat) : Nat := 32 / r

/-- `wordCount = ceil(m / regPerWord)`. -/
def wordCount (p r : Nat) : Nat := (regCount p + (regPerWord r - 1)) / regPerWord r

/-- `RMAX = 2^r - 1`. -/
def rankMax (r : Nat) : Nat := 2 ^ r - 1

/-- `TMP_CAP`, the capacity of the temporary buffer. -/
def bufferCapacity : Nat := 5

/-! ## Counters in register words -/

/-- `sh = 32 - r·(j + 1)`, the place of lane `j` (spec/20_memory.md R51). -/
def laneShift (r j : Nat) : Nat := 32 - r * (j + 1)

/-- `RegRead` (spec/40_register_store.md R111). -/
def regRead (r : Nat) (words : List Word) (i : Nat) : Nat :=
  (words.getD (i / regPerWord r) 0 >>> laneShift r (i % regPerWord r)).toNat % 2 ^ r

/-- The word with lane `j` replaced by `v` and every other bit kept (R112). -/
def laneWrite (r : Nat) (word : Word) (j v : Nat) : Word :=
  let mask := BitVec.ofNat 32 (2 ^ r - 1) <<< laneShift r j
  (word &&& ~~~mask) ||| (BitVec.ofNat 32 v <<< laneShift r j)

/-- `RegWrite` (R112). -/
def regWrite (r : Nat) (words : List Word) (i v : Nat) : List Word :=
  words.set (i / regPerWord r)
    (laneWrite r (words.getD (i / regPerWord r) 0) (i % regPerWord r) v)

/-- `UpdateMax`, the never-decrease update (R113). -/
def updateMax (r : Nat) (words : List Word) (i k : Nat) : List Word :=
  if k > regRead r words i then regWrite r words i k else words

/-- The register words of a fresh Register Store: all zero (spec/45_lifecycle.md R231,
spec/41_sparse_set.md R139). -/
def zeroWords (p r : Nat) : List Word := List.replicate (wordCount p r) 0

/-! ## Bytes of words, most significant byte first (spec/20_memory.md R60) -/

/-- `BE32` (spec/00_scope.md R13). -/
def be32 (b0 b1 b2 b3 : Byte) : Word := b0 ++ b1 ++ b2 ++ b3

/-- The four image bytes of a word. -/
def wordBytes (w : Word) : List Byte :=
  [w.extractLsb' 24 8, w.extractLsb' 16 8, w.extractLsb' 8 8, w.extractLsb' 0 8]

/-- The image bytes of a sequence of words. -/
def wordsToBytes (words : List Word) : List Byte := words.flatMap wordBytes

/-- The words of a sequence of bytes, four bytes each; an incomplete last word is dropped (no caller
passes one). -/
def bytesToWords : List Byte → List Word
  | b0 :: b1 :: b2 :: b3 :: rest => be32 b0 b1 b2 b3 :: bytesToWords rest
  | _ => []

/-! ## A sketch's attributes -/

/-- `mode` (spec/10_state.md R24). -/
def Sketch.mode (sk : Sketch) : Mode :=
  match sk.payload with
  | .sparse _ _ => .sparse
  | .dense _ => .dense

/-- `tcnt`, 0 in Dense mode (R27, R29). -/
def Sketch.tcnt (sk : Sketch) : Nat :=
  match sk.payload with
  | .sparse buffer _ => buffer.length
  | .dense _ => 0

/-- `alen`, 0 in Dense mode (R28, R29). -/
def Sketch.alen (sk : Sketch) : Nat :=
  match sk.payload with
  | .sparse _ array => array.length
  | .dense _ => 0

/-! ## Access to a context (spec/30_encoding.md R93) -/

/-- The context a 4-bit number names, none when the number is `NCTX` or more. -/
def State.context? (s : State) (c : ContextId) : Option Context := s.contexts[c.toNat]?

/-- The sketch a 4-bit number names, none when there is no such context or it is empty. -/
def State.sketch? (s : State) (c : ContextId) : Option Sketch := (s.context? c).join

/-- Gives context `c` a new content. -/
def State.setContext (s : State) (c : ContextId) (x : Context) : State :=
  { s with contexts := s.contexts.set c.toNat x }

/-- Changes the sketch of context `c`, if it holds one. -/
def State.updateSketch (s : State) (c : ContextId) (f : Sketch → Sketch) : State :=
  { s with contexts := s.contexts.modify c.toNat (Option.map f) }

/-! ## How a command ends -/

/-- `return v` (spec/00_scope.md R13): the command ends with `STATUS = OK`. -/
def State.complete (s : State) (res : DWord) (out : List Byte) : State :=
  { s with response := some { status := .ok, res := res, out := out } }

/-- `raise E` (R13, spec/60_exceptions.md R257, R258): the command ends with status `E`, `RES = 0`
and `OUT` empty, and nothing else changes. This is all this hardware has in place of taking an
exception: there is no saved state, no handler and no return (R258). -/
def State.raise (s : State) (e : Status) : State :=
  { s with response := some { status := e, res := 0, out := [] } }

/-- The checks of a command that needs its context to exist (R255, R256 step 2). -/
def State.withContext (s : State) (c : ContextId) (k : State) : State :=
  match s.context? c with
  | none => s.raise .badOperand
  | some _ => k

/-- The checks of a command that needs its context to hold a sketch (R255, R256 steps 2 and 3). -/
def State.withSketch (s : State) (c : ContextId) (k : Sketch → State) : State :=
  match s.sketch? c with
  | none => s.raise .badOperand
  | some sk => k sk

end Sys2Proof.Machine
end

