-- ==== Sys2Proof/Machine/Operands.lean ====
section
/-! DEFINITION. Operand assembly: cutting an index and a rank out of a hash (spec/30_encoding.md R90
to R92), packing and unpacking a sparse entry (spec/41_sparse_set.md R130, R131), the parameter
check (spec/45_lifecycle.md R233), and when a payload is well formed (spec/10_state.md R34, R44). -/

namespace Sys2Proof.Machine

/-! ## Parameters -/

/-- `4 ≤ p ≤ 18` and `r ∈ {4, 5, 6}` (spec/00_scope.md R5, spec/45_lifecycle.md R233). -/
def paramsOk (p r : Nat) : Bool :=
  decide (4 ≤ p) && decide (p ≤ 18) && (r == 4 || r == 5 || r == 6)

/-! ## Index and rank of a hash -/

/-- The number of zero bits below the lowest set bit among the low `fuel` bits, `fuel` when there is
none. -/
def trailingZeros : Nat → Nat → Nat
  | 0, _ => 0
  | fuel + 1, x => if x % 2 = 1 then 0 else trailingZeros fuel (x / 2) + 1

/-- `ctz64` (spec/00_scope.md R14); 64 for 0, as spec/41_sparse_set.md R143 writes it. -/
def ctz64 (x : DWord) : Nat := trailingZeros 64 x.toNat

/-- The top `k` bits of a hash: the coarse index for `k = p` (spec/30_encoding.md R90), the fine
index for `k = sp` (R92). -/
def topBits (h : DWord) (k : Nat) : Nat := (h >>> (64 - k)).toNat

/-- `Rank(h, k, r)` (R91): one plus the trailing zeros of the hash with the sentinel bit `64 - k`
set, clamped to `RMAX`. -/
def rank (h : DWord) (k r : Nat) : Nat :=
  min (1 + ctz64 (h ||| (1#64 <<< (64 - k)))) (rankMax r)

/-! ## Sparse entries (spec/20_memory.md R57, R58) -/

/-- `Pack(fidx, rank)` (spec/41_sparse_set.md R130). -/
def packEntry (p fidx rank : Nat) : Word :=
  (BitVec.ofNat 32 fidx <<< (32 - fineWidth p)) ||| BitVec.ofNat 32 rank

/-- The fine index of an entry: the first part of `Unpack(e)` (R131). -/
def entryIndex (p : Nat) (e : Word) : Nat := (e >>> (32 - fineWidth p)).toNat

/-- The rank of an entry: the second part of `Unpack(e)` (R131). -/
def entryRank (r : Nat) (e : Word) : Nat := e.toNat % 2 ^ r

/-- `CoarseOf(e)` (R131). -/
def entryCoarse (p : Nat) (e : Word) : Nat := (e >>> (32 - p)).toNat

/-! ## Well-formed payloads -/

/-- The bits `[31-sp : r]` of an entry are zero (spec/10_state.md R44). -/
def entryWf (p r : Nat) (e : Word) : Bool :=
  e.toNat / 2 ^ r % 2 ^ (32 - fineWidth p - r) == 0

/-- The array is in strictly ascending order of fine index (R31). -/
def strictlySorted (p : Nat) (array : List Word) : Bool :=
  decide (array.Pairwise fun e f => entryIndex p e < entryIndex p f)

/-- How many lanes of word `k` hold a counter (spec/20_memory.md R55). -/
def usedLanes (p r k : Nat) : Nat := min (regPerWord r) (regCount p - k * regPerWord r)

/-- The bits of word `k` below its used lanes, which are its unused lanes and its padding, are zero
(spec/10_state.md R34, spec/20_memory.md R54, R55). -/
def wordWf (p r k : Nat) (w : Word) : Bool :=
  w.toNat % 2 ^ (32 - r * usedLanes p r k) == 0

/-- A Dense payload has `wordCount` words, with zero padding and zero unused lanes (R25, R34). -/
def denseWf (p r : Nat) (words : List Word) : Bool :=
  words.length == wordCount p r &&
    (List.range (wordCount p r)).all fun k => wordWf p r k (words.getD k 0)

/-- A Sparse payload has at most 4 buffered entries and fewer than `m` array entries, all of them
well-formed entries and the array strictly sorted (R30, R31, R32, R44). -/
def sparseWf (p r : Nat) (buffer array : List Word) : Bool :=
  decide (buffer.length < bufferCapacity) && decide (array.length < regCount p) &&
    buffer.all (entryWf p r) && array.all (entryWf p r) && strictlySorted p array

/-- A well-formed sketch (R44). -/
def Sketch.wf (sk : Sketch) : Bool :=
  paramsOk sk.p sk.r &&
    match sk.payload with
    | .sparse buffer array => sparseWf sk.p sk.r buffer array
    | .dense words => denseWf sk.p sk.r words

end Sys2Proof.Machine
end

