-- ==== Sys2Proof/Machine/SparseSet.lean ====
section
/-! DEFINITION. The Sparse Set (spec/41_sparse_set.md): the ordered union, the fold of the temporary
buffer, promotion, and the Sparse-mode half of `ADD`. -/

namespace Sys2Proof.Machine

/-! ## Union (R133, R134) -/

/-- The entry that stands for two entries of equal fine index: the one with the larger rank
(`Pack(fx, max(kx, ky))` of R134). -/
def mergeEntries (p r : Nat) (e f : Word) : Word :=
  packEntry p (entryIndex p e) (max (entryRank r e) (entryRank r f))

/-- The loop of `Merge2` while `x` heads the first sequence: `xs` is the rest of it and `rest` is
`Merge2 xs`. -/
def merge2Head (p r : Nat) (x : Word) (xs : List Word) (rest : List Word → List Word) :
    List Word → List Word
  | [] => x :: xs
  | y :: ys =>
    if entryIndex p x < entryIndex p y then x :: rest (y :: ys)
    else if entryIndex p y < entryIndex p x then y :: merge2Head p r x xs rest ys
    else mergeEntries p r x y :: rest ys

/-- `Merge2(X, Y)` (R134). -/
def merge2 (p r : Nat) : List Word → List Word → List Word
  | [] => fun ys => ys
  | x :: xs => merge2Head p r x xs (merge2 p r xs)

/-- `SortDedup` (R134): sorted by fine index, one entry for each index, with the largest rank. -/
def sortDedup (p r : Nat) (entries : List Word) : List Word :=
  entries.foldr (fun e sorted => merge2 p r [e] sorted) []

/-- `Union(A, B)` (R133, R134). -/
def union (p r : Nat) (a b : List Word) : List Word :=
  merge2 p r (sortDedup p r a) (sortDedup p r b)

/-! ## Promotion (R139) -/

/-- Folds every entry's rank into the register words: `UpdateMax(c, fidx >> 4, rank)` for each entry
(R139; spec/42_merge.md R164). -/
def foldEntries (p r : Nat) (words entries : List Word) : List Word :=
  entries.foldl (fun w e => updateMax r w (entryIndex p e >>> 4) (entryRank r e)) words

/-- `Promote` (R139): a zeroed Register Store takes every array entry, and the sparse payload is
gone. A Dense sketch stays as it is. -/
def Sketch.promote (sk : Sketch) : Sketch :=
  match sk.payload with
  | .sparse _ array =>
    { sk with payload := .dense (foldEntries sk.p sk.r (zeroWords sk.p sk.r) array) }
  | .dense _ => sk

/-- The promotion test (R138): a Sparse sketch whose array has `m` or more entries is promoted. -/
def Sketch.promoteIfFull (sk : Sketch) : Sketch :=
  if regCount sk.p ≤ sk.alen then sk.promote else sk

/-! ## Fold (R137) -/

/-- `Fold` (R137): the buffer moves into the array, and then comes the promotion test. -/
def Sketch.fold (sk : Sketch) : Sketch :=
  match sk.payload with
  | .sparse buffer array =>
    Sketch.promoteIfFull { sk with payload := .sparse [] (union sk.p sk.r array buffer) }
  | .dense _ => sk

/-! ## `ADD` in Sparse mode -/

/-- The entry that a hash makes (R135; spec/30_encoding.md R92). -/
def hashEntry (p r : Nat) (h : DWord) : Word :=
  packEntry p (topBits h (fineWidth p)) (rank h (fineWidth p) r)

/-- `AddSparse` (R135): the entry goes to the buffer, and a full buffer is folded in the same
command. -/
def addSparse (p r : Nat) (buffer array : List Word) (h : DWord) : Sketch :=
  let sk : Sketch :=
    { p := p, r := r, payload := .sparse (buffer ++ [hashEntry p r h]) array }
  if sk.tcnt = bufferCapacity then sk.fold else sk

end Sys2Proof.Machine
end

