-- ==== Sys2Proof/Machine/Codec.lean ====
section
/-! DEFINITION. The Serialization Codec (spec/44_codec.md): `SER`, `DES`, `SER.L`, `DES.L`. -/

namespace Sys2Proof.Machine

/-! ## Images -/

/-- The `p` and `r` bytes of an image (R202, R203, R211). -/
def shapeBytes (sk : Sketch) : List Byte := [BitVec.ofNat 8 sk.p, BitVec.ofNat 8 sk.r]

/-- The tagged image of a sketch whose buffer is empty (R202, R203). -/
def taggedImage (sk : Sketch) : List Byte :=
  match sk.payload with
  | .sparse _ array => 0x00 :: shapeBytes sk ++ wordsToBytes array
  | .dense words => 0x01 :: shapeBytes sk ++ wordsToBytes words

/-- The legacy image of a Dense sketch with these words (R211). -/
def legacyImage (sk : Sketch) (words : List Word) : List Byte :=
  wordsToBytes words ++ shapeBytes sk

/-! ## Loading -/

/-- What the checks of a load find. -/
inductive LoadResult where
  /-- A content-valid image and the sketch it holds. -/
  | loaded (sk : Sketch)
  /-- A `FormatError` (R206, R213). -/
  | formatError
  /-- An image that passes the checks and is not content-valid (R207). -/
  | undefinedContent
  deriving DecidableEq, Repr

/-- A sketch whose image passed the checks: content-valid exactly when the sketch is well formed
(R207, spec/10_state.md R44). -/
def contentChecked (sk : Sketch) : LoadResult :=
  if sk.wf then .loaded sk else .undefinedContent

/-- `LoadDense` (R208), after the length check. -/
def loadDense (p r : Nat) (payload : List Byte) : LoadResult :=
  if payload.length ≠ 4 * wordCount p r then .formatError
  else contentChecked { p := p, r := r, payload := .dense (bytesToWords payload) }

/-- `LoadSparse` (R209), after the length check. -/
def loadSparse (p r : Nat) (payload : List Byte) : LoadResult :=
  if payload.length % 4 ≠ 0 then .formatError
  else contentChecked { p := p, r := r, payload := .sparse [] (bytesToWords payload) }

/-- The checks of `DES`, in their order (R205, R206). -/
def loadTagged (image : List Byte) : LoadResult :=
  match image with
  | mb :: pb :: rb :: payload =>
    if mb ≠ 0 ∧ mb ≠ 1 then .formatError
    else if !paramsOk pb.toNat rb.toNat then .formatError
    else if mb = 1 then loadDense pb.toNat rb.toNat payload
    else loadSparse pb.toNat rb.toNat payload
  | _ => .formatError

/-- The checks of `DES.L`, in their order (R213): the parameters are the last two bytes. -/
def loadLegacy (image : List Byte) : LoadResult :=
  if image.length < 2 then .formatError
  else
    let pb := (image.getD (image.length - 2) 0).toNat
    let rb := (image.getD (image.length - 1) 0).toNat
    if !paramsOk pb rb then .formatError
    else loadDense pb rb (image.take (image.length - 2))

/-- Ends a load command: the destination must exist (spec/60_exceptions.md R256 step 2), a checked
image replaces what it held, a bad one changes nothing (R216), and one that has no defined meaning is
refused (R207). -/
def State.load (s : State) (dst : ContextId) (result : LoadResult) : Result :=
  match result with
  | .loaded sk => .next <| s.withContext dst ((s.setContext dst (some sk)).complete 0 [])
  | .formatError => .next <| s.withContext dst (s.raise .formatError)
  | .undefinedContent =>
    match s.context? dst with
    | none => .next (s.raise .badOperand)
    | some _ => .refused .undefinedImage

/-! ## The commands -/

/-- Ends a store command: `RES` is the number of bytes of `OUT` (spec/30_encoding.md R85). -/
def State.completeImage (s : State) (image : List Byte) : State :=
  s.complete (BitVec.ofNat 64 image.length) image

/-- `SER cD` (R200): fold, then the image of the mode found after the fold (R201). -/
def execSer (dst : ContextId) (s : State) : Result :=
  .next <| s.withSketch dst fun sk =>
    (s.setContext dst (some sk.fold)).completeImage (taggedImage sk.fold)

/-- `DES cD, [bytes]` (R205). -/
def execDes (dst : ContextId) (image : List Byte) (s : State) : Result :=
  s.load dst (loadTagged image)

/-- `SER.L cD` (R212): `BadOperand` in Sparse mode, with no fold. -/
def execSerL (dst : ContextId) (s : State) : Result :=
  .next <| s.withSketch dst fun sk =>
    match sk.payload with
    | .sparse _ _ => s.raise .badOperand
    | .dense words => s.completeImage (legacyImage sk words)

/-- `DES.L cD, [bytes]` (R213). -/
def execDesL (dst : ContextId) (image : List Byte) (s : State) : Result :=
  s.load dst (loadLegacy image)

end Sys2Proof.Machine
end

