-- ==== Sys2Proof/Machine/Estimator.lean ====
section
/-! DEFINITION. The Cardinality Estimator (spec/43_estimator.md): `EST`.

The formulas of R182 to R186 are over real numbers, and `EST` answers their value in some real-number
approximation, `EstNum` (R190), of whose accuracy the spec says nothing. Its rounding errors are
`Config.rawError` and `Config.lnError`, constants without a body. Here every branch of the formulas is
enclosed between two integers: the reference value in exact reals lies between them, and so does its
value with rounding errors of that size. The result is a free value in one of the branches that the
tests of R186 leave open (log entry 3). -/

namespace Sys2Proof.Machine

/-- Quotient rounded up. -/
def ceilDiv (a b : Nat) : Nat := (a + (b - 1)) / b

/-! ## The natural logarithm of a ratio, enclosed

Values are scaled by `2^128`. `ln` is summed from the series `-ln(1 - t) = Σ t^k / k`. -/

/-- The number of fraction bits. -/
def lnFrac : Nat := 128

/-- The number of terms of the series. -/
def lnTerms : Nat := 128

/-- A lower bound of the terms `k, k + 1, …` of the series for `t = num / den`, `pow` being a lower
bound of `t^k`. -/
def lnSeriesLo (num den : Nat) : Nat → Nat → Nat → Nat
  | 0, _, _ => 0
  | n + 1, k, pow => pow / k + lnSeriesLo num den n (k + 1) (pow * num / den)

/-- An upper bound of the same sum, `pow` being an upper bound of `t^k`; the terms left out are below
`t^k / (1 - t)`. -/
def lnSeriesHi (num den : Nat) : Nat → Nat → Nat → Nat
  | 0, _, pow => ceilDiv (pow * den) (den - num)
  | n + 1, k, pow => ceilDiv pow k + lnSeriesHi num den n (k + 1) (ceilDiv (pow * num) den)

/-- A lower bound of `-ln(1 - num / den)`. -/
def negLogLo (num den : Nat) : Nat := lnSeriesLo num den lnTerms 1 (2 ^ lnFrac * num / den)

/-- An upper bound of `-ln(1 - num / den)`. -/
def negLogHi (num den : Nat) : Nat :=
  lnSeriesHi num den lnTerms 1 (ceilDiv (2 ^ lnFrac * num) den)

/-- The number of halvings that bring `a / b ≥ 1` below 2. -/
def lnExponent (a b : Nat) : Nat := Nat.log2 (a / b)

/-- A lower bound of `ln(a / b)` for `a ≥ b ≥ 1`: with `2^e ≤ a/b < 2^(e+1)`, it is `e·ln 2` plus
`-ln(1 - t)` for `t = (a - b·2^e) / a < 1/2`. -/
def lnLo (a b : Nat) : Nat :=
  lnExponent a b * negLogLo 1 2 + negLogLo (a - b * 2 ^ lnExponent a b) a

/-- An upper bound of `ln(a / b)` for `a ≥ b ≥ 1`. -/
def lnHi (a b : Nat) : Nat :=
  lnExponent a b * negLogHi 1 2 + negLogHi (a - b * 2 ^ lnExponent a b) a

/-! ## Enclosures of an estimate -/

/-- The integers from `lo` to `hi`. -/
structure EstRange where
  lo : Nat
  hi : Nat
  deriving DecidableEq, Repr

/-- `v` is one of the integers of the range. -/
def EstRange.contains (range : EstRange) (v : Nat) : Bool :=
  decide (range.lo ≤ v) && decide (v ≤ range.hi)

/-- The number of fraction bits of `Config.rawError` and `Config.lnError`. -/
def errorFrac : Nat := 128

/-- The rounding error allowed to a computed `scale · ln(…)`, `ln` being the logarithm: the part `ε`
of the scale and of the value. -/
def lnSlack (ε scale ln : Nat) : Nat := (scale * 2 ^ lnFrac + scale * ln) * ε / 2 ^ errorFrac + 1

/-- The least integer part of a computed `scale · ln(a / b) + offset`. -/
def lnFormLo (ε scale a b offset : Nat) : Nat :=
  (scale * lnLo a b + offset - lnSlack ε scale (lnLo a b)) / 2 ^ lnFrac

/-- The greatest integer part of a computed `scale · ln(a / b) + offset`. -/
def lnFormHi (ε scale a b offset : Nat) : Nat :=
  (scale * lnHi a b + offset + lnSlack ε scale (lnLo a b)) / 2 ^ lnFrac

/-- One half, the offset that turns `floor` into `round` (R183). -/
def oneHalf : Nat := 2 ^ (lnFrac - 1)

/-! ## Sparse estimate (R182, R183) -/

/-- Where `round(m' · ln(m' / (m' - n)))` lies, `m' = 2^sp` and `n = alen`. -/
def sparseRange (ε p n : Nat) : EstRange :=
  let m' := 2 ^ fineWidth p
  { lo := lnFormLo ε m' m' (m' - n) oneHalf, hi := lnFormHi ε m' m' (m' - n) oneHalf }

/-! ## Dense estimate (R184 to R186) -/

/-- The counter values of a Dense payload. -/
def counters (p r : Nat) (words : List Word) : List Nat :=
  (List.range (regCount p)).map fun i => regRead r words i

/-- How many counters hold each value 0 to 63 (R184). -/
def histogram (values : List Nat) : List Nat :=
  (List.range 64).map fun v => values.count v

/-- `2^63 · Σ 2^(-k)` over a histogram whose first entry counts the value `k` (R184: the sum is a
multiple of `2^-63`). -/
def scaledSum : Nat → List Nat → Nat
  | _, [] => 0
  | k, c :: cs => c * 2 ^ (63 - k) + scaledSum (k + 1) cs

/-- The numerator of `alpha(M)` (R185). -/
def alphaNum (p : Nat) : Nat :=
  if p = 4 then 673 else if p = 5 then 697 else if p = 6 then 709 else 7213 * regCount p

/-- The denominator of `alpha(M)` (R185): `0.7213 / (1 + 1.079/M) = 7213·M / (10·(1000·M + 1079))`. -/
def alphaDen (p : Nat) : Nat :=
  if p = 4 then 1000 else if p = 5 then 1000 else if p = 6 then 1000
  else 10 * (1000 * regCount p + 1079)

/-- The numerator of `raw = alpha(M) · M² / sum` (R186). -/
def rawNum (p : Nat) : Nat := alphaNum p * regCount p ^ 2 * 2 ^ 63

/-- The denominator of `raw` (R186). -/
def rawDen (p : Nat) (hist : List Nat) : Nat := alphaDen p * scaledSum 0 hist

/-- The small-range estimate `M · ln(M / zeros)` (R186). -/
def smallRange (ε p zeros : Nat) : EstRange :=
  { lo := lnFormLo ε (regCount p) (regCount p) zeros 0
    hi := lnFormHi ε (regCount p) (regCount p) zeros 0 }

/-- Every 64-bit value. -/
def anyEstimate : EstRange := { lo := 0, hi := 2 ^ 64 - 1 }

/-- The large-range estimate `-2^32 · ln(1 - raw / 2^32) = 2^32 · ln(2^32 / (2^32 - raw))` (R186) for a
computed `raw` between `lo / den` and `hi / den`. Where the computed `raw` may reach `2^32` the
computed logarithm need have no value, and nothing is said of the result. -/
def largeRange (ε lo hi den : Nat) : EstRange :=
  let top := 2 ^ 32 * den
  if hi < top then
    { lo := lnFormLo ε (2 ^ 32) top (top - lo) 0, hi := lnFormHi ε (2 ^ 32) top (top - hi) 0 }
  else anyEstimate

/-- The branches of R186 that are open to a computed `raw` between `lo / den` and `hi / den`, each with
where its result lies. A test that such a `raw` may pass and may fail leaves both branches open. -/
def openBranches (ε p zeros lo hi den : Nat) : List EstRange :=
  let m := regCount p
  let small : Bool := decide (1 ≤ zeros) && decide (2 * lo ≤ 5 * m * den)
  let notSmall : Bool := decide (zeros = 0) || decide (5 * m * den < 2 * hi)
  let plain : Bool := notSmall && decide (30 * lo ≤ 2 ^ 32 * den)
  let large : Bool := notSmall && decide (2 ^ 32 * den < 30 * hi)
  (if small then [smallRange ε p zeros] else []) ++
    (if plain then [{ lo := lo / den, hi := hi / den }] else []) ++
    (if large then [largeRange ε lo hi den] else [])

/-- Where the Dense estimate lies (R186) when `raw` is computed with a relative error of up to
`ρ / 2^128`: a list of ranges, one for each open branch. -/
def denseRanges (ρ ε p : Nat) (hist : List Nat) : List EstRange :=
  openBranches ε p (hist.headD 0) (rawNum p * (2 ^ errorFrac - ρ)) (rawNum p * (2 ^ errorFrac + ρ))
    (rawDen p hist * 2 ^ errorFrac)

/-- `raw ≥ 2^32` (R189). -/
def rawOverflows (p : Nat) (hist : List Nat) : Bool :=
  decide (2 ^ 32 * rawDen p hist ≤ rawNum p)

/-! ## The estimate -/

/-- A free value, kept to the integers of the ranges: where it is none of them, the least integer of
the first range stands in its place. -/
def pickEstimate (ranges : List EstRange) (free : DWord) : DWord :=
  if ranges.any (·.contains free.toNat) then free else BitVec.ofNat 64 (ranges.headD anyEstimate).lo

/-- The Sparse estimate (R182, R183); 0 for an empty array in every arithmetic (R187). -/
def sparseEstimate (p n : Nat) : DWord :=
  if n = 0 then 0 else pickEstimate [sparseRange Config.lnError p n] (Config.sparseEstimate p n)

/-- The Dense estimate (R184 to R186), none in the case of R189; 0 for counters that are all 0 in every
arithmetic (R187). -/
def denseEstimate (p : Nat) (hist : List Nat) : Option DWord :=
  if hist.headD 0 = regCount p then some 0
  else if rawOverflows p hist then none
  else
    some (pickEstimate (denseRanges (Config.rawError p) Config.lnError p hist)
      (Config.denseEstimate p hist))

/-- The estimate of a folded sketch (R180 to R187, R190), none in the case of R189. It reads `p`, the
mode, and `alen` or the histogram, and nothing else (R190 item 1). -/
def Sketch.estimate (sk : Sketch) : Option DWord :=
  match sk.payload with
  | .sparse _ array => some (sparseEstimate sk.p array.length)
  | .dense words => denseEstimate sk.p (histogram (counters sk.p sk.r words))

/-- Ends `EST` with the estimate, or with a free value where no rule gives one (R189). -/
def State.completeEstimate (s : State) (estimate : Option DWord) : State :=
  match estimate with
  | some v => s.complete v []
  | none => { s with draws := s.draws + 1 }.complete (Config.freeEstimate s.draws) []

/-- `EST cD` (R180): fold, then the formula of the mode found after the fold (R181). -/
def execEst (dst : ContextId) (s : State) : Result :=
  .next <| s.withSketch dst fun sk =>
    (s.setContext dst (some sk.fold)).completeEstimate sk.fold.estimate

end Sys2Proof.Machine
end

