-- ==== Sys2Proof/Machine/Flags.lean ====
section
/-! DEFINITION. The block has no condition codes or status flags (spec/10_state.md R40). What a host
sees in their place is written here: the numeric status codes of a response and the packed status
word of `STAT`, with the flag-like bits `mode` and `valid`. -/

namespace Sys2Proof.Machine

/-- The 4-bit `STATUS` code (spec/60_exceptions.md R250). Codes 6 to 15 are never produced. -/
def Status.code : Status → BitVec 4
  | .ok => 0
  | .invalidParameter => 1
  | .incompatibleShape => 2
  | .formatError => 3
  | .illegalCommand => 4
  | .badOperand => 5

/-- The `mode` bit: 0 Sparse, 1 Dense (spec/10_state.md R24). -/
def Mode.bit : Mode → Nat
  | .sparse => 0
  | .dense => 1

/-- A field of `width` bits at bit `lo` of a 64-bit word. -/
def fieldAt (lo width v : Nat) : DWord := BitVec.ofNat 64 (v % 2 ^ width) <<< lo

/-- The packed status word of `STAT` (spec/45_lifecycle.md R234); 0 for an empty context. -/
def statWord : Context → DWord
  | none => 0
  | some sk =>
    fieldAt 0 8 sk.p ||| fieldAt 8 8 sk.r ||| fieldAt 16 1 sk.mode.bit ||| fieldAt 17 1 1 |||
      fieldAt 20 4 sk.tcnt ||| fieldAt 32 20 sk.alen

end Sys2Proof.Machine
end

