-- ==== Sys2Proof/Machine/Lifecycle.lean ====
section
/-! DEFINITION. Sketch lifecycle and observation (spec/45_lifecycle.md): `NEW.S`, `NEW.D`, `FREE`,
`STAT`. -/

namespace Sys2Proof.Machine

/-- An empty Sparse sketch (R230). -/
def newSparse (p r : Nat) : Sketch := { p := p, r := r, payload := .sparse [] [] }

/-- An all-zero Dense sketch (R231). -/
def newDense (p r : Nat) : Sketch := { p := p, r := r, payload := .dense (zeroWords p r) }

/-- Ends a creation command: the destination must exist, then the parameters must be in range (R230,
R233; spec/60_exceptions.md R256), and the new sketch replaces what the context held. -/
def State.create (s : State) (dst : ContextId) (sk : Sketch) : State :=
  s.withContext dst
    (if paramsOk sk.p sk.r then (s.setContext dst (some sk)).complete 0 []
      else s.raise .invalidParameter)

/-- `NEW.S cD, p, r` (R230). -/
def execNewS (dst : ContextId) (pb rb : Byte) (s : State) : Result :=
  .next <| s.create dst (newSparse pb.toNat rb.toNat)

/-- `NEW.D cD, p, r` (R231). -/
def execNewD (dst : ContextId) (pb rb : Byte) (s : State) : Result :=
  .next <| s.create dst (newDense pb.toNat rb.toNat)

/-- `FREE cD` (R232): an already empty context is no error. -/
def execFree (dst : ContextId) (s : State) : Result :=
  .next <| s.withContext dst ((s.setContext dst none).complete 0 [])

/-- `STAT cD` (R234): an empty context is no error, and nothing is folded. -/
def execStat (dst : ContextId) (s : State) : Result :=
  .next <|
    match s.context? dst with
    | none => s.raise .badOperand
    | some x => s.complete (statWord x) []

end Sys2Proof.Machine
end

