-- ==== Sys2Proof/Machine/Merge.lean ====
section
/-! DEFINITION. The Merge Engine (spec/42_merge.md): `MERGE` and its four mode pairings. -/

namespace Sys2Proof.Machine

/-- `MergeDD` (R166): `UpdateMax(D, i, RegRead(S, i))` for every counter. -/
def mergeWords (p r : Nat) (dst src : List Word) : List Word :=
  (List.range (regCount p)).foldl (fun w i => updateMax r w i (regRead r src i)) dst

/-- The dispatch on the modes of the two folded operands (R162 to R166); the result is the new
destination. -/
def Sketch.mergeFrom (d src : Sketch) : Sketch :=
  match d.payload, src.payload with
  | .sparse buffer a, .sparse _ b =>
    Sketch.promoteIfFull { d with payload := .sparse buffer (union d.p d.r a b) }
  | .dense words, .sparse _ b => { d with payload := .dense (foldEntries d.p d.r words b) }
  | .sparse _ a, .dense words =>
    { d with
      payload :=
        .dense (mergeWords d.p d.r (foldEntries d.p d.r (zeroWords d.p d.r) a) words) }
  | .dense words, .dense words' => { d with payload := .dense (mergeWords d.p d.r words words') }

/-- The two flushes, destination first (R161), and then the merge into the destination. -/
def State.mergeContexts (s : State) (dst src : ContextId) : State :=
  let s := (s.updateSketch dst Sketch.fold).updateSketch src Sketch.fold
  match s.sketch? src with
  | none => s
  | some b => s.updateSketch dst fun a => a.mergeFrom b

/-- Two sketches of one shape (spec/45_lifecycle.md R235). -/
def Sketch.compatible (a b : Sketch) : Bool := a.p == b.p && a.r == b.r

/-- `MERGE cD, cS` (R160): both contexts hold a sketch, the shapes match (R172), and only then does
anything change. -/
def execMerge (dst src : ContextId) (s : State) : Result :=
  .next <| s.withSketch dst fun a => s.withSketch src fun b =>
    if a.compatible b then (s.mergeContexts dst src).complete 0 []
    else s.raise .incompatibleShape

end Sys2Proof.Machine
end

