-- ==== Sys2Proof/Machine/RegisterStore.lean ====
section
/-! DEFINITION. The Register Store commands (spec/40_register_store.md): `ADD` and `RDREG`. -/

namespace Sys2Proof.Machine

/-- `AddDense` (R115). -/
def addDense (p r : Nat) (words : List Word) (h : DWord) : List Word :=
  updateMax r words (topBits h p) (rank h p r)

/-- The dispatch of `ADD` on the mode the sketch has when the command starts (R114). -/
def Sketch.add (sk : Sketch) (h : DWord) : Sketch :=
  match sk.payload with
  | .sparse buffer array => addSparse sk.p sk.r buffer array h
  | .dense words => { sk with payload := .dense (addDense sk.p sk.r words h) }

/-- `ADD cD, h` (R114). -/
def execAdd (dst : ContextId) (hash : DWord) (s : State) : Result :=
  .next <| s.withSketch dst fun sk => (s.setContext dst (some (sk.add hash))).complete 0 []

/-- `RDREG cD, i` (R118): `BadOperand` in Sparse mode and for an index of `m` or more. -/
def execRdreg (dst : ContextId) (index : DWord) (s : State) : Result :=
  .next <| s.withSketch dst fun sk =>
    match sk.payload with
    | .sparse _ _ => s.raise .badOperand
    | .dense words =>
      if regCount sk.p ≤ index.toNat then s.raise .badOperand
      else s.complete (BitVec.ofNat 64 (regRead sk.r words index.toNat)) []

end Sys2Proof.Machine
end

