-- ==== Sys2Proof/Machine/Dispatch.lean ====
section
/-! DEFINITION. The dispatch of a command to its meaning, one arm for each constructor of `Instr`. -/

namespace Sys2Proof.Machine

/-- One command (spec/30_encoding.md R86). -/
def exec (i : Instr) (s : State) : Host.Outcome State Fault Refusal :=
  match i with
  -- sketch lifecycle (spec/45_lifecycle.md)
  | .newS dst pb rb => Sys2Proof.Machine.execNewS dst pb rb s
  | .newD dst pb rb => Sys2Proof.Machine.execNewD dst pb rb s
  | .free dst => Sys2Proof.Machine.execFree dst s
  -- Register Store and Sparse Set (spec/40_register_store.md, spec/41_sparse_set.md)
  | .add dst hash => Sys2Proof.Machine.execAdd dst hash s
  -- Merge Engine (spec/42_merge.md)
  | .merge dst src => Sys2Proof.Machine.execMerge dst src s
  -- Cardinality Estimator (spec/43_estimator.md)
  | .est dst => Sys2Proof.Machine.execEst dst s
  -- Serialization Codec (spec/44_codec.md)
  | .ser dst => Sys2Proof.Machine.execSer dst s
  | .des dst image => Sys2Proof.Machine.execDes dst image s
  | .serL dst => Sys2Proof.Machine.execSerL dst s
  | .desL dst image => Sys2Proof.Machine.execDesL dst image s
  -- observation (spec/40_register_store.md R118, spec/45_lifecycle.md R234)
  | .rdreg dst index => Sys2Proof.Machine.execRdreg dst index s
  | .stat dst => Sys2Proof.Machine.execStat dst s

end Sys2Proof.Machine
end

