-- ==== Sys2Proof/Machine/Step.lean ====
section
/-! DEFINITION. One step of the block: it takes the next event at its port and runs it to completion
(spec/20_memory.md R70). There is no program counter and no fetch (spec/10_state.md R39): the host's
events, in issue order, are the program (log entry 5). -/

namespace Sys2Proof.Machine

/-- A command with its decoding: the command runs, or ends with `IllegalCommand`
(spec/30_encoding.md R87, R88). -/
def runCommand (c : Command) (s : State) : Result :=
  match decode c with
  | .error _ => .next (s.raise .illegalCommand)
  | .ok i => exec i s

/-- Reset (spec/70_reset_and_hazards.md R280): every context holds no sketch, and no response stands
at the port. What the host has yet to issue is the host's and stays (log entry 7, DESIGN CHOICE). -/
def State.resetBlock (s : State) : State :=
  { s with contexts := s.contexts.map fun _ => none, response := none }

/-- One step. With nothing issued the block waits (R282; log entry 5). -/
def step (s : State) : Host.Outcome State Fault Refusal :=
  match s.inputs with
  | [] => .next s
  | .reset :: rest => .next { s with inputs := rest }.resetBlock
  | .command c :: rest => runCommand c { s with inputs := rest }

/-- The state in which the next event is the command of a table word: `CMD` the word, `ARG = 0`, `IN`
empty. -/
def State.withFetchWord (s : State) (nbits w : Nat) : State :=
  { s with inputs := .command (tableCommand nbits w) :: s.inputs }

end Sys2Proof.Machine
end

