-- ==== Sys2Proof/Safety.lean ====
section
/-! DEFINITION. The terms claims use: the logical content of a sketch (spec/00_scope.md R15), the
well-formed states (spec/10_state.md R44), and what a command names and replaces. -/

namespace Sys2Proof.Machine

/-! ## Logical content (R15) -/

/-- The largest rank among the entries whose fine index satisfies `q`, 0 when there is none. -/
def maxRank (p r : Nat) (q : Nat → Bool) : List Word → Nat
  | [] => 0
  | e :: es =>
    if q (entryIndex p e) then max (entryRank r e) (maxRank p r q es) else maxRank p r q es

/-- `Coarse(c)(i)` (R15). -/
def Sketch.coarse (sk : Sketch) (i : Nat) : Nat :=
  match sk.payload with
  | .sparse buffer array => maxRank sk.p sk.r (fun f => f >>> 4 == i) (buffer ++ array)
  | .dense words => regRead sk.r words i

/-- `Fine(c)(f)` (R15), 0 for a Dense sketch, which has no fine content. -/
def Sketch.fine (sk : Sketch) (f : Nat) : Nat :=
  match sk.payload with
  | .sparse buffer array => maxRank sk.p sk.r (fun g => g == f) (buffer ++ array)
  | .dense _ => 0

/-! ## Well-formed states (R9, R44) -/

/-- An empty context, or one whose sketch is well formed. -/
def contextWf : Context → Bool
  | none => true
  | some sk => sk.wf

/-- 2 to 16 contexts, all of them well formed. -/
def State.wf (s : State) : Bool :=
  decide (2 ≤ s.contexts.length) && decide (s.contexts.length ≤ 16) && s.contexts.all contextWf

end Sys2Proof.Machine

namespace Sys2Proof

/-! ## What a command names -/

/-- The contexts a command names (spec/20_memory.md R72). -/
def Instr.names : Instr → List ContextId
  | .newS dst _ _ => [dst]
  | .newD dst _ _ => [dst]
  | .free dst => [dst]
  | .add dst _ => [dst]
  | .merge dst src => [dst, src]
  | .est dst => [dst]
  | .ser dst => [dst]
  | .des dst _ => [dst]
  | .serL dst => [dst]
  | .desL dst _ => [dst]
  | .rdreg dst _ => [dst]
  | .stat dst => [dst]

/-- The commands that replace a sketch whole or destroy it (spec/10_state.md R35, R37). -/
def Instr.replaces : Instr → Bool
  | .newS _ _ _ => true
  | .newD _ _ _ => true
  | .free _ => true
  | .add _ _ => false
  | .merge _ _ => false
  | .est _ => false
  | .ser _ => false
  | .des _ _ => true
  | .serL _ => false
  | .desL _ _ => true
  | .rdreg _ _ => false
  | .stat _ => false

/-- The commands that need every context they name to hold a sketch (spec/60_exceptions.md R255). -/
def Instr.needsSketch : Instr → Bool
  | .newS _ _ _ => false
  | .newD _ _ _ => false
  | .free _ => false
  | .add _ _ => true
  | .merge _ _ => true
  | .est _ => true
  | .ser _ => true
  | .des _ _ => false
  | .serL _ => true
  | .desL _ _ => false
  | .rdreg _ _ => true
  | .stat _ => false

/-- The statuses a decoded command can end with: its row of the table of spec/60_exceptions.md R265,
without the column of `IllegalCommand`, which only the decoder gives. -/
def Instr.statuses : Instr → List Machine.Status
  | .newS _ _ _ => [.ok, .invalidParameter, .badOperand]
  | .newD _ _ _ => [.ok, .invalidParameter, .badOperand]
  | .free _ => [.ok, .badOperand]
  | .add _ _ => [.ok, .badOperand]
  | .merge _ _ => [.ok, .incompatibleShape, .badOperand]
  | .est _ => [.ok, .badOperand]
  | .ser _ => [.ok, .badOperand]
  | .des _ _ => [.ok, .formatError, .badOperand]
  | .serL _ => [.ok, .badOperand]
  | .desL _ _ => [.ok, .formatError, .badOperand]
  | .rdreg _ _ => [.ok, .badOperand]
  | .stat _ => [.ok, .badOperand]

end Sys2Proof
end

