-- ==== Sys2Proof/Certificates/Slice0/Obligations.lean ====
section
/-! DEFINITION. The statements about the model, for the provers. Each docstring says which sentence of
the spec the statement formalises. -/

open Sys2Proof Sys2Proof.Machine

/-! ## Encoding -/

/-- R87, R95: the decoder reads the triple of every command that a triple can hold back as that
command, with every operand at every value. -/
def Obligations.DecodeEncodeRoundTrip : Prop :=
  ∀ i : Instr, i.wf = true → decode (encode i) = .ok i

/-- R87, R88: a command has one triple. Whatever the decoder accepts is a well-formed command, and the
triple it was read from is the one the encoder gives. -/
def Obligations.DecodedTripleIsTheEncoding : Prop :=
  ∀ (c : Command) (i : Instr), decode c = .ok i → i.wf = true ∧ encode i = c

/-- R95, R86: words written out from the table of the assembler form decode to their commands. -/
def Obligations.SpecWordsDecode : Prop :=
  decode ⟨0x02000404, 0, []⟩ = .ok (.newD 0 4 4) ∧
  decode ⟨0x01100E05, 0, []⟩ = .ok (.newS 1 14 5) ∧
  decode ⟨0x04100000, 0x1, []⟩ = .ok (.add 1 0x1) ∧
  decode ⟨0x05010000, 0, []⟩ = .ok (.merge 0 1) ∧
  decode ⟨0x06F00000, 0, []⟩ = .ok (.est 15) ∧
  decode ⟨0x08000000, 3, [0x00, 0x04, 0x04]⟩ = .ok (.des 0 [0x00, 0x04, 0x04]) ∧
  decode ⟨0x0B000000, 16, []⟩ = .ok (.rdreg 0 16)

/-- R88: a triple on the list of illegal encodings ends with `IllegalCommand` and changes no state,
and every other triple is a command that runs. -/
def Obligations.IllegalTriplesEndWithIllegalCommand : Prop :=
  ∀ (s : State) (c : Command) (rest : List HostEvent), s.inputs = .command c :: rest →
    let op := c.cmd.toNat / 2 ^ 24
    let illegal : Prop :=
      op = 0x00 ∨ 0x0D ≤ op ∨
      (op ≠ 0x05 ∧ c.cmd.toNat / 2 ^ 16 % 2 ^ 4 ≠ 0) ∨
      (op ∉ [0x01, 0x02] ∧ c.cmd.toNat % 2 ^ 16 ≠ 0) ∨
      (op ∉ [0x04, 0x08, 0x0A, 0x0B] ∧ c.arg ≠ 0) ∨
      (op ∉ [0x08, 0x0A] ∧ c.input ≠ []) ∨
      (op ∈ [0x08, 0x0A] ∧ c.arg.toNat ≠ c.input.length)
    (illegal →
      step s = .next { s with inputs := rest, response := some ⟨.illegalCommand, 0, []⟩ }) ∧
    (¬ illegal → ∃ i, decode c = .ok i ∧ step s = exec i { s with inputs := rest })

/-! ## The step -/

/-- R70, R87: when the next event is a command whose triple decodes to a well-formed instruction, the
step takes the event and is that instruction's meaning. -/
def Obligations.StepRunsDecodedCommand : Prop :=
  ∀ (s : State) (c : Command) (rest : List HostEvent) (i : Instr),
    s.inputs = .command c :: rest → decode c = .ok i → i.wf = true →
      step s = exec i { s with inputs := rest }

/-- R282: with nothing issued the block waits. -/
def Obligations.BlockWaitsForACommand : Prop :=
  ∀ s : State, s.inputs = [] → step s = .next s

/-- R280: after reset every context is empty, whichever state the block was reset from, and reset is
the only event other than `FREE` after which a context that held a sketch holds none. (That a reset
is an event at the host's port is the model's form, log entry 7.) -/
def Obligations.OnlyResetAndFreeEmptyAContext : Prop :=
  (∀ c, State.reset.sketch? c = none) ∧
  (∀ (s : State) (rest : List HostEvent), s.inputs = .reset :: rest →
    ∃ t, step s = .next t ∧ t.contexts.length = s.contexts.length ∧ ∀ c, t.sketch? c = none) ∧
  ∀ (s t : State) (c : ContextId) (a : Sketch), step s = .next t → s.sketch? c = some a →
    t.sketch? c = none →
      (∃ rest, s.inputs = .reset :: rest) ∨
        ∃ cmd rest, s.inputs = .command cmd :: rest ∧ decode cmd = .ok (.free c)

/-- R70 of commands: a step takes the first event and sees none of the later ones. That the host's
commands stand in State as a list of events is the model's form (log entry 5), and that a reset is
one of them and leaves the rest of the list as it was is the model's choice (log entry 7). -/
def Obligations.LaterEventsAreUnseen : Prop :=
  ∀ (s t : State) (e : HostEvent) (rest rest' : List HostEvent), s.inputs = e :: rest →
    step s = .next t →
      t.inputs = rest ∧ step { s with inputs := e :: rest' } = .next { t with inputs := rest' }

/-- R44: every step from a well-formed state ends in a well-formed state. -/
def Obligations.StepKeepsStateWellFormed : Prop :=
  ∀ s t : State, s.wf = true → step s = .next t → t.wf = true

/-- R9, R44, R280: the state after reset is well formed. -/
def Obligations.ResetStateIsWellFormed : Prop :=
  State.reset.wf = true

/-- R257, R265, R207: a step always answers a next state, except for a load of an image that passes
the checks of its layout and is not content-valid, which is refused under its own name. -/
def Obligations.StepStopsOnlyOnUndefinedImage : Prop :=
  ∀ s : State,
    (∃ t, step s = .next t) ∨
      (step s = .refused .undefinedImage ∧
        ∃ c rest dst image, s.inputs = .command c :: rest ∧
          ((decode c = .ok (.des dst image) ∧ loadTagged image = .undefinedContent) ∨
            (decode c = .ok (.desL dst image) ∧ loadLegacy image = .undefinedContent)))

/-- R257 (with R84): every command that the block takes gives a response, and one whose status is not
`OK` has `RES = 0`, an empty `OUT`, and changes nothing else. -/
def Obligations.FailedCommandChangesNothing : Prop :=
  ∀ (s t : State) (c : Command) (rest : List HostEvent), s.inputs = .command c :: rest →
    step s = .next t →
      ∃ q, t.response = some q ∧
        (q.status ≠ .ok →
          q.res = 0 ∧ q.out = [] ∧ t = { s with inputs := rest, response := some q })

/-- R265: a command ends only with the statuses of its row. -/
def Obligations.CommandEndsWithItsStatuses : Prop :=
  ∀ (i : Instr) (s t : State), exec i s = .next t →
    ∃ q, t.response = some q ∧ q.status ∈ i.statuses

/-- R255: a decoded command ends with `BadOperand` exactly in the cases of the table. -/
def Obligations.BadOperandExactlyInItsCases : Prop :=
  ∀ (i : Instr) (s : State),
    exec i s = .next { s with response := some ⟨.badOperand, 0, []⟩ } ↔
      (∃ c ∈ i.names, s.contexts.length ≤ c.toNat) ∨
      (i.needsSketch = true ∧ ∃ c ∈ i.names, s.sketch? c = none) ∨
      (∃ dst k a, i = .rdreg dst k ∧ s.sketch? dst = some a ∧
        (a.mode = .sparse ∨ 2 ^ a.p ≤ k.toNat)) ∨
      (∃ dst a, i = .serL dst ∧ s.sketch? dst = some a ∧ a.mode = .sparse)

/-- R84, R258: nothing is remembered of the last response. What a command does does not depend on
it. -/
def Obligations.LastResponseIsNotRead : Prop :=
  ∀ (s : State) (c : Command) (rest : List HostEvent) (q : Option Response),
    s.inputs = .command c :: rest → step { s with response := q } = step s

/-! ## Rules about the whole machine -/

/-- R37: no command changes the `p` or `r` of a sketch; only one that replaces the sketch whole gives
its context another shape. -/
def Obligations.ShapeIsImmutable : Prop :=
  ∀ (i : Instr) (s t : State) (c : ContextId) (a : Sketch), exec i s = .next t →
    s.sketch? c = some a → ¬ (i.replaces = true ∧ c ∈ i.names) →
      ∃ b, t.sketch? c = some b ∧ b.p = a.p ∧ b.r = a.r

/-- R24, R38, R140: a Dense sketch stays Dense until it is replaced, and only `ADD`, `MERGE`, `EST` and
`SER` promote. -/
def Obligations.PromotionIsIrreversible : Prop :=
  ∀ (i : Instr) (s t : State) (c : ContextId) (a : Sketch), exec i s = .next t →
    s.sketch? c = some a → ¬ (i.replaces = true ∧ c ∈ i.names) →
      ∃ b, t.sketch? c = some b ∧ (a.mode = .dense → b.mode = .dense) ∧
        (a.mode ≠ b.mode → c ∈ i.names ∧
          ((∃ dst h, i = .add dst h) ∨ (∃ dst src, i = .merge dst src) ∨ (∃ dst, i = .est dst) ∨
            ∃ dst, i = .ser dst))

/-- R35: no command that does not replace a sketch lowers any of its counters, in either mode and
across promotion. -/
def Obligations.CountersNeverDecrease : Prop :=
  ∀ (i : Instr) (s t : State) (c : ContextId) (a : Sketch), s.wf = true → exec i s = .next t →
    s.sketch? c = some a → ¬ (i.replaces = true ∧ c ∈ i.names) →
      ∃ b, t.sketch? c = some b ∧ ∀ k < 2 ^ a.p, a.coarse k ≤ b.coarse k

/-- R20: a command leaves every context it does not name, the number of contexts and the host's
pending events as they were. -/
def Obligations.OtherContextsAreUnchanged : Prop :=
  ∀ (i : Instr) (s t : State), exec i s = .next t →
    t.contexts.length = s.contexts.length ∧ t.inputs = s.inputs ∧
      ∀ c, c ∉ i.names → t.context? c = s.context? c

/-- R72: two commands that name disjoint sets of contexts give the same contexts and the same two
responses in either order. Two estimates that no rule gives (R189) may differ, so at most one of the
two commands is taken to draw a free value (log entry 4). -/
def Obligations.DisjointCommandsCommute : Prop :=
  ∀ (i j : Instr) (s si sj : State), (∀ c ∈ i.names, c ∉ j.names) →
    exec i s = .next si → exec j s = .next sj → (si.draws = s.draws ∨ sj.draws = s.draws) →
      ∃ sij sji, exec j si = .next sij ∧ exec i sj = .next sji ∧
        sij.contexts = sji.contexts ∧ sij.draws = sji.draws ∧
        sji.response = si.response ∧ sij.response = sj.response

/-- R250: the status codes, and that codes 6 to 15 are never produced. -/
def Obligations.StatusCodesAreTheTable : Prop :=
  Status.ok.code = 0 ∧ Status.invalidParameter.code = 1 ∧ Status.incompatibleShape.code = 2 ∧
    Status.formatError.code = 3 ∧ Status.illegalCommand.code = 4 ∧ Status.badOperand.code = 5 ∧
    ∀ e : Status, e.code.toNat < 6

/-- R7 (with R5): lanes per word, padding and largest counter of the three widths, and the sizes that
follow from a legal shape. -/
def Obligations.ShapeSizes : Prop :=
  ∀ p r : Nat, paramsOk p r = true →
    regCount p = 2 ^ p ∧ fineWidth p = p + 4 ∧
    (r = 4 ∧ regPerWord r = 8 ∧ 32 - r * regPerWord r = 0 ∧ rankMax r = 15 ∨
      r = 5 ∧ regPerWord r = 6 ∧ 32 - r * regPerWord r = 2 ∧ rankMax r = 31 ∨
      r = 6 ∧ regPerWord r = 5 ∧ 32 - r * regPerWord r = 2 ∧ rankMax r = 63) ∧
    (wordCount p r - 1) * regPerWord r < 2 ^ p ∧ 2 ^ p ≤ wordCount p r * regPerWord r

/-! ## Index and rank -/

/-- R91, R143: against a prefix of `k` bits a hash has the rank `min(1 + t, 65 - k, RMAX)`, `t` being
the number of its trailing zeros (64 for the hash 0), and the rank is at least 1. -/
def Obligations.RankIsCappedByTheSentinel : Prop :=
  ∀ (h : DWord) (k r t : Nat), 4 ≤ k → k ≤ 22 → r ∈ [4, 5, 6] →
    (h = 0 ∧ t = 64 ∨ 2 ^ t ∣ h.toNat ∧ ¬ 2 ^ (t + 1) ∣ h.toNat) →
      rank h k r = min (1 + t) (min (65 - k) (2 ^ r - 1)) ∧ 1 ≤ rank h k r

/-- R143: the Sparse and the Dense path agree on the coarse index of every hash; on the rank they agree
for `r = 4` and `r = 5`, and for `r = 6` exactly when `ctz64(h) < 61 - p`. -/
def Obligations.SparseAndDensePathsAgree : Prop :=
  ∀ (h : DWord) (p r : Nat), paramsOk p r = true →
    topBits h (p + 4) / 16 = topBits h p ∧
      (r ≠ 6 → rank h (p + 4) r = rank h p r) ∧
      (r = 6 → (rank h (p + 4) r = rank h p r ↔ ctz64 h < 61 - p))

/-! ## The Register Store -/

/-- R113: `UpdateMax` leaves the larger of the two values in its counter and writes nothing when the
value is not larger; every other counter keeps its value, and the padding and unused lanes stay
zero. -/
def Obligations.UpdateMaxNeverDecreases : Prop :=
  ∀ (p r : Nat) (words : List Word) (i k : Nat), paramsOk p r = true → denseWf p r words = true →
    i < 2 ^ p → k ≤ 2 ^ r - 1 →
      regRead r (updateMax r words i k) i = max (regRead r words i) k ∧
      (k ≤ regRead r words i → updateMax r words i k = words) ∧
      (∀ j < 2 ^ p, j ≠ i → regRead r (updateMax r words i k) j = regRead r words j) ∧
      denseWf p r (updateMax r words i k) = true

/-- R115 (with R90, R91): `ADD` on a Dense sketch completes; the counter of the hash's top `p` bits
becomes the larger of itself and the rank, every other counter keeps its value, and nothing else
changes. -/
def Obligations.AddDenseRaisesOneCounter : Prop :=
  ∀ (s : State) (dst : ContextId) (h : DWord) (p r : Nat) (words : List Word), s.wf = true →
    s.sketch? dst = some ⟨p, r, .dense words⟩ →
      let idx := h.toNat / 2 ^ (64 - p)
      let k := min (1 + ctz64 (h ||| (1#64 <<< (64 - p)))) (2 ^ r - 1)
      ∃ words',
        exec (.add dst h) s = .next { s with
          contexts := s.contexts.set dst.toNat (some ⟨p, r, .dense words'⟩)
          response := some ⟨.ok, 0, []⟩ } ∧
        regRead r words' idx = max (regRead r words idx) k ∧
        (∀ j < 2 ^ p, j ≠ idx → regRead r words' j = regRead r words j) ∧
        denseWf p r words' = true

/-- R116: adding a hash again to a Dense sketch changes nothing at all. -/
def Obligations.AddDenseIsIdempotent : Prop :=
  ∀ (s t : State) (dst : ContextId) (h : DWord) (a : Sketch), s.wf = true →
    s.sketch? dst = some a → a.mode = .dense → exec (.add dst h) s = .next t →
      exec (.add dst h) t = .next t

/-- R118 (with R111): `RDREG` answers the counter of an index below `m` of a Dense sketch and
`BadOperand` otherwise, and changes nothing but the response. -/
def Obligations.RdregReadsOneCounter : Prop :=
  ∀ (s : State) (dst : ContextId) (i : DWord),
    let bad : State := { s with response := some ⟨.badOperand, 0, []⟩ }
    (s.contexts.length ≤ dst.toNat → exec (.rdreg dst i) s = .next bad) ∧
    (s.sketch? dst = none → exec (.rdreg dst i) s = .next bad) ∧
    (∀ p r tb sa, s.sketch? dst = some ⟨p, r, .sparse tb sa⟩ →
      exec (.rdreg dst i) s = .next bad) ∧
    ∀ p r words, s.sketch? dst = some ⟨p, r, .dense words⟩ →
      (2 ^ p ≤ i.toNat → exec (.rdreg dst i) s = .next bad) ∧
      (i.toNat < 2 ^ p →
        let k := i.toNat / (32 / r)
        let j := i.toNat % (32 / r)
        let sh := 32 - r * (j + 1)
        exec (.rdreg dst i) s = .next { s with
          response := some ⟨.ok, BitVec.ofNat 64 ((words.getD k 0 >>> sh).toNat % 2 ^ r), []⟩ })

/-! ## The Sparse Set -/

/-- R131 (with R57, R130): unpacking a packed pair gives the pair back, the coarse index is the fine
index without its 4 low bits, and packing what a well-formed entry unpacks to gives the entry
back. -/
def Obligations.UnpackInvertsPack : Prop :=
  ∀ p r : Nat, paramsOk p r = true →
    (∀ f k : Nat, f < 2 ^ (p + 4) → k ≤ 2 ^ r - 1 →
      (packEntry p f k).toNat = f * 2 ^ (32 - (p + 4)) + k ∧
      entryIndex p (packEntry p f k) = f ∧ entryRank r (packEntry p f k) = k ∧
      entryCoarse p (packEntry p f k) = f / 16 ∧ entryWf p r (packEntry p f k) = true) ∧
    ∀ e : Word, entryWf p r e = true → packEntry p (entryIndex p e) (entryRank r e) = e

/-- R133: the union of two sequences of well-formed entries has one entry for each fine index that
occurs, with the largest rank that occurs, in strictly ascending order; and its length lies between
the number of distinct indices of each operand and the sum of the two lengths. -/
def Obligations.UnionKeepsTheMaximumOfEveryIndex : Prop :=
  ∀ (p r : Nat) (a b : List Word), paramsOk p r = true → a.all (entryWf p r) = true →
    b.all (entryWf p r) = true →
      strictlySorted p (union p r a b) = true ∧ (union p r a b).all (entryWf p r) = true ∧
      (∀ f, (∃ e ∈ union p r a b, entryIndex p e = f) ↔ ∃ e ∈ a ++ b, entryIndex p e = f) ∧
      (∀ f, maxRank p r (· == f) (union p r a b) = maxRank p r (· == f) (a ++ b)) ∧
      (a.map (entryIndex p)).dedup.length ≤ (union p r a b).length ∧
      (b.map (entryIndex p)).dedup.length ≤ (union p r a b).length ∧
      (union p r a b).length ≤ a.length + b.length

/-- R133: the union depends only on the two multisets of entries; it is commutative, associative and
idempotent, and a sorted sequence is its own union with itself and with the empty one. -/
def Obligations.UnionIsASemilattice : Prop :=
  ∀ (p r : Nat) (a b c : List Word), paramsOk p r = true → a.all (entryWf p r) = true →
    b.all (entryWf p r) = true → c.all (entryWf p r) = true →
      union p r a b = union p r b a ∧
      union p r (union p r a b) c = union p r a (union p r b c) ∧
      (∀ a' b', a'.Perm a → b'.Perm b → union p r a' b' = union p r a b) ∧
      union p r a a = sortDedup p r a ∧
      (strictlySorted p a = true → union p r a a = a ∧ union p r a [] = a)

/-- R135 (with R92, R137, R138): `ADD` on a Sparse sketch completes. It appends the packed entry of the
hash; the fifth buffered entry folds the buffer into the array, and the fold promotes when the
array then has `m` or more entries. Nothing else changes. -/
def Obligations.AddSparseAppendsAndFoldsAtFive : Prop :=
  ∀ (s : State) (dst : ContextId) (h : DWord) (p r : Nat) (tb sa : List Word), s.wf = true →
    s.sketch? dst = some ⟨p, r, .sparse tb sa⟩ →
      let fidx := h.toNat / 2 ^ (64 - (p + 4))
      let k := min (1 + ctz64 (h ||| (1#64 <<< (64 - (p + 4))))) (2 ^ r - 1)
      let tb' := tb ++ [BitVec.ofNat 32 (fidx * 2 ^ (32 - (p + 4)) + k)]
      let sa' := union p r sa tb'
      let after (x : Payload) : State := { s with
        contexts := s.contexts.set dst.toNat (some ⟨p, r, x⟩), response := some ⟨.ok, 0, []⟩ }
      (tb.length < 4 → exec (.add dst h) s = .next (after (.sparse tb' sa))) ∧
      (tb.length = 4 → sa'.length < 2 ^ p →
        exec (.add dst h) s = .next (after (.sparse [] sa'))) ∧
      (tb.length = 4 → 2 ^ p ≤ sa'.length →
        ∃ words, exec (.add dst h) s = .next (after (.dense words)) ∧
          denseWf p r words = true ∧
          ∀ i < 2 ^ p, regRead r words i = maxRank p r (fun f => f / 16 == i) sa')

/-- R36, R137, R139: the fold of a Sparse sketch with up to five buffered entries empties the buffer
and keeps the coarse content; it promotes exactly when the union has `m` or more entries, which ends
the fine content, and otherwise keeps the fine content too. -/
def Obligations.FoldKeepsLogicalContent : Prop :=
  ∀ (p r : Nat) (tb sa : List Word), paramsOk p r = true → tb.length ≤ 5 →
    sparseWf p r [] sa = true → tb.all (entryWf p r) = true →
      let a : Sketch := ⟨p, r, .sparse tb sa⟩
      let n := (union p r sa tb).length
      a.fold.wf = true ∧ a.fold.tcnt = 0 ∧ (a.fold.mode = .dense ↔ 2 ^ p ≤ n) ∧
      (∀ i < 2 ^ p, a.fold.coarse i = a.coarse i) ∧
      (n < 2 ^ p → a.fold.alen = n ∧ ∀ f, a.fold.fine f = a.fine f) ∧
      (2 ^ p ≤ n → ∀ f, a.fold.fine f = 0)

/-- R64, R286: after a `SER` a second one changes nothing and answers the same; after an `EST` a
second one changes no context, and answers the same where a rule gives the estimate. -/
def Obligations.SecondEstOrSerChangesNothing : Prop :=
  ∀ (s t : State) (dst : ContextId), s.wf = true →
    (exec (.ser dst) s = .next t → exec (.ser dst) t = .next t) ∧
    (exec (.est dst) s = .next t →
      ∃ u, exec (.est dst) t = .next u ∧ u.contexts = t.contexts ∧
        (t.draws = s.draws → u = t))

/-! ## The Merge Engine -/

/-- R172: two sketches of different shape do not merge, and neither context changes. -/
def Obligations.ShapeMismatchRefusesMerge : Prop :=
  ∀ (s : State) (dst src : ContextId) (a b : Sketch), s.sketch? dst = some a →
    s.sketch? src = some b → (a.p ≠ b.p ∨ a.r ≠ b.r) →
      exec (.merge dst src) s = .next { s with response := some ⟨.incompatibleShape, 0, []⟩ }

/-- R160, R161, R163 to R167, R171: a merge of two sketches of one shape completes. The source ends
folded, the destination keeps its shape and ends Dense exactly when one of the folded operands is
Dense or the union of the two folded arrays has `m` or more entries, and nothing else changes. -/
def Obligations.MergeCompletes : Prop :=
  ∀ (s : State) (dst src : ContextId) (a b : Sketch), s.wf = true → dst ≠ src →
    s.sketch? dst = some a → s.sketch? src = some b → a.p = b.p → a.r = b.r →
      ∃ d : Sketch,
        exec (.merge dst src) s = .next { s with
          contexts := (s.contexts.set src.toNat (some b.fold)).set dst.toNat (some d)
          response := some ⟨.ok, 0, []⟩ } ∧
        d.p = a.p ∧ d.r = a.r ∧ d.wf = true ∧
        (∀ sa sb, a.fold.payload = .sparse [] sa → b.fold.payload = .sparse [] sb →
          (union a.p a.r sa sb).length < 2 ^ a.p →
            d.payload = .sparse [] (union a.p a.r sa sb)) ∧
        (∀ sa sb, a.fold.payload = .sparse [] sa → b.fold.payload = .sparse [] sb →
          2 ^ a.p ≤ (union a.p a.r sa sb).length → d.mode = .dense) ∧
        (a.fold.mode = .dense ∨ b.fold.mode = .dense → d.mode = .dense)

/-- R168: after a merge every counter of the destination is the larger of the two counters before it,
in all four pairings; and while the destination is still Sparse the same holds of every fine
index. -/
def Obligations.MergeIsTheMaximum : Prop :=
  ∀ (s t : State) (dst src : ContextId) (a b d : Sketch), s.wf = true →
    s.sketch? dst = some a → s.sketch? src = some b → a.p = b.p → a.r = b.r →
    exec (.merge dst src) s = .next t → t.sketch? dst = some d →
      (∀ i < 2 ^ a.p, d.coarse i = max (a.coarse i) (b.coarse i)) ∧
      (d.mode = .sparse → ∀ f, d.fine f = max (a.fine f) (b.fine f))

/-- R170: the whole effect of merging a context with itself is one fold. -/
def Obligations.SelfMergeIsOneFold : Prop :=
  ∀ (s : State) (dst : ContextId) (a : Sketch), s.wf = true → s.sketch? dst = some a →
    exec (.merge dst dst) s = .next { s with
      contexts := s.contexts.set dst.toNat (some a.fold), response := some ⟨.ok, 0, []⟩ }

/-- R169: merging is commutative and associative on the coarse content: `MERGE x, y` leaves in `x` what
`MERGE y, x` leaves in `y`, and merging `y` and then `z` into `x` leaves in `x` what merging `z` into
`y` and then `y` into `x` does. The contexts need not be distinct. -/
def Obligations.MergeIsCommutativeAndAssociative : Prop :=
  (∀ (s : State) (x y : ContextId) (a b : Sketch), s.wf = true → s.sketch? x = some a →
    s.sketch? y = some b → a.p = b.p → a.r = b.r →
      ∃ t u d e, exec (.merge x y) s = .next t ∧ exec (.merge y x) s = .next u ∧
        t.sketch? x = some d ∧ u.sketch? y = some e ∧
        ∀ i < 2 ^ a.p, d.coarse i = e.coarse i) ∧
  ∀ (s : State) (x y z : ContextId) (a b c : Sketch), s.wf = true → s.sketch? x = some a →
    s.sketch? y = some b → s.sketch? z = some c → a.p = b.p → a.r = b.r → b.p = c.p → b.r = c.r →
      ∃ t t' u u' d e, exec (.merge x y) s = .next t ∧ exec (.merge x z) t = .next t' ∧
        exec (.merge y z) s = .next u ∧ exec (.merge x y) u = .next u' ∧
        t'.sketch? x = some d ∧ u'.sketch? x = some e ∧
        ∀ i < 2 ^ a.p, d.coarse i = e.coarse i

/-! ## The estimator -/

/-- R180, R181, R189: `EST` completes. It folds its sketch, answers a 64-bit estimate with an empty
`OUT`, and changes nothing else of the block; the model's count of free values (log entry 4) goes up
by one where no rule gives the estimate. -/
def Obligations.EstFoldsAndAnswers : Prop :=
  ∀ (s : State) (dst : ContextId) (a : Sketch), s.sketch? dst = some a →
    ∃ v n,
      exec (.est dst) s = .next { s with
        contexts := s.contexts.set dst.toNat (some a.fold)
        response := some ⟨.ok, v, []⟩
        draws := n } ∧
      (a.fold.estimate = some v ∧ n = s.draws ∨ a.fold.estimate = none ∧ n = s.draws + 1)

/-- R187: a fresh sketch estimates 0, in either mode and for every legal shape, whatever the
arithmetic of the estimator is. -/
def Obligations.FreshSketchEstimatesZero : Prop :=
  ∀ (s : State) (dst : ContextId) (p r : Nat), paramsOk p r = true →
    (s.sketch? dst = some ⟨p, r, .sparse [] []⟩ ∨
      s.sketch? dst = some ⟨p, r, .dense (List.replicate (wordCount p r) 0)⟩) →
      exec (.est dst) s = .next { s with response := some ⟨.ok, 0, []⟩ }

/-- R190 item 1: the estimate of a Dense sketch depends on `p` and on how many counters hold each value
alone, and the estimate of a Sparse sketch on `p` and the number of array entries alone. -/
def Obligations.EstimateReadsOnlyTheHistogram : Prop :=
  (∀ (p r r' : Nat) (w w' : List Word),
    (∀ v, ((List.range (2 ^ p)).filter fun i => regRead r w i == v).length =
      ((List.range (2 ^ p)).filter fun i => regRead r' w' i == v).length) →
    (⟨p, r, .dense w⟩ : Sketch).estimate = (⟨p, r', .dense w'⟩ : Sketch).estimate) ∧
  ∀ (p r r' : Nat) (tb sa tb' sa' : List Word), sa.length = sa'.length →
    (⟨p, r, .sparse tb sa⟩ : Sketch).estimate = (⟨p, r', .sparse tb' sa'⟩ : Sketch).estimate

/-- R182, R183: the estimate of a folded Sparse sketch is `round(m'·ln(m'/(m' - n)))` for `m' = 2^sp`
and `n = alen`, up to the rounding error `ε = lnError/2^128` of the implementation's arithmetic, of
which nothing is assumed (R190, log entry 3); the `2^(-64)` covers the width of the model's own
bounds. -/
def Obligations.SparseEstimateIsRoundedLinearCounting : Prop :=
  ∀ (s : State) (dst : ContextId) (a : Sketch) (tb sa : List Word), s.wf = true →
    s.sketch? dst = some a → a.fold.payload = .sparse tb sa →
      ∃ v : DWord,
        exec (.est dst) s = .next { s with
          contexts := s.contexts.set dst.toNat (some a.fold), response := some ⟨.ok, v, []⟩ } ∧
        let m' : ℝ := 2 ^ (a.p + 4)
        let x : ℝ := m' * Real.log (m' / (m' - sa.length))
        let slack : ℝ := (m' + x) * (Config.lnError / 2 ^ 128) + 1 / 2 ^ 64
        (sa.length = 0 → v = 0) ∧
        ⌊x + 1 / 2 - slack⌋ ≤ (v.toNat : ℤ) ∧ (v.toNat : ℤ) ≤ ⌊x + 1 / 2 + slack⌋

/-- R182, R183, R190 item 3: the reference value of the Sparse estimate is always among the results the
model allows, however small the rounding error `ε` is. -/
def Obligations.SparseReferenceValueIsAllowed : Prop :=
  ∀ ε p n : Nat, 4 ≤ p → p ≤ 18 → n < 2 ^ p →
    let m' : ℝ := 2 ^ (p + 4)
    let ref := ⌊m' * Real.log (m' / (m' - n)) + 1 / 2⌋
    ((sparseRange ε p n).lo : ℤ) ≤ ref ∧ ref ≤ ((sparseRange ε p n).hi : ℤ)

/-- R184 to R186, R189, R190: the estimate of a Dense sketch. With `zeros`, `sum`, `alpha` and `raw` as
the rules define them over the reals, it is the integer part of the small-range value, of `raw`, or
of the large-range value, whichever the tests on `raw` select, up to the relative rounding errors
`ρ = rawError/2^128` of `raw` and `ε = lnError/2^128` of the logarithmic values, of which nothing is
assumed (log entry 3); the `2^(-64)` covers the width of the model's own bounds. Where a computed
`raw` may reach `2^32` nothing is said of the large-range value, and where `raw ≥ 2^32` the estimate
is a free value (log entry 4). -/
def Obligations.DenseEstimateFollowsTheFormulas : Prop :=
  ∀ (s : State) (dst : ContextId) (p r : Nat) (words : List Word), s.wf = true →
    s.sketch? dst = some ⟨p, r, .dense words⟩ →
      let M : ℝ := 2 ^ p
      let zeros : ℕ := ((Finset.range (2 ^ p)).filter fun i => regRead r words i = 0).card
      let sum : ℝ := ∑ i ∈ Finset.range (2 ^ p), (1 / 2 : ℝ) ^ regRead r words i
      let alpha : ℝ :=
        if p = 4 then 0.673 else if p = 5 then 0.697 else if p = 6 then 0.709
        else 0.7213 / (1 + 1.079 / M)
      let raw : ℝ := alpha * M ^ 2 / sum
      let ρ : ℝ := Config.rawError p / 2 ^ 128
      let low : ℝ := max 0 (raw * (1 - ρ))
      let high : ℝ := raw * (1 + ρ)
      let small : ℝ := M * Real.log (M / zeros)
      let large (x : ℝ) : ℝ := -2 ^ 32 * Real.log (1 - x / 2 ^ 32)
      let slack (scale x : ℝ) : ℝ := (scale + x) * (Config.lnError / 2 ^ 128) + 1 / 2 ^ 64
      ∃ v : DWord, ∃ n : Nat,
        exec (.est dst) s = .next { s with response := some ⟨.ok, v, []⟩, draws := n } ∧
        (zeros = 2 ^ p → v = 0) ∧
        (raw < 2 ^ 32 → n = s.draws ∧
          ((zeros ≠ 0 ∧ low ≤ 2.5 * M ∧
              ⌊small - slack M small⌋ ≤ (v.toNat : ℤ) ∧
              (v.toNat : ℤ) ≤ ⌊small + slack M small⌋) ∨
            ((zeros = 0 ∨ 2.5 * M < high) ∧ low ≤ 2 ^ 32 / 30 ∧
              ⌊low⌋ ≤ (v.toNat : ℤ) ∧ (v.toNat : ℤ) ≤ ⌊high⌋) ∨
            ((zeros = 0 ∨ 2.5 * M < high) ∧ 2 ^ 32 / 30 < high ∧
              (high < 2 ^ 32 →
                ⌊large low - slack (2 ^ 32) (large low)⌋ ≤ (v.toNat : ℤ) ∧
                (v.toNat : ℤ) ≤ ⌊large high + slack (2 ^ 32) (large high)⌋)))) ∧
        (2 ^ 32 ≤ raw → v = Config.freeEstimate s.draws ∧ n = s.draws + 1)

/-- R184 to R186, R190 item 3: where `raw < 2^32` the reference value of the Dense estimate is always
among the results the model allows, however small the rounding errors `ρ` and `ε` are. -/
def Obligations.DenseReferenceValueIsAllowed : Prop :=
  ∀ (ρ ε p r : Nat) (words : List Word), paramsOk p r = true →
    let M : ℝ := 2 ^ p
    let zeros : ℕ := ((Finset.range (2 ^ p)).filter fun i => regRead r words i = 0).card
    let sum : ℝ := ∑ i ∈ Finset.range (2 ^ p), (1 / 2 : ℝ) ^ regRead r words i
    let alpha : ℝ :=
      if p = 4 then 0.673 else if p = 5 then 0.697 else if p = 6 then 0.709
      else 0.7213 / (1 + 1.079 / M)
    let raw : ℝ := alpha * M ^ 2 / sum
    let small : ℝ := M * Real.log (M / zeros)
    let large : ℝ := -2 ^ 32 * Real.log (1 - raw / 2 ^ 32)
    raw < 2 ^ 32 →
      ∃ range ∈ denseRanges ρ ε p (histogram (counters p r words)),
        (raw ≤ 2.5 * M → zeros ≠ 0 → (range.lo : ℤ) ≤ ⌊small⌋ ∧ ⌊small⌋ ≤ (range.hi : ℤ)) ∧
        (2.5 * M < raw ∨ zeros = 0 → raw ≤ 2 ^ 32 / 30 →
          (range.lo : ℤ) ≤ ⌊raw⌋ ∧ ⌊raw⌋ ≤ (range.hi : ℤ)) ∧
        (2 ^ 32 / 30 < raw → (range.lo : ℤ) ≤ ⌊large⌋ ∧ ⌊large⌋ ≤ (range.hi : ℤ))

/-! ## The codec -/

/-- R200 (with R201 to R204): `SER` completes. It folds its sketch and emits the mode byte, `p`, `r`
and the words of the mode it then has, most significant byte first; `RES` is the number of bytes.
Nothing else changes. -/
def Obligations.SerFoldsAndEmitsTheImage : Prop :=
  ∀ (s : State) (dst : ContextId) (a : Sketch), s.wf = true → s.sketch? dst = some a →
    ∃ (mode : Byte) (ws : List Word),
      let out := mode :: BitVec.ofNat 8 a.p :: BitVec.ofNat 8 a.r ::
        ws.flatMap fun w => [w.extractLsb' 24 8, w.extractLsb' 16 8, w.extractLsb' 8 8,
          w.extractLsb' 0 8]
      exec (.ser dst) s = .next { s with
        contexts := s.contexts.set dst.toNat (some a.fold)
        response := some ⟨.ok, BitVec.ofNat 64 (3 + 4 * ws.length), out⟩ } ∧
      out.length = 3 + 4 * ws.length ∧
      (mode = 1 ∧ a.fold.payload = .dense ws ∧ ws.length = wordCount a.p a.r ∨
        mode = 0 ∧ a.fold.payload = .sparse [] ws)

/-- R206: `DES` into an existing context ends with `FormatError` exactly in the six cases, and then
changes nothing but the response. -/
def Obligations.DesFormatErrorCases : Prop :=
  ∀ (s : State) (dst : ContextId) (image : List Byte), dst.toNat < s.contexts.length →
    let mb := image.getD 0 0
    let pb := (image.getD 1 0).toNat
    let rb := (image.getD 2 0).toNat
    exec (.des dst image) s = .next { s with response := some ⟨.formatError, 0, []⟩ } ↔
      image.length < 3 ∨ (mb ≠ 0 ∧ mb ≠ 1) ∨ (pb < 4 ∨ 18 < pb) ∨ rb ∉ [4, 5, 6] ∨
      (mb = 1 ∧ image.length ≠ 3 + 4 * wordCount pb rb) ∨
      (mb = 0 ∧ (image.length - 3) % 4 ≠ 0)

/-- R213: `DES.L` into an existing context ends with `FormatError` exactly in the four cases, and then
changes nothing but the response. -/
def Obligations.DesLFormatErrorCases : Prop :=
  ∀ (s : State) (dst : ContextId) (image : List Byte), dst.toNat < s.contexts.length →
    let pb := (image.getD (image.length - 2) 0).toNat
    let rb := (image.getD (image.length - 1) 0).toNat
    exec (.desL dst image) s = .next { s with response := some ⟨.formatError, 0, []⟩ } ↔
      image.length < 2 ∨ (pb < 4 ∨ 18 < pb) ∨ rb ∉ [4, 5, 6] ∨
      image.length ≠ 4 * wordCount pb rb + 2

/-- R205, R207 to R209, R211, R213: the tagged image of a well-formed sketch with an empty buffer, and
the legacy image of a Dense one, load it into any existing context, whatever that held. Nothing else
changes. -/
def Obligations.LoadsReplaceTheContext : Prop :=
  ∀ (s : State) (dst : ContextId) (a : Sketch), dst.toNat < s.contexts.length → a.wf = true →
    let after : State := { s with
      contexts := s.contexts.set dst.toNat (some a), response := some ⟨.ok, 0, []⟩ }
    let pr : List Byte := [BitVec.ofNat 8 a.p, BitVec.ofNat 8 a.r]
    (∀ sa, a.payload = .sparse [] sa →
      exec (.des dst ([0] ++ pr ++ wordsToBytes sa)) s = .next after) ∧
    (∀ words, a.payload = .dense words →
      exec (.des dst ([1] ++ pr ++ wordsToBytes words)) s = .next after ∧
      exec (.desL dst (wordsToBytes words ++ pr)) s = .next after)

/-- R207: an image whose header and length are right and whose content breaks an invariant is given no
meaning: the load is refused. -/
def Obligations.InvalidContentIsRefused : Prop :=
  ∀ (s : State) (dst : ContextId) (p r : Nat) (ws : List Word), dst.toNat < s.contexts.length →
    paramsOk p r = true →
    let pr : List Byte := [BitVec.ofNat 8 p, BitVec.ofNat 8 r]
    (sparseWf p r [] ws = false →
      exec (.des dst ([0] ++ pr ++ wordsToBytes ws)) s = .refused .undefinedImage) ∧
    (ws.length = wordCount p r → denseWf p r ws = false →
      exec (.des dst ([1] ++ pr ++ wordsToBytes ws)) s = .refused .undefinedImage ∧
      exec (.desL dst (wordsToBytes ws ++ pr)) s = .refused .undefinedImage)

/-- R210: `DES` of what `SER` emitted gives the context the sketch as it is after the `SER`, and an
`EST` of either then answers the same where a rule gives the estimate. -/
def Obligations.SerThenDesCopiesTheSketch : Prop :=
  ∀ (s t : State) (src dst : ContextId) (q : Response), s.wf = true →
    dst.toNat < s.contexts.length → exec (.ser src) s = .next t → t.response = some q →
    q.status = .ok →
      ∃ u, exec (.des dst q.out) t = .next u ∧ u.sketch? dst = t.sketch? src ∧
        u.sketch? src = t.sketch? src ∧ u.response = some ⟨.ok, 0, []⟩ ∧
        ∀ v w, exec (.est src) u = .next v → exec (.est dst) u = .next w →
          v.draws = u.draws → v.response = w.response

/-- R210: for every image that `DES` loads, a `SER` afterwards emits that image. -/
def Obligations.DesThenSerEmitsTheImage : Prop :=
  ∀ (s u : State) (dst : ContextId) (image : List Byte), s.wf = true →
    exec (.des dst image) s = .next u → u.response = some ⟨.ok, 0, []⟩ →
      ∃ t, exec (.ser dst) u = .next t ∧
        t.response = some ⟨.ok, BitVec.ofNat 64 image.length, image⟩ ∧ t.contexts = u.contexts

/-- R212: `SER.L` of a Dense sketch completes: it emits the words and then `p` and `r`, answers their
number of bytes and changes nothing but the response; on a Sparse sketch it ends with `BadOperand`
and folds nothing. -/
def Obligations.SerLEmitsTheLegacyImage : Prop :=
  ∀ (s : State) (dst : ContextId) (p r : Nat),
    (∀ words, s.sketch? dst = some ⟨p, r, .dense words⟩ →
      let out := (words.flatMap fun w => [w.extractLsb' 24 8, w.extractLsb' 16 8,
        w.extractLsb' 8 8, w.extractLsb' 0 8]) ++ [BitVec.ofNat 8 p, BitVec.ofNat 8 r]
      exec (.serL dst) s = .next { s with
        response := some ⟨.ok, BitVec.ofNat 64 (4 * words.length + 2), out⟩ } ∧
      out.length = 4 * words.length + 2) ∧
    (∀ tb sa, s.sketch? dst = some ⟨p, r, .sparse tb sa⟩ →
      exec (.serL dst) s = .next { s with response := some ⟨.badOperand, 0, []⟩ }) ∧
    (s.sketch? dst = none →
      exec (.serL dst) s = .next { s with response := some ⟨.badOperand, 0, []⟩ })

/-- R214: what `DES.L` loads is always Dense, and `DES.L` of what `SER.L` emitted reproduces `p`, `r`
and every word. -/
def Obligations.LegacyRoundTrip : Prop :=
  (∀ (s u : State) (dst : ContextId) (image : List Byte), exec (.desL dst image) s = .next u →
    u.response = some ⟨.ok, 0, []⟩ → ∃ b, u.sketch? dst = some b ∧ b.mode = .dense) ∧
  ∀ (s t : State) (src dst : ContextId) (q : Response), s.wf = true →
    dst.toNat < s.contexts.length → exec (.serL src) s = .next t → t.response = some q →
    q.status = .ok →
      ∃ u, exec (.desL dst q.out) t = .next u ∧ u.sketch? dst = s.sketch? src

/-! ## Lifecycle and observation -/

/-- R233 (with R230, R231): `NEW.S` and `NEW.D` into an existing context complete for the 45 legal pairs of
parameters, replacing whatever the context held; for every other pair they end with
`InvalidParameter`. Nothing else changes. -/
def Obligations.NewCreatesOrRefusesParameters : Prop :=
  ∀ (s : State) (dst : ContextId) (pb rb : Byte), dst.toNat < s.contexts.length →
    let legal : Prop := (4 ≤ pb.toNat ∧ pb.toNat ≤ 18) ∧ rb.toNat ∈ [4, 5, 6]
    let after (x : Payload) : State := { s with
      contexts := s.contexts.set dst.toNat (some ⟨pb.toNat, rb.toNat, x⟩)
      response := some ⟨.ok, 0, []⟩ }
    let refusal : State := { s with response := some ⟨.invalidParameter, 0, []⟩ }
    (legal → exec (.newS dst pb rb) s = .next (after (.sparse [] [])) ∧
      ∃ ws, exec (.newD dst pb rb) s = .next (after (.dense ws)) ∧
        ws.length = wordCount pb.toNat rb.toNat ∧ ∀ w ∈ ws, w = 0) ∧
    (¬ legal → exec (.newS dst pb rb) s = .next refusal ∧
      exec (.newD dst pb rb) s = .next refusal)

/-- R232: `FREE` of an existing context, empty or not, completes and leaves it empty; nothing else
changes. Without such a context it ends with `BadOperand`. -/
def Obligations.FreeEmptiesTheContext : Prop :=
  ∀ (s : State) (dst : ContextId),
    (dst.toNat < s.contexts.length →
      exec (.free dst) s = .next { s with
        contexts := s.contexts.set dst.toNat none, response := some ⟨.ok, 0, []⟩ }) ∧
    (s.contexts.length ≤ dst.toNat →
      exec (.free dst) s = .next { s with response := some ⟨.badOperand, 0, []⟩ })

/-- R234: `STAT` of an existing context completes and changes nothing but the response. An empty
context reports 0; a sketch reports `p`, `r`, `mode`, `valid`, `tcnt` and `alen` in their fields, and
every other bit is 0. -/
def Obligations.StatReportsTheAttributes : Prop :=
  ∀ (s : State) (dst : ContextId), s.wf = true →
    (s.contexts.length ≤ dst.toNat →
      exec (.stat dst) s = .next { s with response := some ⟨.badOperand, 0, []⟩ }) ∧
    (s.context? dst = some none →
      exec (.stat dst) s = .next { s with response := some ⟨.ok, 0, []⟩ }) ∧
    ∀ a, s.sketch? dst = some a →
      ∃ v : DWord,
        exec (.stat dst) s = .next { s with response := some ⟨.ok, v, []⟩ } ∧
        v.toNat = a.p + a.r * 2 ^ 8 + (if a.mode = .dense then 1 else 0) * 2 ^ 16 + 2 ^ 17 +
          a.tcnt * 2 ^ 20 + a.alen * 2 ^ 32 ∧
        (a.mode = .dense → a.tcnt = 0 ∧ a.alen = 0)
end

