-- ==== Sys2Proof/Laws/Logarithm.lean ====
section
/-! SUPPORT. The estimator's integer bounds of a natural logarithm enclose the real one: with
`2^128` as the scale, `lnLo a b ≤ ln(a / b) ≤ lnHi a b` for `a ≥ b ≥ 1`. -/

namespace Sys2Proof.Machine

open Real

/-! ## Rounded quotients -/

theorem cast_div_le (a b : Nat) : ((a / b : Nat) : ℝ) ≤ (a : ℝ) / b := Nat.cast_div_le

theorem le_cast_ceilDiv (a b : Nat) (hb : 0 < b) : (a : ℝ) / b ≤ (ceilDiv a b : Nat) := by
  rw [div_le_iff₀ (by exact_mod_cast hb)]
  have : a ≤ ceilDiv a b * b := by
    have h1 := Nat.div_add_mod (a + (b - 1)) b
    have h2 := Nat.mod_lt (a + (b - 1)) hb
    rw [ceilDiv, Nat.mul_comm]
    omega
  exact_mod_cast this

/-! ## The series `-ln(1 - t) = Σ t^k / k` -/

section series

variable {num den : Nat} {S : ℝ}

/-- The terms from index `k` on. -/
noncomputable def lnTail (t : ℝ) (k : Nat) : ℝ := ∑' j : ℕ, t ^ (k + j) / ((k + j : ℕ) : ℝ)

theorem summable_lnTail {t : ℝ} (h0 : 0 ≤ t) (h1 : t < 1) (k : Nat) :
    Summable fun j : ℕ => t ^ (k + j) / ((k + j : ℕ) : ℝ) := by
  refine Summable.of_nonneg_of_le (fun j => by positivity) (fun j => ?_)
    ((summable_geometric_of_lt_one h0 h1).mul_left (t ^ k))
  rw [pow_add]
  rcases Nat.eq_zero_or_pos (k + j) with h | h
  · rw [h]; simp only [Nat.cast_zero, div_zero]; positivity
  · exact div_le_self (by positivity) (by exact_mod_cast h)

theorem lnTail_succ {t : ℝ} (h0 : 0 ≤ t) (h1 : t < 1) (k : Nat) :
    lnTail t k = t ^ k / k + lnTail t (k + 1) := by
  rw [lnTail, (summable_lnTail h0 h1 k).tsum_eq_zero_add, lnTail]
  congr 1
  exact tsum_congr fun j => by rw [show k + (j + 1) = k + 1 + j by omega]

theorem lnTail_nonneg {t : ℝ} (h0 : 0 ≤ t) (k : Nat) : 0 ≤ lnTail t k :=
  tsum_nonneg fun j => by positivity

theorem lnTail_le {t : ℝ} (h0 : 0 ≤ t) (h1 : t < 1) (k : Nat) :
    lnTail t k ≤ t ^ k / (1 - t) := by
  rw [div_eq_mul_inv, ← tsum_geometric_of_lt_one h0 h1, ← tsum_mul_left]
  refine Summable.tsum_le_tsum (fun j => ?_) (summable_lnTail h0 h1 k)
    ((summable_geometric_of_lt_one h0 h1).mul_left (t ^ k))
  rw [pow_add]
  rcases Nat.eq_zero_or_pos (k + j) with h | h
  · rw [h]; simp only [Nat.cast_zero, div_zero]; positivity
  · exact div_le_self (by positivity) (by exact_mod_cast h)

theorem lnTail_one {t : ℝ} (h0 : 0 ≤ t) (h1 : t < 1) : lnTail t 1 = -log (1 - t) := by
  have h := (hasSum_pow_div_log_of_abs_lt_one (by rwa [abs_of_nonneg h0])).tsum_eq
  rw [← h, lnTail]
  exact tsum_congr fun j => by rw [Nat.add_comm 1 j]; push_cast; rfl

/-- The summed lower bounds are below the tail of the series. -/
theorem lnSeriesLo_le (hd : num < den) (hS : 0 ≤ S) (n : Nat) :
    ∀ k pow : Nat, (pow : ℝ) ≤ S * ((num : ℝ) / den) ^ k →
      (lnSeriesLo num den n k pow : ℝ) ≤ S * lnTail ((num : ℝ) / den) k := by
  have hden : (0 : ℝ) < den := by exact_mod_cast (Nat.zero_le num).trans_lt hd
  have h0 : (0 : ℝ) ≤ (num : ℝ) / den := by positivity
  have h1 : (num : ℝ) / den < 1 := by rw [div_lt_one hden]; exact_mod_cast hd
  induction n with
  | zero =>
    intro k pow _
    simpa [lnSeriesLo] using mul_nonneg hS (lnTail_nonneg h0 k)
  | succ n ih =>
    intro k pow hp
    rw [lnSeriesLo, lnTail_succ h0 h1, mul_add]
    push_cast
    refine add_le_add ?_ (ih _ _ ?_)
    · refine (cast_div_le _ _).trans ?_
      rw [← mul_div_assoc]
      exact div_le_div_of_nonneg_right hp (by positivity)
    · refine (cast_div_le _ _).trans ?_
      push_cast
      rw [mul_div_assoc, pow_succ, ← mul_assoc]
      exact mul_le_mul_of_nonneg_right hp h0

/-- The summed upper bounds are above the tail of the series. -/
theorem le_lnSeriesHi (hd : num < den) (hS : 0 ≤ S) (n : Nat) :
    ∀ k pow : Nat, 1 ≤ k → S * ((num : ℝ) / den) ^ k ≤ pow →
      S * lnTail ((num : ℝ) / den) k ≤ (lnSeriesHi num den n k pow : ℝ) := by
  have hdn : 0 < den := (Nat.zero_le num).trans_lt hd
  have hden : (0 : ℝ) < den := by exact_mod_cast hdn
  have h0 : (0 : ℝ) ≤ (num : ℝ) / den := by positivity
  have h1 : (num : ℝ) / den < 1 := by rw [div_lt_one hden]; exact_mod_cast hd
  induction n with
  | zero =>
    intro k pow _ hp
    refine le_trans ?_ (le_cast_ceilDiv _ _ (by omega))
    rw [Nat.cast_sub hd.le]
    push_cast
    have hsub : (0 : ℝ) < (den : ℝ) - num := by
      have : (num : ℝ) < den := by exact_mod_cast hd
      linarith
    calc S * lnTail ((num : ℝ) / den) k
        ≤ S * (((num : ℝ) / den) ^ k / (1 - (num : ℝ) / den)) :=
          mul_le_mul_of_nonneg_left (lnTail_le h0 h1 k) hS
      _ = S * ((num : ℝ) / den) ^ k * (den / ((den : ℝ) - num)) := by
          rw [one_sub_div hden.ne', mul_div_assoc', div_div_eq_mul_div, mul_div_assoc]
      _ ≤ (pow : ℝ) * (den / ((den : ℝ) - num)) :=
          mul_le_mul_of_nonneg_right hp (by positivity)
      _ = (pow : ℝ) * den / ((den : ℝ) - num) := by rw [mul_div_assoc]
  | succ n ih =>
    intro k pow hk hp
    rw [lnSeriesHi, lnTail_succ h0 h1, mul_add]
    push_cast
    refine add_le_add ?_ (ih _ _ (by omega) ?_)
    · refine le_trans ?_ (le_cast_ceilDiv _ _ hk)
      rw [← mul_div_assoc]
      exact div_le_div_of_nonneg_right hp (by positivity)
    · refine le_trans ?_ (le_cast_ceilDiv _ _ hdn)
      push_cast
      rw [mul_div_assoc (pow : ℝ), pow_succ, ← mul_assoc]
      exact mul_le_mul_of_nonneg_right hp h0

end series

/-! ## `-ln(1 - num / den)` -/

theorem negLogLo_le {num den : Nat} (hd : num < den) :
    (negLogLo num den : ℝ) ≤ 2 ^ lnFrac * -log (1 - (num : ℝ) / den) := by
  have hden : (0 : ℝ) < den := by exact_mod_cast (Nat.zero_le num).trans_lt hd
  have h1 : (num : ℝ) / den < 1 := by rw [div_lt_one hden]; exact_mod_cast hd
  rw [← lnTail_one (by positivity) h1, negLogLo]
  refine lnSeriesLo_le hd (by positivity) _ _ _ ?_
  refine (cast_div_le _ _).trans ?_
  push_cast
  rw [pow_one, mul_div_assoc]

theorem le_negLogHi {num den : Nat} (hd : num < den) :
    2 ^ lnFrac * -log (1 - (num : ℝ) / den) ≤ (negLogHi num den : ℝ) := by
  have hdn : 0 < den := (Nat.zero_le num).trans_lt hd
  have hden : (0 : ℝ) < den := by exact_mod_cast hdn
  have h1 : (num : ℝ) / den < 1 := by rw [div_lt_one hden]; exact_mod_cast hd
  rw [← lnTail_one (by positivity) h1, negLogHi]
  refine le_lnSeriesHi hd (by positivity) _ _ _ le_rfl ?_
  refine le_trans ?_ (le_cast_ceilDiv _ _ hdn)
  push_cast
  rw [pow_one, mul_div_assoc]

/-! ## `ln(a / b)` -/

theorem lnExponent_spec {a b : Nat} (hb : 0 < b) (hab : b ≤ a) :
    b * 2 ^ lnExponent a b ≤ a ∧ a < b * 2 ^ (lnExponent a b + 1) := by
  have hq : a / b ≠ 0 := by
    have : 1 ≤ a / b := (Nat.one_le_div_iff hb).mpr hab
    omega
  have h1 := Nat.log2_self_le hq
  have h2 := (Nat.log2_lt hq).mp (Nat.lt_succ_self (Nat.log2 (a / b)))
  constructor
  · calc b * 2 ^ lnExponent a b ≤ b * (a / b) := Nat.mul_le_mul_left _ h1
      _ ≤ a := Nat.mul_div_le a b
  · rw [Nat.mul_comm]
    exact (Nat.div_lt_iff_lt_mul hb).mp h2

/-- The logarithm as a multiple of `ln 2` and a series in `t < 1/2`. -/
theorem log_ratio_eq {a b : Nat} (hb : 0 < b) (hab : b ≤ a) :
    log ((a : ℝ) / b) =
      lnExponent a b * -log (1 - ((1 : ℕ) : ℝ) / (2 : ℕ)) +
        -log (1 - ((a - b * 2 ^ lnExponent a b : ℕ) : ℝ) / a) := by
  obtain ⟨h1, _⟩ := lnExponent_spec hb hab
  have hbr : (0 : ℝ) < b := by exact_mod_cast hb
  have har : (0 : ℝ) < a := by exact_mod_cast hb.trans_le hab
  have e1 : 1 - ((1 : ℕ) : ℝ) / (2 : ℕ) = 2⁻¹ := by norm_num
  have e2 : 1 - ((a - b * 2 ^ lnExponent a b : ℕ) : ℝ) / a = b * 2 ^ lnExponent a b / a := by
    rw [Nat.cast_sub h1]
    push_cast
    field_simp
    ring
  rw [e1, e2, log_inv, log_div har.ne' hbr.ne', log_div (by positivity) har.ne',
    log_mul hbr.ne' (by positivity), log_pow]
  ring

theorem lnLo_le {a b : Nat} (hb : 0 < b) (hab : b ≤ a) :
    (lnLo a b : ℝ) ≤ 2 ^ lnFrac * log ((a : ℝ) / b) := by
  have hlt : a - b * 2 ^ lnExponent a b < a := by
    have : 0 < b * 2 ^ lnExponent a b := Nat.mul_pos hb (Nat.two_pow_pos _)
    omega
  have h1 := negLogLo_le (num := 1) (den := 2) (by decide)
  have h2 := negLogLo_le hlt
  rw [lnLo, log_ratio_eq hb hab, mul_add, mul_left_comm]
  generalize negLogLo 1 2 = ln2 at h1 ⊢
  rw [Nat.cast_add, Nat.cast_mul]
  exact add_le_add (mul_le_mul_of_nonneg_left h1 (Nat.cast_nonneg _)) h2

theorem le_lnHi {a b : Nat} (hb : 0 < b) (hab : b ≤ a) :
    2 ^ lnFrac * log ((a : ℝ) / b) ≤ (lnHi a b : ℝ) := by
  have hlt : a - b * 2 ^ lnExponent a b < a := by
    have : 0 < b * 2 ^ lnExponent a b := Nat.mul_pos hb (Nat.two_pow_pos _)
    omega
  have h1 := le_negLogHi (num := 1) (den := 2) (by decide)
  have h2 := le_negLogHi hlt
  rw [lnHi, log_ratio_eq hb hab, mul_add, mul_left_comm]
  generalize negLogHi 1 2 = ln2 at h1 ⊢
  rw [Nat.cast_add, Nat.cast_mul]
  exact add_le_add (mul_le_mul_of_nonneg_left h1 (Nat.cast_nonneg _)) h2

end Sys2Proof.Machine
end

