-- ==== Sys2Proof/Laws/Estimator.lean ====
section
/-! SUPPORT. What the estimator's choice can answer: an integer of one of the ranges it is given, and
any of them; the ranges are not empty and grow with the rounding error. -/

namespace Sys2Proof.Machine

/-! ## The choice -/

theorem EstRange.contains_iff {range : EstRange} {v : Nat} :
    range.contains v = true ↔ range.lo ≤ v ∧ v ≤ range.hi := by
  simp [EstRange.contains]

/-- A free value that lies in a range is the answer. -/
theorem pickEstimate_of_mem {ranges : List EstRange} {free : DWord} {range : EstRange}
    (hm : range ∈ ranges) (hc : range.contains free.toNat = true) :
    pickEstimate ranges free = free :=
  if_pos (List.any_eq_true.mpr ⟨range, hm, hc⟩)

/-- The answer lies in one of the ranges, whatever the free value is. -/
theorem pickEstimate_spec {ranges : List EstRange} (free : DWord) (hne : ranges ≠ [])
    (hr : ∀ range ∈ ranges, range.lo ≤ range.hi ∧ range.lo < 2 ^ 64) :
    ∃ range ∈ ranges, range.contains (pickEstimate ranges free).toNat = true := by
  by_cases h : ranges.any (·.contains free.toNat) = true
  · obtain ⟨range, hm, hc⟩ := List.any_eq_true.mp h
    exact ⟨range, hm, by rwa [pickEstimate_of_mem hm hc]⟩
  · obtain ⟨x, xs, rfl⟩ := List.exists_cons_of_ne_nil hne
    obtain ⟨h1, h2⟩ := hr x List.mem_cons_self
    refine ⟨x, List.mem_cons_self, ?_⟩
    rw [pickEstimate, if_neg h, List.headD_cons, BitVec.toNat_ofNat, Nat.mod_eq_of_lt h2]
    exact EstRange.contains_iff.mpr ⟨le_rfl, h1⟩

/-- One range that holds one integer leaves no choice. -/
theorem pickEstimate_singleton {range : EstRange} {v : Nat} (free : DWord) (h1 : v ≤ range.lo)
    (h2 : range.lo ≤ range.hi) (h3 : range.hi ≤ v) (hv : v < 2 ^ 64) :
    pickEstimate [range] free = BitVec.ofNat 64 v := by
  obtain ⟨x, hx, hc⟩ := pickEstimate_spec (ranges := [range]) free (by simp)
    (by simp only [List.mem_singleton, forall_eq]; omega)
  rw [List.mem_singleton] at hx
  subst hx
  have := EstRange.contains_iff.mp hc
  apply BitVec.eq_of_toNat_eq
  rw [BitVec.toNat_ofNat, Nat.mod_eq_of_lt hv]
  omega

/-! ## The ranges -/

theorem lnLo_le_lnHi {a b : Nat} (hb : 0 < b) (hab : b ≤ a) : lnLo a b ≤ lnHi a b := by
  exact_mod_cast (lnLo_le hb hab).trans (le_lnHi hb hab)

theorem lnSlack_mono {ε ε' : Nat} (h : ε ≤ ε') (scale ln : Nat) :
    lnSlack ε scale ln ≤ lnSlack ε' scale ln :=
  Nat.add_le_add_right (Nat.div_le_div_right (Nat.mul_le_mul_left _ h)) 1

theorem lnFormLo_le_lnFormHi {ε scale a b offset : Nat} (hb : 0 < b) (hab : b ≤ a) :
    lnFormLo ε scale a b offset ≤ lnFormHi ε scale a b offset := by
  refine Nat.div_le_div_right ?_
  have := Nat.mul_le_mul_left scale (lnLo_le_lnHi hb hab)
  omega

theorem lnFormLo_anti {ε ε' : Nat} (h : ε ≤ ε') (scale a b offset : Nat) :
    lnFormLo ε' scale a b offset ≤ lnFormLo ε scale a b offset :=
  Nat.div_le_div_right (Nat.sub_le_sub_left (lnSlack_mono h _ _) _)

theorem lnFormHi_mono {ε ε' : Nat} (h : ε ≤ ε') (scale a b offset : Nat) :
    lnFormHi ε scale a b offset ≤ lnFormHi ε' scale a b offset :=
  Nat.div_le_div_right (Nat.add_le_add_left (lnSlack_mono h _ _) _)

/-- Some branch is always open. -/
theorem openBranches_ne_nil {lo hi : Nat} (h : lo ≤ hi) (ε p zeros den : Nat) :
    openBranches ε p zeros lo hi den ≠ [] := by
  rw [openBranches]
  by_cases h0 : 1 ≤ zeros ∧ 2 * lo ≤ 5 * regCount p * den
  · simp [h0.1, h0.2]
  · have h1 : zeros = 0 ∨ 5 * regCount p * den < 2 * hi := by omega
    simp only [h1, ne_eq, List.append_eq_nil_iff, not_and, decide_eq_true_eq,
      Bool.true_and, ite_eq_right_iff, reduceCtorEq, imp_false, not_le, not_lt, Bool.and_eq_true,
      decide_true, ← Bool.decide_or]
    omega

/-- The Sparse estimate where every rounding error up to `ε` leaves the same integer. -/
theorem sparseEstimate_eq {p n v ε : Nat} (hn : n ≠ 0) (hlt : n < 2 ^ fineWidth p)
    (hε : Config.lnError ≤ ε) (h1 : v ≤ (sparseRange ε p n).lo) (h2 : (sparseRange ε p n).hi ≤ v)
    (hv : v < 2 ^ 64) : sparseEstimate p n = BitVec.ofNat 64 v := by
  rw [sparseEstimate, if_neg hn]
  refine pickEstimate_singleton _ (h1.trans (lnFormLo_anti hε _ _ _ _))
    (lnFormLo_le_lnFormHi (by omega) (Nat.sub_le _ _)) ((lnFormHi_mono hε _ _ _ _).trans h2) hv

/-- The Dense estimate where every rounding error up to `ρ` and `ε` leaves the small-range branch and
the same integer. -/
theorem denseEstimate_eq_of_small {p v ρ ε zeros : Nat} {hist : List Nat}
    (hz : hist.headD 0 = zeros) (h0 : 1 ≤ zeros) (hlt : zeros < regCount p)
    (hraw : rawOverflows p hist = false) (hρ : Config.rawError p ≤ ρ)
    (hsmall : 2 * (rawNum p * (2 ^ errorFrac + ρ)) ≤
      5 * regCount p * (rawDen p hist * 2 ^ errorFrac))
    (hε : Config.lnError ≤ ε) (h1 : v ≤ (smallRange ε p zeros).lo)
    (h2 : (smallRange ε p zeros).hi ≤ v) (hv : v < 2 ^ 64) :
    denseEstimate p hist = some (BitVec.ofNat 64 v) := by
  have hhi : rawNum p * (2 ^ errorFrac + Config.rawError p) ≤ rawNum p * (2 ^ errorFrac + ρ) :=
    Nat.mul_le_mul_left _ (by omega)
  have hlo : rawNum p * (2 ^ errorFrac - Config.rawError p) ≤ rawNum p * (2 ^ errorFrac + ρ) :=
    Nat.mul_le_mul_left _ ((Nat.sub_le _ _).trans (Nat.le_add_right _ _))
  rw [denseEstimate, hz, if_neg (by omega), hraw, if_neg (by decide), denseRanges, hz, openBranches]
  generalize rawNum p * (2 ^ errorFrac + Config.rawError p) = hi at *
  generalize rawNum p * (2 ^ errorFrac - Config.rawError p) = lo at *
  have e1 : 2 * lo ≤ 5 * regCount p * (rawDen p hist * 2 ^ errorFrac) := by omega
  have e2 : ¬ 5 * regCount p * (rawDen p hist * 2 ^ errorFrac) < 2 * hi := by omega
  have e3 : ¬ zeros = 0 := by omega
  simp only [h0, e1, e2, e3, decide_true, decide_false, Bool.and_self, Bool.or_self,
    Bool.false_and, if_true, if_false, Bool.false_eq_true, List.append_nil]
  exact congrArg some (pickEstimate_singleton (range := smallRange Config.lnError p zeros) _
    (h1.trans (lnFormLo_anti hε _ _ _ _)) (lnFormLo_le_lnFormHi (by omega) (by omega))
    ((lnFormHi_mono hε _ _ _ _).trans h2) hv)

end Sys2Proof.Machine
end

