-- ==== Sys2Proof/Laws/LogarithmGap.lean ====
section
/-! SUPPORT. The estimator's two bounds of a logarithm lie close together: for `a ≥ b ≥ 1` they differ
by at most `518·(e + 1)` units of `2^(-128)`, `2^e` being the power of two at or below `a / b`. -/

namespace Sys2Proof.Machine

theorem ceilDiv_le (a b : Nat) : ceilDiv a b ≤ a / b + 1 := by
  rcases Nat.eq_zero_or_pos b with rfl | hb
  · simp [ceilDiv]
  · rw [ceilDiv]
    have h1 := Nat.div_add_mod a b
    have h2 := Nat.mod_lt a hb
    apply Nat.lt_succ_iff.mp
    rw [Nat.div_lt_iff_lt_mul hb, Nat.succ_eq_add_one]
    have e : (a / b + 1 + 1) * b = b * (a / b) + b + b := by ring
    omega

theorem add_div_le (x y d : Nat) : (x + y) / d ≤ x / d + y / d + 1 := by
  rcases Nat.eq_zero_or_pos d with rfl | hd
  · simp
  · have h1 := Nat.div_add_mod x d
    have h2 := Nat.mod_lt x hd
    have h3 := Nat.div_add_mod y d
    have h4 := Nat.mod_lt y hd
    apply Nat.lt_succ_iff.mp
    rw [Nat.div_lt_iff_lt_mul hd, Nat.succ_eq_add_one]
    have e : (x / d + y / d + 1 + 1) * d = d * (x / d) + d * (y / d) + d + d := by ring
    omega

/-- The gap between the two powers grows by at most 2 a term. -/
theorem power_gap {num den p q g : Nat} (hd : num ≤ den) (hq : q ≤ p + g) :
    ceilDiv (q * num) den ≤ p * num / den + (g + 2) := by
  have h1 := ceilDiv_le (q * num) den
  have h2 : q * num / den ≤ (p * num + g * num) / den :=
    Nat.div_le_div_right (by rw [← Nat.add_mul]; exact Nat.mul_le_mul_right _ hq)
  have h3 := add_div_le (p * num) (g * num) den
  have h4 : g * num / den ≤ g := Nat.div_le_of_le_mul (by
    rw [Nat.mul_comm den]; exact Nat.mul_le_mul_left _ hd)
  omega

/-- The gap between the two terms `k` is at most 4 while the powers differ by at most `2k`. -/
theorem term_gap {p q k : Nat} (hk : 1 ≤ k) (hq : q ≤ p + 2 * k) : ceilDiv q k ≤ p / k + 4 := by
  have h1 := ceilDiv_le q k
  have h2 : q / k ≤ (p + 2 * k) / k := Nat.div_le_div_right hq
  rw [Nat.add_mul_div_right _ _ hk] at h2
  omega

/-- An upper power of a ratio of at most one half is below half of the one before it, rounded up. -/
theorem power_halves {num den q : Nat} (hd : 0 < den) (h : 2 * num ≤ den) :
    ceilDiv (q * num) den ≤ ceilDiv q 2 := by
  apply Nat.lt_succ_iff.mp
  rw [ceilDiv, Nat.div_lt_iff_lt_mul hd]
  have h1 : q ≤ 2 * ceilDiv q 2 := by rw [ceilDiv]; omega
  calc q * num + (den - 1) < q * num + den := by omega
    _ ≤ ceilDiv q 2 * (2 * num) + den := by
        have := Nat.mul_le_mul_right num h1
        have e : 2 * ceilDiv q 2 * num = ceilDiv q 2 * (2 * num) := by ring
        omega
    _ ≤ ceilDiv q 2 * den + den := by
        have := Nat.mul_le_mul_left (ceilDiv q 2) h
        omega
    _ = (ceilDiv q 2).succ * den := by rw [Nat.succ_eq_add_one]; ring

/-- The two sums differ by at most 4 a term and what stands for the terms left out. -/
theorem series_gap {num den : Nat} (hd : 0 < den) (h : 2 * num ≤ den) (n : Nat) :
    ∀ k p q : Nat, 1 ≤ k → q ≤ p + 2 * k → q ≤ 2 ^ n + 2 →
      lnSeriesHi num den n k q ≤ lnSeriesLo num den n k p + (4 * n + 6) := by
  induction n with
  | zero =>
    intro k p q _ _ hq
    rw [lnSeriesHi, lnSeriesLo]
    have h1 : q * den ≤ 2 * q * (den - num) := by
      have : den ≤ 2 * (den - num) := by omega
      calc q * den ≤ q * (2 * (den - num)) := Nat.mul_le_mul_left _ this
        _ = 2 * q * (den - num) := by ring
    have h2 : ceilDiv (q * den) (den - num) ≤ 2 * q := by
      apply Nat.lt_succ_iff.mp
      rw [ceilDiv, Nat.div_lt_iff_lt_mul (by omega), Nat.succ_eq_add_one, Nat.add_mul]
      omega
    omega
  | succ n ih =>
    intro k p q hk hpq hq
    rw [lnSeriesHi, lnSeriesLo]
    have h1 := term_gap hk hpq
    have h2 := power_gap (num := num) (den := den) (by omega) hpq
    have h3 := power_halves (q := q) hd h
    have h4 : ceilDiv q 2 ≤ 2 ^ n + 2 := by
      rw [pow_succ] at hq
      rw [ceilDiv]; omega
    have := ih (k + 1) (p * num / den) (ceilDiv (q * num) den) (by omega) (by omega) (by omega)
    omega

theorem negLog_gap {num den : Nat} (hd : 0 < den) (h : 2 * num ≤ den) :
    negLogHi num den ≤ negLogLo num den + 518 := by
  rw [negLogHi, negLogLo]
  refine series_gap hd h lnTerms 1 _ _ le_rfl ?_ ?_
  · have := ceilDiv_le (2 ^ lnFrac * num) den
    omega
  · have h1 := power_halves (q := 2 ^ lnFrac) hd h
    have h2 : ceilDiv (2 ^ lnFrac) 2 ≤ 2 ^ lnTerms + 2 := by decide
    omega

theorem ln_gap {a b : Nat} (hb : 0 < b) (hab : b ≤ a) :
    lnHi a b ≤ lnLo a b + 518 * (lnExponent a b + 1) := by
  have ha : 0 < a := by omega
  have hq : a / b ≠ 0 := by
    have := (Nat.one_le_div_iff hb).mpr hab
    omega
  have hlt : a < b * 2 ^ (lnExponent a b + 1) := by
    rw [Nat.mul_comm]
    exact (Nat.div_lt_iff_lt_mul hb).mp
      ((Nat.log2_lt hq).mp (Nat.lt_succ_self (Nat.log2 (a / b))))
  have h1 := negLog_gap (num := 1) (den := 2) (by decide) (by decide)
  have h2 : negLogHi (a - b * 2 ^ lnExponent a b) a ≤
      negLogLo (a - b * 2 ^ lnExponent a b) a + 518 := by
    apply negLog_gap ha
    have e : b * 2 ^ (lnExponent a b + 1) = 2 * (b * 2 ^ lnExponent a b) := by rw [pow_succ]; ring
    omega
  rw [lnHi, lnLo]
  generalize negLogHi 1 2 = hi at h1 ⊢
  generalize negLogLo 1 2 = lo at h1 ⊢
  have h3 := Nat.mul_le_mul_left (lnExponent a b) h1
  rw [Nat.mul_add] at h3
  rw [Nat.mul_add, Nat.mul_comm 518 (lnExponent a b)]
  omega

end Sys2Proof.Machine
end

