-- ==== Sys2Proof/Laws/RegisterStore.lean ====
section
/-! SUPPORT. What reading and writing a counter does (spec/40_register_store.md R111 to R113), and
that writes keep a Dense payload well formed. -/

namespace Sys2Proof.Machine

/-! ## Legal shapes -/

theorem paramsOk_iff {p r : Nat} :
    paramsOk p r = true ↔ (4 ≤ p ∧ p ≤ 18) ∧ (r = 4 ∨ r = 5 ∨ r = 6) := by
  simp [paramsOk, or_assoc]

/-- The register width of a legal shape. -/
theorem width_of_paramsOk {p r : Nat} (h : paramsOk p r = true) : r = 4 ∨ r = 5 ∨ r = 6 :=
  (paramsOk_iff.mp h).2

theorem regPerWord_pos {r : Nat} (hr : r = 4 ∨ r = 5 ∨ r = 6) : 0 < regPerWord r := by
  rcases hr with rfl | rfl | rfl <;> decide

/-- A lane lies inside the word (spec/20_memory.md R53). -/
theorem lane_fits {r j : Nat} (hr : r = 4 ∨ r = 5 ∨ r = 6) (hj : j < regPerWord r) :
    r * (j + 1) ≤ 32 := by
  rcases hr with rfl | rfl | rfl <;> simp only [regPerWord] at hj <;> omega

/-- Every counter has a lane in one of the `wordCount` words. -/
theorem counter_in_words {p r i : Nat} (hr : r = 4 ∨ r = 5 ∨ r = 6) (hi : i < regCount p) :
    i / regPerWord r < wordCount p r := by
  have hpos := regPerWord_pos hr
  rw [wordCount, Nat.lt_div_iff_mul_lt hpos]
  have := Nat.div_mul_le_self i (regPerWord r)
  omega

/-! ## One lane -/

/-- One bit of a word after a lane write. -/
theorem getLsbD_laneWrite (r : Nat) (w : Word) (j v n : Nat) (hn : n < 32) :
    (laneWrite r w j v).getLsbD n =
      if laneShift r j ≤ n then
        (if n < laneShift r j + r then false else w.getLsbD n) || v.testBit (n - laneShift r j)
      else w.getLsbD n := by
  simp only [laneWrite, BitVec.getLsbD_or, BitVec.getLsbD_and, BitVec.getLsbD_not,
    BitVec.getLsbD_shiftLeft, BitVec.getLsbD_ofNat, Nat.testBit_two_pow_sub_one, hn, decide_true,
    Bool.true_and]
  by_cases h1 : laneShift r j ≤ n
  · have h2 : n - laneShift r j < 32 := by omega
    by_cases h3 : n < laneShift r j + r
    · have h4 : n - laneShift r j < r := by omega
      have h5 : ¬ n < laneShift r j := by omega
      simp [h1, h2, h3, h4, h5]
    · have h4 : ¬ n - laneShift r j < r := by omega
      have h5 : ¬ n < laneShift r j := by omega
      simp [h1, h2, h3, h4, h5]
  · have h5 : n < laneShift r j := by omega
    simp [h1, h5]

/-- The lane that was written reads as the value, every other lane as before. -/
theorem laneRead_laneWrite {r : Nat} (w : Word) {j j' v : Nat} (hr : r = 4 ∨ r = 5 ∨ r = 6)
    (hj : j < regPerWord r) (hj' : j' < regPerWord r) (hv : v < 2 ^ r) :
    (laneWrite r w j v >>> laneShift r j').toNat % 2 ^ r =
      if j' = j then v else (w >>> laneShift r j').toNat % 2 ^ r := by
  have hfit := lane_fits hr hj
  have hfit' := lane_fits hr hj'
  apply Nat.eq_of_testBit_eq
  intro b
  have read (x : Word) : ((x >>> laneShift r j').toNat % 2 ^ r).testBit b =
      (decide (b < r) && x.getLsbD (laneShift r j' + b)) := by
    rw [Nat.testBit_mod_two_pow, BitVec.testBit_toNat, BitVec.getLsbD_ushiftRight]
  rw [read]
  by_cases hb : b < r
  · have hn : laneShift r j' + b < 32 := by
      simp only [laneShift]; rcases hr with rfl | rfl | rfl <;> omega
    rw [getLsbD_laneWrite r w j v _ hn]
    by_cases hjj : j' = j
    · subst hjj
      simp [hb]
    · rw [if_neg hjj, read]
      simp only [hb, decide_true, Bool.true_and]
      by_cases hle : laneShift r j ≤ laneShift r j' + b
      · have hge : ¬ laneShift r j' + b < laneShift r j + r := by
          simp only [laneShift] at hle ⊢
          rcases hr with rfl | rfl | rfl <;> omega
        have hv' : v.testBit (laneShift r j' + b - laneShift r j) = false :=
          Nat.testBit_lt_two_pow (lt_of_lt_of_le hv (Nat.pow_le_pow_right (by omega) (by omega)))
        simp [hle, hge, hv']
      · simp [hle]
  · simp only [hb, decide_false, Bool.false_and]
    split
    · exact (Nat.testBit_lt_two_pow (lt_of_lt_of_le hv
        (Nat.pow_le_pow_right (by omega) (by omega)))).symm
    · rw [read]; simp [hb]

/-- A lane write keeps every bit below its lane. -/
theorem laneWrite_mod (r : Nat) (w : Word) (j v n : Nat) (h : n ≤ laneShift r j) :
    (laneWrite r w j v).toNat % 2 ^ n = w.toNat % 2 ^ n := by
  apply Nat.eq_of_testBit_eq
  intro b
  simp only [Nat.testBit_mod_two_pow, BitVec.testBit_toNat]
  by_cases hb : b < n
  · have hn : b < 32 := by simp only [laneShift] at h; omega
    have : ¬ laneShift r j ≤ b := by omega
    rw [getLsbD_laneWrite r w j v b hn, if_neg this]
  · simp [hb]

/-! ## The register words -/

@[simp] theorem length_regWrite (r : Nat) (words : List Word) (i v : Nat) :
    (regWrite r words i v).length = words.length := by
  simp [regWrite]

@[simp] theorem length_updateMax (r : Nat) (words : List Word) (i k : Nat) :
    (updateMax r words i k).length = words.length := by
  unfold updateMax; split <;> simp

@[simp] theorem length_zeroWords (p r : Nat) : (zeroWords p r).length = wordCount p r := by
  simp [zeroWords]

/-- A counter is at most `RMAX` (spec/10_state.md R26). -/
theorem regRead_lt (r : Nat) (words : List Word) (i : Nat) : regRead r words i < 2 ^ r :=
  Nat.mod_lt _ (Nat.two_pow_pos r)

/-- Every counter of a fresh Register Store is 0. -/
@[simp] theorem regRead_zeroWords (p r i : Nat) : regRead r (zeroWords p r) i = 0 := by
  have : (zeroWords p r).getD (i / regPerWord r) 0 = 0 := by
    simp only [zeroWords, List.getD_eq_getElem?_getD, List.getElem?_replicate]
    split <;> rfl
  simp only [regRead, this]
  simp

/-- After `RegWrite(c, i, v)` counter `i` reads `v` and every other counter as before (R112). -/
theorem regRead_regWrite {r : Nat} {words : List Word} {i i' v : Nat}
    (hr : r = 4 ∨ r = 5 ∨ r = 6) (hi : i / regPerWord r < words.length) (hv : v < 2 ^ r) :
    regRead r (regWrite r words i v) i' = if i' = i then v else regRead r words i' := by
  have hpos := regPerWord_pos hr
  have hj := Nat.mod_lt i hpos
  have hj' := Nat.mod_lt i' hpos
  by_cases hk : i' / regPerWord r = i / regPerWord r
  · have hsame : i' % regPerWord r = i % regPerWord r ↔ i' = i := by
      constructor
      · intro h
        rw [← Nat.div_add_mod i' (regPerWord r), ← Nat.div_add_mod i (regPerWord r), hk, h]
      · rintro rfl; rfl
    have hget : (regWrite r words i v).getD (i' / regPerWord r) 0 =
        laneWrite r (words.getD (i / regPerWord r) 0) (i % regPerWord r) v := by
      simp [regWrite, hk, List.getD_eq_getElem?_getD, hi]
    simp only [regRead, hget]
    rw [laneRead_laneWrite _ hr hj hj' hv, hk]
    simp only [hsame]
  · have hne : i' ≠ i := fun h => hk (h ▸ rfl)
    have hget : (regWrite r words i v).getD (i' / regPerWord r) 0 =
        words.getD (i' / regPerWord r) 0 := by
      simp [regWrite, List.getD_eq_getElem?_getD, List.getElem?_set_ne (Ne.symm hk)]
    simp only [regRead, hget, hne, if_false]

/-- `UpdateMax` raises one counter to the larger of the two values and keeps every other (R113). -/
theorem regRead_updateMax {r : Nat} {words : List Word} {i i' k : Nat}
    (hr : r = 4 ∨ r = 5 ∨ r = 6) (hi : i / regPerWord r < words.length) (hk : k < 2 ^ r) :
    regRead r (updateMax r words i k) i' =
      if i' = i then max (regRead r words i) k else regRead r words i' := by
  unfold updateMax
  split
  · rename_i h
    rw [regRead_regWrite hr hi hk, Nat.max_eq_right (Nat.le_of_lt h)]
  · rename_i h
    split
    · rename_i e
      rw [e, Nat.max_eq_left (Nat.le_of_not_lt h)]
    · rfl

/-! ## Well-formed Dense payloads -/

theorem denseWf_iff {p r : Nat} {words : List Word} :
    denseWf p r words = true ↔
      words.length = wordCount p r ∧
        ∀ k < wordCount p r, wordWf p r k (words.getD k 0) = true := by
  simp [denseWf]

theorem denseWf_zeroWords (p r : Nat) : denseWf p r (zeroWords p r) = true := by
  rw [denseWf_iff]
  refine ⟨length_zeroWords p r, fun k hk => ?_⟩
  simp [zeroWords, wordWf, hk]

/-- A write to a counter keeps a Dense payload well formed: padding and unused lanes stay zero
(spec/10_state.md R34). -/
theorem denseWf_regWrite {p r : Nat} {words : List Word} {i v : Nat}
    (hr : r = 4 ∨ r = 5 ∨ r = 6) (hi : i < regCount p) (h : denseWf p r words = true) :
    denseWf p r (regWrite r words i v) = true := by
  rw [denseWf_iff] at h ⊢
  obtain ⟨hlen, hall⟩ := h
  refine ⟨by rw [length_regWrite, hlen], fun k hk => ?_⟩
  by_cases hki : k = i / regPerWord r
  · subst hki
    have hw := hall _ hk
    have hget : (regWrite r words i v).getD (i / regPerWord r) 0 =
        laneWrite r (words.getD (i / regPerWord r) 0) (i % regPerWord r) v := by
      simp [regWrite, List.getD_eq_getElem?_getD, hlen, hk]
    rw [hget]
    simp only [wordWf, beq_iff_eq] at hw ⊢
    rw [laneWrite_mod _ _ _ _ _ ?_, hw]
    have hj := Nat.mod_lt i (regPerWord_pos hr)
    have hused : i % regPerWord r + 1 ≤ usedLanes p r (i / regPerWord r) := by
      have := Nat.div_add_mod i (regPerWord r)
      have hc : i / regPerWord r * regPerWord r = regPerWord r * (i / regPerWord r) :=
        Nat.mul_comm _ _
      simp only [usedLanes, Nat.le_min]
      omega
    have := Nat.mul_le_mul_left r hused
    simp only [laneShift]
    omega
  · have hget : (regWrite r words i v).getD k 0 = words.getD k 0 := by
      simp [regWrite, List.getD_eq_getElem?_getD, List.getElem?_set_ne (Ne.symm hki)]
    rw [hget]
    exact hall k hk

theorem denseWf_updateMax {p r : Nat} {words : List Word} {i k : Nat}
    (hr : r = 4 ∨ r = 5 ∨ r = 6) (hi : i < regCount p) (h : denseWf p r words = true) :
    denseWf p r (updateMax r words i k) = true := by
  unfold updateMax
  split
  · exact denseWf_regWrite hr hi h
  · exact h

end Sys2Proof.Machine
end

