-- ==== Sys2Proof/Laws/State.lean ====
section
/-! SUPPORT. What each update of the state leaves in each field, and what the accessors read after
it. -/

namespace Sys2Proof.Machine

/-! ## Ending a command -/

@[simp] theorem State.complete_contexts (s : State) (v : DWord) (o : List Byte) :
    (s.complete v o).contexts = s.contexts := rfl

@[simp] theorem State.complete_inputs (s : State) (v : DWord) (o : List Byte) :
    (s.complete v o).inputs = s.inputs := rfl

@[simp] theorem State.complete_response (s : State) (v : DWord) (o : List Byte) :
    (s.complete v o).response = some { status := .ok, res := v, out := o } := rfl

@[simp] theorem State.complete_draws (s : State) (v : DWord) (o : List Byte) :
    (s.complete v o).draws = s.draws := rfl

@[simp] theorem State.raise_contexts (s : State) (e : Status) :
    (s.raise e).contexts = s.contexts := rfl

@[simp] theorem State.raise_inputs (s : State) (e : Status) : (s.raise e).inputs = s.inputs := rfl

@[simp] theorem State.raise_response (s : State) (e : Status) :
    (s.raise e).response = some { status := e, res := 0, out := [] } := rfl

@[simp] theorem State.raise_draws (s : State) (e : Status) : (s.raise e).draws = s.draws := rfl

/-! ## Changing a context -/

@[simp] theorem State.setContext_contexts (s : State) (c : ContextId) (x : Context) :
    (s.setContext c x).contexts = s.contexts.set c.toNat x := rfl

@[simp] theorem State.setContext_inputs (s : State) (c : ContextId) (x : Context) :
    (s.setContext c x).inputs = s.inputs := rfl

@[simp] theorem State.setContext_response (s : State) (c : ContextId) (x : Context) :
    (s.setContext c x).response = s.response := rfl

@[simp] theorem State.setContext_draws (s : State) (c : ContextId) (x : Context) :
    (s.setContext c x).draws = s.draws := rfl

@[simp] theorem State.updateSketch_contexts (s : State) (c : ContextId) (f : Sketch → Sketch) :
    (s.updateSketch c f).contexts = s.contexts.modify c.toNat (Option.map f) := rfl

@[simp] theorem State.updateSketch_inputs (s : State) (c : ContextId) (f : Sketch → Sketch) :
    (s.updateSketch c f).inputs = s.inputs := rfl

@[simp] theorem State.updateSketch_response (s : State) (c : ContextId) (f : Sketch → Sketch) :
    (s.updateSketch c f).response = s.response := rfl

@[simp] theorem State.updateSketch_draws (s : State) (c : ContextId) (f : Sketch → Sketch) :
    (s.updateSketch c f).draws = s.draws := rfl

/-! ## Reading a context after an update -/

@[simp] theorem State.context?_complete (s : State) (v : DWord) (o : List Byte) (c : ContextId) :
    (s.complete v o).context? c = s.context? c := rfl

@[simp] theorem State.context?_raise (s : State) (e : Status) (c : ContextId) :
    (s.raise e).context? c = s.context? c := rfl

@[simp] theorem State.sketch?_complete (s : State) (v : DWord) (o : List Byte) (c : ContextId) :
    (s.complete v o).sketch? c = s.sketch? c := rfl

@[simp] theorem State.sketch?_raise (s : State) (e : Status) (c : ContextId) :
    (s.raise e).sketch? c = s.sketch? c := rfl

/-- A context reads none exactly when its number is `NCTX` or more. -/
theorem State.context?_eq_none {s : State} {c : ContextId} :
    s.context? c = none ↔ s.contexts.length ≤ c.toNat := by
  simp [State.context?]

/-- The context that was set reads as its new content, every other one as before. -/
theorem State.context?_setContext {s : State} {c : ContextId} (x : Context) (d : ContextId)
    (h : c.toNat < s.contexts.length) :
    (s.setContext c x).context? d = if d = c then some x else s.context? d := by
  by_cases hd : d = c
  · subst hd
    simp [State.context?, State.setContext, h]
  · have hne : c.toNat ≠ d.toNat := fun e => hd (BitVec.eq_of_toNat_eq e).symm
    simp [State.context?, State.setContext, hd, List.getElem?_set_ne hne]

/-- The sketch that was changed reads as changed, every other one as before. -/
theorem State.context?_updateSketch (s : State) (c : ContextId) (f : Sketch → Sketch)
    (d : ContextId) :
    (s.updateSketch c f).context? d =
      if d = c then (s.context? d).map (Option.map f) else s.context? d := by
  by_cases hd : d = c
  · subst hd
    simp [State.context?, State.updateSketch]
  · have hne : c.toNat ≠ d.toNat := fun e => hd (BitVec.eq_of_toNat_eq e).symm
    simp [State.context?, State.updateSketch, hd, hne]

/-- A sketch reads `sk` exactly when its context exists and holds it. -/
theorem State.sketch?_eq_some {s : State} {c : ContextId} {sk : Sketch} :
    s.sketch? c = some sk ↔ s.context? c = some (some sk) := by
  simp [State.sketch?, Option.join_eq_some_iff]

/-- The context of a sketch exists. -/
theorem State.lt_of_sketch? {s : State} {c : ContextId} {sk : Sketch}
    (h : s.sketch? c = some sk) : c.toNat < s.contexts.length := by
  rw [State.sketch?_eq_some] at h
  exact (List.getElem?_eq_some_iff.mp h).1

theorem State.sketch?_setContext {s : State} {c : ContextId} (x : Context) (d : ContextId)
    (h : c.toNat < s.contexts.length) :
    (s.setContext c x).sketch? d = if d = c then x else s.sketch? d := by
  simp only [State.sketch?, State.context?_setContext x d h]
  split <;> simp

theorem State.sketch?_updateSketch (s : State) (c : ContextId) (f : Sketch → Sketch)
    (d : ContextId) :
    (s.updateSketch c f).sketch? d = if d = c then (s.sketch? d).map f else s.sketch? d := by
  simp only [State.sketch?, State.context?_updateSketch]
  split
  · rcases s.context? d with _ | x <;> simp
  · rfl

/-! ## The checks of a context operand -/

/-- `withContext` raises `BadOperand` for a context that does not exist, and goes on otherwise. -/
theorem State.withContext_cases (s : State) (c : ContextId) (k : State) :
    (s.contexts.length ≤ c.toNat ∧ s.withContext c k = s.raise .badOperand) ∨
      (c.toNat < s.contexts.length ∧ s.withContext c k = k) := by
  unfold State.withContext
  rcases h : s.context? c with _ | x
  · exact .inl ⟨State.context?_eq_none.mp h, rfl⟩
  · exact .inr ⟨(List.getElem?_eq_some_iff.mp h).1, rfl⟩

theorem State.withContext_of_lt {s : State} {c : ContextId} {k : State}
    (h : c.toNat < s.contexts.length) : s.withContext c k = k := by
  rcases s.withContext_cases c k with ⟨h', _⟩ | ⟨_, e⟩
  · omega
  · exact e

/-- `withSketch` raises `BadOperand` for a context without a sketch, and goes on with the sketch
otherwise. -/
theorem State.withSketch_cases (s : State) (c : ContextId) (k : Sketch → State) :
    (s.sketch? c = none ∧ s.withSketch c k = s.raise .badOperand) ∨
      ∃ sk, s.sketch? c = some sk ∧ s.withSketch c k = k sk := by
  unfold State.withSketch
  rcases s.sketch? c with _ | sk
  · exact .inl ⟨rfl, rfl⟩
  · exact .inr ⟨sk, rfl, rfl⟩

theorem State.withSketch_of_some {s : State} {c : ContextId} {k : Sketch → State} {sk : Sketch}
    (h : s.sketch? c = some sk) : s.withSketch c k = k sk := by
  simp [State.withSketch, h]

theorem State.withSketch_of_none {s : State} {c : ContextId} {k : Sketch → State}
    (h : s.sketch? c = none) : s.withSketch c k = s.raise .badOperand := by
  simp [State.withSketch, h]

end Sys2Proof.Machine
end

