-- ==== Sys2Proof/Laws/Meanings.lean ====
section
/-! SUPPORT. What each command can do, said once: one lemma for each meaning, which lists every way it
can end. -/

namespace Sys2Proof.Machine

/-- Ways a creation command ends. -/
theorem State.create_cases (s : State) (dst : ContextId) (sk : Sketch) :
    (s.contexts.length ≤ dst.toNat ∧ s.create dst sk = s.raise .badOperand) ∨
      (dst.toNat < s.contexts.length ∧ paramsOk sk.p sk.r = false ∧
        s.create dst sk = s.raise .invalidParameter) ∨
      (dst.toNat < s.contexts.length ∧ paramsOk sk.p sk.r = true ∧
        s.create dst sk = (s.setContext dst (some sk)).complete 0 []) := by
  unfold State.create
  rcases s.withContext_cases dst (if paramsOk sk.p sk.r then
    (s.setContext dst (some sk)).complete 0 [] else s.raise .invalidParameter) with
    ⟨h, e⟩ | ⟨h, e⟩
  · exact .inl ⟨h, e⟩
  · rw [e]
    by_cases hp : paramsOk sk.p sk.r = true
    · exact .inr (.inr ⟨h, hp, by simp [hp]⟩)
    · exact .inr (.inl ⟨h, by simpa using hp, by simp [hp]⟩)

/-- Ways a load command ends. -/
theorem State.load_cases (s : State) (dst : ContextId) (result : LoadResult) :
    (s.contexts.length ≤ dst.toNat ∧ s.load dst result = .next (s.raise .badOperand)) ∨
      (dst.toNat < s.contexts.length ∧
        ((result = .formatError ∧ s.load dst result = .next (s.raise .formatError)) ∨
          (result = .undefinedContent ∧ s.load dst result = .refused .undefinedImage) ∨
          ∃ sk, result = .loaded sk ∧
            s.load dst result = .next ((s.setContext dst (some sk)).complete 0 []))) := by
  by_cases h : s.contexts.length ≤ dst.toNat
  · refine .inl ⟨h, ?_⟩
    have hn := State.context?_eq_none.mpr h
    cases result <;> simp [State.load, State.withContext, hn]
  · have hlt : dst.toNat < s.contexts.length := by omega
    refine .inr ⟨hlt, ?_⟩
    have hs : ∃ x, s.context? dst = some x := ⟨_, List.getElem?_eq_getElem hlt⟩
    obtain ⟨x, hx⟩ := hs
    cases result with
    | loaded sk => exact .inr (.inr ⟨sk, rfl, by simp [State.load, State.withContext, hx]⟩)
    | formatError => exact .inl ⟨rfl, by simp [State.load, State.withContext, hx]⟩
    | undefinedContent => exact .inr (.inl ⟨rfl, by simp [State.load, hx]⟩)

theorem execFree_cases (dst : ContextId) (s : State) :
    (s.contexts.length ≤ dst.toNat ∧ execFree dst s = .next (s.raise .badOperand)) ∨
      (dst.toNat < s.contexts.length ∧
        execFree dst s = .next ((s.setContext dst none).complete 0 [])) := by
  unfold execFree
  rcases s.withContext_cases dst ((s.setContext dst none).complete 0 []) with ⟨h, e⟩ | ⟨h, e⟩
  · exact .inl ⟨h, by rw [e]⟩
  · exact .inr ⟨h, by rw [e]⟩

theorem execAdd_cases (dst : ContextId) (hash : DWord) (s : State) :
    (s.sketch? dst = none ∧ execAdd dst hash s = .next (s.raise .badOperand)) ∨
      ∃ sk, s.sketch? dst = some sk ∧
        execAdd dst hash s = .next ((s.setContext dst (some (sk.add hash))).complete 0 []) := by
  unfold execAdd
  rcases s.withSketch_cases dst (fun sk =>
    (s.setContext dst (some (sk.add hash))).complete 0 []) with ⟨h, e⟩ | ⟨sk, h, e⟩
  · exact .inl ⟨h, by rw [e]⟩
  · exact .inr ⟨sk, h, by rw [e]⟩

theorem execMerge_cases (dst src : ContextId) (s : State) :
    ((s.sketch? dst = none ∨ s.sketch? src = none) ∧
        execMerge dst src s = .next (s.raise .badOperand)) ∨
      ∃ a b, s.sketch? dst = some a ∧ s.sketch? src = some b ∧
        ((a.compatible b = false ∧ execMerge dst src s = .next (s.raise .incompatibleShape)) ∨
          (a.compatible b = true ∧
            execMerge dst src s = .next ((s.mergeContexts dst src).complete 0 []))) := by
  unfold execMerge
  rcases ha : s.sketch? dst with _ | a
  · exact .inl ⟨.inl rfl, by rw [State.withSketch_of_none ha]⟩
  · rw [State.withSketch_of_some ha]
    rcases hb : s.sketch? src with _ | b
    · exact .inl ⟨.inr rfl, by rw [State.withSketch_of_none hb]⟩
    · refine .inr ⟨a, b, rfl, rfl, ?_⟩
      rw [State.withSketch_of_some hb]
      by_cases hc : a.compatible b = true
      · exact .inr ⟨hc, by simp [hc]⟩
      · exact .inl ⟨by simpa using hc, by simp [hc]⟩

/-- The sketches after a merge of two contexts that hold one: the source folded, the destination
folded and merged from it, every other context as before. -/
theorem State.context?_mergeContexts {s : State} {dst src : ContextId} {a b : Sketch}
    (ha : s.sketch? dst = some a) (hb : s.sketch? src = some b) (c : ContextId) :
    (s.mergeContexts dst src).context? c =
      if c = dst then
        some (some ((if dst = src then a.fold.fold else a.fold).mergeFrom
          (if dst = src then a.fold.fold else b.fold)))
      else if c = src then some (some b.fold)
      else s.context? c := by
  have ha' := State.sketch?_eq_some.mp ha
  have hb' := State.sketch?_eq_some.mp hb
  unfold State.mergeContexts
  have hsrc : ((s.updateSketch dst Sketch.fold).updateSketch src Sketch.fold).sketch? src =
      some (if dst = src then a.fold.fold else b.fold) := by
    rw [State.sketch?_updateSketch, if_pos rfl, State.sketch?_updateSketch]
    by_cases h : dst = src
    · subst h; simp [ha]
    · simp [h, Ne.symm h, hb]
  simp only [hsrc, State.context?_updateSketch]
  by_cases hc : c = dst
  · subst hc
    by_cases h : c = src
    · subst h; simp [ha']
    · simp [h, ha']
  · by_cases h : c = src
    · subst h; simp [hc, hb']
    · simp [hc, h]

theorem execEst_cases (dst : ContextId) (s : State) :
    (s.sketch? dst = none ∧ execEst dst s = .next (s.raise .badOperand)) ∨
      ∃ sk, s.sketch? dst = some sk ∧
        execEst dst s =
          .next ((s.setContext dst (some sk.fold)).completeEstimate sk.fold.estimate) := by
  unfold execEst
  rcases s.withSketch_cases dst (fun sk =>
    (s.setContext dst (some sk.fold)).completeEstimate sk.fold.estimate) with
    ⟨h, e⟩ | ⟨sk, h, e⟩
  · exact .inl ⟨h, by rw [e]⟩
  · exact .inr ⟨sk, h, by rw [e]⟩

@[simp] theorem State.completeEstimate_contexts (s : State) (v : Option DWord) :
    (s.completeEstimate v).contexts = s.contexts := by
  cases v <;> rfl

@[simp] theorem State.completeEstimate_inputs (s : State) (v : Option DWord) :
    (s.completeEstimate v).inputs = s.inputs := by
  cases v <;> rfl

theorem execSer_cases (dst : ContextId) (s : State) :
    (s.sketch? dst = none ∧ execSer dst s = .next (s.raise .badOperand)) ∨
      ∃ sk, s.sketch? dst = some sk ∧
        execSer dst s =
          .next ((s.setContext dst (some sk.fold)).completeImage (taggedImage sk.fold)) := by
  unfold execSer
  rcases s.withSketch_cases dst (fun sk =>
    (s.setContext dst (some sk.fold)).completeImage (taggedImage sk.fold)) with
    ⟨h, e⟩ | ⟨sk, h, e⟩
  · exact .inl ⟨h, by rw [e]⟩
  · exact .inr ⟨sk, h, by rw [e]⟩

theorem execSerL_cases (dst : ContextId) (s : State) :
    (s.sketch? dst = none ∧ execSerL dst s = .next (s.raise .badOperand)) ∨
      ∃ sk, s.sketch? dst = some sk ∧
        ((∃ tb sa, sk.payload = .sparse tb sa ∧ execSerL dst s = .next (s.raise .badOperand)) ∨
          ∃ words, sk.payload = .dense words ∧
            execSerL dst s = .next (s.completeImage (legacyImage sk words))) := by
  unfold execSerL
  rcases h : s.sketch? dst with _ | sk
  · exact .inl ⟨rfl, by rw [State.withSketch_of_none h]⟩
  · refine .inr ⟨sk, rfl, ?_⟩
    rw [State.withSketch_of_some h]
    rcases hp : sk.payload with ⟨tb, sa⟩ | words
    · exact .inl ⟨tb, sa, rfl, rfl⟩
    · exact .inr ⟨words, rfl, rfl⟩

theorem execRdreg_cases (dst : ContextId) (index : DWord) (s : State) :
    (s.sketch? dst = none ∧ execRdreg dst index s = .next (s.raise .badOperand)) ∨
      ∃ sk, s.sketch? dst = some sk ∧
        ((∃ tb sa, sk.payload = .sparse tb sa ∧
            execRdreg dst index s = .next (s.raise .badOperand)) ∨
          ∃ words, sk.payload = .dense words ∧
            ((regCount sk.p ≤ index.toNat ∧
                execRdreg dst index s = .next (s.raise .badOperand)) ∨
              (index.toNat < regCount sk.p ∧
                execRdreg dst index s =
                  .next (s.complete (BitVec.ofNat 64 (regRead sk.r words index.toNat)) [])))) := by
  unfold execRdreg
  rcases h : s.sketch? dst with _ | sk
  · exact .inl ⟨rfl, by rw [State.withSketch_of_none h]⟩
  · refine .inr ⟨sk, rfl, ?_⟩
    rw [State.withSketch_of_some h]
    rcases hp : sk.payload with ⟨tb, sa⟩ | words
    · exact .inl ⟨tb, sa, rfl, rfl⟩
    · refine .inr ⟨words, rfl, ?_⟩
      by_cases hi : regCount sk.p ≤ index.toNat
      · exact .inl ⟨hi, by simp [hi]⟩
      · exact .inr ⟨by omega, by simp [hi]⟩

theorem execStat_cases (dst : ContextId) (s : State) :
    (s.context? dst = none ∧ execStat dst s = .next (s.raise .badOperand)) ∨
      ∃ x, s.context? dst = some x ∧ execStat dst s = .next (s.complete (statWord x) []) := by
  unfold execStat
  rcases h : s.context? dst with _ | x
  · exact .inl ⟨rfl, rfl⟩
  · exact .inr ⟨x, rfl, rfl⟩

end Sys2Proof.Machine
end

