-- ==== Sys2Proof/Laws/PerInstr.lean ====
section
/-! SUPPORT. The opcode table's columns hold of the encoder, instruction by instruction: the word of
a command, under its row's mask, is its row's match (spec/opcode_table.json). -/

namespace Sys2Proof.Laws

/-- The mask of an instruction's row of spec/opcode_table.json. -/
def tableMask : Instr → Word
  | .newS _ _ _ => 0xFF0F0000
  | .newD _ _ _ => 0xFF0F0000
  | .free _ => 0xFF0FFFFF
  | .add _ _ => 0xFF0FFFFF
  | .merge _ _ => 0xFF00FFFF
  | .est _ => 0xFF0FFFFF
  | .ser _ => 0xFF0FFFFF
  | .des _ _ => 0xFF0FFFFF
  | .serL _ => 0xFF0FFFFF
  | .desL _ _ => 0xFF0FFFFF
  | .rdreg _ _ => 0xFF0FFFFF
  | .stat _ => 0xFF0FFFFF

/-- The match of an instruction's row of spec/opcode_table.json. -/
def tableMatch : Instr → Word
  | .newS _ _ _ => 0x01000000
  | .newD _ _ _ => 0x02000000
  | .free _ => 0x03000000
  | .add _ _ => 0x04000000
  | .merge _ _ => 0x05000000
  | .est _ => 0x06000000
  | .ser _ => 0x07000000
  | .des _ _ => 0x08000000
  | .serL _ => 0x09000000
  | .desL _ _ => 0x0A000000
  | .rdreg _ _ => 0x0B000000
  | .stat _ => 0x0C000000

/-- The fixed bits of an encoded command are those of its row. -/
def TableRow.Statement (i : Instr) : Prop := (encode i).cmd &&& tableMask i = tableMatch i

/-- The bits of a word with fields, under a mask that keeps the fields or clears them. -/
theorem assemble_mask (o : Opcode) (dst src : ContextId) (pb rb : Byte) (arg : DWord)
    (input : List Byte) (ms : BitVec 4) (mp mr : Byte) :
    (assemble o dst src pb rb arg input).cmd &&& ((0xFF : Byte) ++ (0 : ContextId) ++ ms ++ mp ++ mr) =
      o.byte ++ (0 : ContextId) ++ (src &&& ms) ++ (pb &&& mp) ++ (rb &&& mr) := by
  have h1 : o.byte &&& 0xFF = o.byte := by cases o <;> decide
  have h2 : dst &&& 0 = 0 := BitVec.and_zero
  simp only [assemble]
  rw [BitVec.and_append, BitVec.and_append, BitVec.and_append, BitVec.and_append, h1, h2]

theorem TableRow.newS (dst : ContextId) (pb rb : Byte) : TableRow.Statement (.newS dst pb rb) := by
  have h := assemble_mask .newS dst 0 pb rb 0 [] 0xF 0 0
  rw [show pb &&& 0 = 0 from BitVec.and_zero, show rb &&& 0 = 0 from BitVec.and_zero] at h
  exact h

theorem TableRow.newD (dst : ContextId) (pb rb : Byte) : TableRow.Statement (.newD dst pb rb) := by
  have h := assemble_mask .newD dst 0 pb rb 0 [] 0xF 0 0
  rw [show pb &&& 0 = 0 from BitVec.and_zero, show rb &&& 0 = 0 from BitVec.and_zero] at h
  exact h

theorem TableRow.free (dst : ContextId) : TableRow.Statement (.free dst) :=
  assemble_mask .free dst 0 0 0 0 [] 0xF 0xFF 0xFF

theorem TableRow.add (dst : ContextId) (hash : DWord) : TableRow.Statement (.add dst hash) :=
  assemble_mask .add dst 0 0 0 hash [] 0xF 0xFF 0xFF

theorem TableRow.merge (dst src : ContextId) : TableRow.Statement (.merge dst src) := by
  have h := assemble_mask .merge dst src 0 0 0 [] 0 0xFF 0xFF
  rw [show src &&& 0 = 0 from BitVec.and_zero] at h
  exact h

theorem TableRow.est (dst : ContextId) : TableRow.Statement (.est dst) :=
  assemble_mask .est dst 0 0 0 0 [] 0xF 0xFF 0xFF

theorem TableRow.ser (dst : ContextId) : TableRow.Statement (.ser dst) :=
  assemble_mask .ser dst 0 0 0 0 [] 0xF 0xFF 0xFF

theorem TableRow.des (dst : ContextId) (image : List Byte) : TableRow.Statement (.des dst image) :=
  assemble_mask .des dst 0 0 0 (BitVec.ofNat 64 image.length) image 0xF 0xFF 0xFF

theorem TableRow.serL (dst : ContextId) : TableRow.Statement (.serL dst) :=
  assemble_mask .serL dst 0 0 0 0 [] 0xF 0xFF 0xFF

theorem TableRow.desL (dst : ContextId) (image : List Byte) :
    TableRow.Statement (.desL dst image) :=
  assemble_mask .desL dst 0 0 0 (BitVec.ofNat 64 image.length) image 0xF 0xFF 0xFF

theorem TableRow.rdreg (dst : ContextId) (index : DWord) : TableRow.Statement (.rdreg dst index) :=
  assemble_mask .rdreg dst 0 0 0 index [] 0xF 0xFF 0xFF

theorem TableRow.stat (dst : ContextId) : TableRow.Statement (.stat dst) :=
  assemble_mask .stat dst 0 0 0 0 [] 0xF 0xFF 0xFF

end Sys2Proof.Laws
end

