-- ==== Sys2Proof/Laws/SparseSet.lean ====
section
/-! SUPPORT. What packing an entry, the ordered union (spec/41_sparse_set.md R130 to R134), and
folding entries or words into a Register Store do. -/

namespace Sys2Proof.Machine

/-! ## Entries -/

theorem fineWidth_le {p r : Nat} (h : paramsOk p r = true) : fineWidth p ≤ 22 := by
  have := paramsOk_iff.mp h
  simp only [fineWidth]; omega

theorem width_le {p r : Nat} (h : paramsOk p r = true) : r ≤ 6 := by
  have := paramsOk_iff.mp h
  omega

/-- The fine index of an entry as arithmetic on the word. -/
theorem entryIndex_eq (p : Nat) (e : Word) :
    entryIndex p e = e.toNat / 2 ^ (32 - fineWidth p) := by
  simp [entryIndex, Nat.shiftRight_eq_div_pow]

/-- A fine index has `sp` bits. -/
theorem entryIndex_lt {p : Nat} (hp : fineWidth p ≤ 32) (e : Word) :
    entryIndex p e < 2 ^ fineWidth p := by
  rw [entryIndex_eq, Nat.div_lt_iff_lt_mul (Nat.two_pow_pos _), ← Nat.pow_add,
    show fineWidth p + (32 - fineWidth p) = 32 by omega]
  exact e.isLt

/-- A rank has `r` bits. -/
theorem entryRank_lt (r : Nat) (e : Word) : entryRank r e < 2 ^ r :=
  Nat.mod_lt _ (Nat.two_pow_pos r)

/-- The coarse index of an entry is below `m`. -/
theorem coarse_lt {p r : Nat} (h : paramsOk p r = true) (e : Word) :
    entryIndex p e >>> 4 < regCount p := by
  have hf := fineWidth_le h
  have := entryIndex_lt (p := p) (by omega) e
  rw [Nat.shiftRight_eq_div_pow, Nat.div_lt_iff_lt_mul (by decide), regCount, ← Nat.pow_add]
  exact this

/-- `Pack` as arithmetic: `fidx·2^(32-sp) + rank` (spec/20_memory.md R57). -/
theorem packEntry_toNat {p r f k : Nat} (h : paramsOk p r = true) (hf : f < 2 ^ fineWidth p)
    (hk : k < 2 ^ r) : (packEntry p f k).toNat = f * 2 ^ (32 - fineWidth p) + k := by
  have h1 := fineWidth_le h
  have h2 := width_le h
  have hkw : k < 2 ^ (32 - fineWidth p) :=
    lt_of_lt_of_le hk (Nat.pow_le_pow_right (by omega) (by omega))
  have hf32 : f < 2 ^ 32 := lt_of_lt_of_le hf (Nat.pow_le_pow_right (by omega) (by omega))
  have hk32 : k < 2 ^ 32 := lt_of_lt_of_le hk (Nat.pow_le_pow_right (by omega) (by omega))
  have hprod : f * 2 ^ (32 - fineWidth p) < 2 ^ 32 := by
    calc f * 2 ^ (32 - fineWidth p) < 2 ^ fineWidth p * 2 ^ (32 - fineWidth p) :=
          Nat.mul_lt_mul_of_pos_right hf (Nat.two_pow_pos _)
      _ = 2 ^ 32 := by rw [← Nat.pow_add]; congr 1; omega
  simp only [packEntry, BitVec.toNat_or, BitVec.toNat_shiftLeft, BitVec.toNat_ofNat,
    Nat.mod_eq_of_lt hf32, Nat.mod_eq_of_lt hk32, Nat.shiftLeft_eq, Nat.mod_eq_of_lt hprod]
  rw [← Nat.shiftLeft_eq, Nat.shiftLeft_add_eq_or_of_lt hkw]

theorem entryIndex_packEntry {p r f k : Nat} (h : paramsOk p r = true)
    (hf : f < 2 ^ fineWidth p) (hk : k < 2 ^ r) : entryIndex p (packEntry p f k) = f := by
  have h1 := fineWidth_le h
  have h2 := width_le h
  have hkw : k < 2 ^ (32 - fineWidth p) :=
    lt_of_lt_of_le hk (Nat.pow_le_pow_right (by omega) (by omega))
  rw [entryIndex_eq, packEntry_toNat h hf hk, Nat.add_comm, Nat.add_mul_div_right _ _
    (Nat.two_pow_pos _), Nat.div_eq_of_lt hkw, Nat.zero_add]

theorem entryRank_packEntry {p r f k : Nat} (h : paramsOk p r = true)
    (hf : f < 2 ^ fineWidth p) (hk : k < 2 ^ r) : entryRank r (packEntry p f k) = k := by
  have h1 := fineWidth_le h
  have h2 := width_le h
  rw [entryRank, packEntry_toNat h hf hk, show 32 - fineWidth p = (32 - fineWidth p - r) + r by omega,
    Nat.pow_add, ← Nat.mul_assoc, Nat.mul_add_mod_self_right, Nat.mod_eq_of_lt hk]

theorem entryWf_packEntry {p r f k : Nat} (h : paramsOk p r = true) (hf : f < 2 ^ fineWidth p)
    (hk : k < 2 ^ r) : entryWf p r (packEntry p f k) = true := by
  have h1 := fineWidth_le h
  have h2 := width_le h
  rw [entryWf, packEntry_toNat h hf hk, beq_iff_eq]
  have e : f * 2 ^ (32 - fineWidth p) + k =
      k + f * 2 ^ (32 - fineWidth p - r) * 2 ^ r := by
    rw [Nat.mul_assoc, ← Nat.pow_add, Nat.add_comm]
    congr 3; omega
  rw [e, Nat.add_mul_div_right _ _ (Nat.two_pow_pos _), Nat.div_eq_of_lt hk, Nat.zero_add,
    Nat.mul_mod_left]

/-- A well-formed entry is its index and its rank (R131). -/
theorem entry_eq_of_wf {p r : Nat} (h : paramsOk p r = true) {e : Word}
    (he : entryWf p r e = true) :
    e.toNat = entryIndex p e * 2 ^ (32 - fineWidth p) + entryRank r e := by
  have h1 := fineWidth_le h
  have h2 := width_le h
  simp only [entryWf, beq_iff_eq] at he
  have hd : e.toNat / 2 ^ r / 2 ^ (32 - fineWidth p - r) = entryIndex p e := by
    rw [Nat.div_div_eq_div_mul, ← Nat.pow_add, entryIndex_eq]; congr 2; omega
  have e1 := Nat.div_add_mod (e.toNat / 2 ^ r) (2 ^ (32 - fineWidth p - r))
  have e2 := Nat.div_add_mod e.toNat (2 ^ r)
  rw [he, hd, Nat.add_zero] at e1
  have key : 2 ^ r * (e.toNat / 2 ^ r) = entryIndex p e * 2 ^ (32 - fineWidth p) := by
    rw [← e1, ← Nat.mul_assoc, ← Nat.pow_add, show r + (32 - fineWidth p - r) = 32 - fineWidth p by
      omega, Nat.mul_comm]
  rw [entryRank, ← key, e2]

/-- Two well-formed entries with one index and one rank are equal. -/
theorem entry_ext {p r : Nat} (h : paramsOk p r = true) {e f : Word}
    (he : entryWf p r e = true) (hf : entryWf p r f = true)
    (hi : entryIndex p e = entryIndex p f) (hr : entryRank r e = entryRank r f) : e = f := by
  apply BitVec.eq_of_toNat_eq
  rw [entry_eq_of_wf h he, entry_eq_of_wf h hf, hi, hr]

/-! ## Merging two entries of one index -/

theorem entryIndex_mergeEntries {p r : Nat} (h : paramsOk p r = true) (e f : Word) :
    entryIndex p (mergeEntries p r e f) = entryIndex p e :=
  entryIndex_packEntry h (entryIndex_lt (by have := fineWidth_le h; omega) e)
    (max_lt (entryRank_lt r e) (entryRank_lt r f))

theorem entryRank_mergeEntries {p r : Nat} (h : paramsOk p r = true) (e f : Word) :
    entryRank r (mergeEntries p r e f) = max (entryRank r e) (entryRank r f) :=
  entryRank_packEntry h (entryIndex_lt (by have := fineWidth_le h; omega) e)
    (max_lt (entryRank_lt r e) (entryRank_lt r f))

theorem entryWf_mergeEntries {p r : Nat} (h : paramsOk p r = true) (e f : Word) :
    entryWf p r (mergeEntries p r e f) = true :=
  entryWf_packEntry h (entryIndex_lt (by have := fineWidth_le h; omega) e)
    (max_lt (entryRank_lt r e) (entryRank_lt r f))

/-! ## `Merge2` -/

@[simp] theorem merge2_nil_left (p r : Nat) (ys : List Word) : merge2 p r [] ys = ys := rfl

@[simp] theorem merge2_nil_right (p r : Nat) (xs : List Word) : merge2 p r xs [] = xs := by
  cases xs <;> rfl

/-- The loop body of `Merge2` (R134). -/
theorem merge2_cons_cons (p r : Nat) (x y : Word) (xs ys : List Word) :
    merge2 p r (x :: xs) (y :: ys) =
      if entryIndex p x < entryIndex p y then x :: merge2 p r xs (y :: ys)
      else if entryIndex p y < entryIndex p x then y :: merge2 p r (x :: xs) ys
      else mergeEntries p r x y :: merge2 p r xs ys := rfl

/-- Induction along the loop of `Merge2`. -/
theorem merge2_induction {p r : Nat} {P : List Word → List Word → List Word → Prop}
    (nil : ∀ ys, P [] ys ys) (cons_nil : ∀ x xs, P (x :: xs) [] (x :: xs))
    (lt : ∀ x xs y ys, entryIndex p x < entryIndex p y →
      P xs (y :: ys) (merge2 p r xs (y :: ys)) →
      P (x :: xs) (y :: ys) (x :: merge2 p r xs (y :: ys)))
    (gt : ∀ x xs y ys, entryIndex p y < entryIndex p x →
      P (x :: xs) ys (merge2 p r (x :: xs) ys) →
      P (x :: xs) (y :: ys) (y :: merge2 p r (x :: xs) ys))
    (eq : ∀ x xs y ys, entryIndex p x = entryIndex p y → P xs ys (merge2 p r xs ys) →
      P (x :: xs) (y :: ys) (mergeEntries p r x y :: merge2 p r xs ys)) :
    ∀ xs ys, P xs ys (merge2 p r xs ys) := by
  intro xs
  induction xs with
  | nil => exact nil
  | cons x xs ihx =>
    intro ys
    induction ys with
    | nil => rw [merge2_nil_right]; exact cons_nil x xs
    | cons y ys ihy =>
      rw [merge2_cons_cons]
      split
      · exact lt x xs y ys ‹_› (ihx (y :: ys))
      · split
        · exact gt x xs y ys ‹_› ihy
        · exact eq x xs y ys (by omega) (ihx ys)

/-- Which fine indices occur in a sequence. -/
def HasIndex (p : Nat) (f : Nat) (es : List Word) : Prop := ∃ e ∈ es, entryIndex p e = f

@[simp] theorem hasIndex_nil (p f : Nat) : HasIndex p f [] ↔ False := by simp [HasIndex]

@[simp] theorem hasIndex_cons (p f : Nat) (e : Word) (es : List Word) :
    HasIndex p f (e :: es) ↔ entryIndex p e = f ∨ HasIndex p f es := by
  simp [HasIndex]

@[simp] theorem hasIndex_append (p f : Nat) (es fs : List Word) :
    HasIndex p f (es ++ fs) ↔ HasIndex p f es ∨ HasIndex p f fs := by
  simp [HasIndex, or_and_right, exists_or]

/-- `Merge2` keeps exactly the fine indices of its two operands. -/
theorem hasIndex_merge2 {p r : Nat} (h : paramsOk p r = true) (f : Nat) :
    ∀ xs ys, HasIndex p f (merge2 p r xs ys) ↔ HasIndex p f xs ∨ HasIndex p f ys := by
  apply merge2_induction (P := fun xs ys zs => HasIndex p f zs ↔ HasIndex p f xs ∨ HasIndex p f ys)
  · simp
  · simp
  · intro x xs y ys _ ih
    rw [hasIndex_cons, ih]; simp only [hasIndex_cons]; tauto
  · intro x xs y ys _ ih
    rw [hasIndex_cons, ih]; simp only [hasIndex_cons]; tauto
  · intro x xs y ys he ih
    rw [hasIndex_cons, ih, entryIndex_mergeEntries h]; simp only [hasIndex_cons, ← he]; tauto

/-- `Merge2` keeps the larger rank of every index, and so of every set of indices. -/
theorem maxRank_merge2 {p r : Nat} (h : paramsOk p r = true) (q : Nat → Bool) :
    ∀ xs ys, maxRank p r q (merge2 p r xs ys) = max (maxRank p r q xs) (maxRank p r q ys) := by
  apply merge2_induction
    (P := fun xs ys zs => maxRank p r q zs = max (maxRank p r q xs) (maxRank p r q ys))
  · simp [maxRank]
  · simp [maxRank]
  · intro x xs y ys _ ih
    rw [maxRank, ih]
    simp only [maxRank]
    split <;> omega
  · intro x xs y ys _ ih
    rw [maxRank, ih]
    simp only [maxRank]
    split <;> split <;> omega
  · intro x xs y ys he ih
    simp only [maxRank, ih, entryIndex_mergeEntries h, entryRank_mergeEntries h, ← he]
    split <;> omega

/-- `Merge2` of well-formed entries gives well-formed entries. -/
theorem entryWf_merge2 {p r : Nat} (h : paramsOk p r = true) :
    ∀ xs ys, xs.all (entryWf p r) = true → ys.all (entryWf p r) = true →
      (merge2 p r xs ys).all (entryWf p r) = true := by
  apply merge2_induction (P := fun xs ys zs => xs.all (entryWf p r) = true →
    ys.all (entryWf p r) = true → zs.all (entryWf p r) = true)
  · intro ys _ hy; exact hy
  · intro x xs hx _; exact hx
  · intro x xs y ys _ ih hx hy
    rw [List.all_cons, Bool.and_eq_true] at hx ⊢
    exact ⟨hx.1, ih hx.2 hy⟩
  · intro x xs y ys _ ih hx hy
    rw [List.all_cons, Bool.and_eq_true] at hy ⊢
    exact ⟨hy.1, ih hx hy.2⟩
  · intro x xs y ys _ ih hx hy
    rw [List.all_cons, Bool.and_eq_true] at hx hy ⊢
    exact ⟨entryWf_mergeEntries h x y, ih hx.2 hy.2⟩

/-- Strict order by fine index, as a proposition. -/
abbrev Sorted (p : Nat) (es : List Word) : Prop :=
  es.Pairwise fun e f => entryIndex p e < entryIndex p f

theorem strictlySorted_iff {p : Nat} {es : List Word} :
    strictlySorted p es = true ↔ Sorted p es := by
  simp [strictlySorted]

/-- Everything after the head of a sorted sequence has a larger index. -/
theorem index_lt_of_hasIndex {p f : Nat} {e : Word} {es : List Word} (hs : Sorted p (e :: es))
    (hf : HasIndex p f es) : entryIndex p e < f := by
  obtain ⟨g, hg, rfl⟩ := hf
  exact (List.pairwise_cons.mp hs).1 g hg

/-- `Merge2` of sorted sequences is sorted. -/
theorem sorted_merge2 {p r : Nat} (h : paramsOk p r = true) :
    ∀ xs ys, Sorted p xs → Sorted p ys → Sorted p (merge2 p r xs ys) := by
  have head (x : Word) (xs ys : List Word)
      (hx : ∀ f, HasIndex p f xs → entryIndex p x < f)
      (hy : ∀ f, HasIndex p f ys → entryIndex p x < f) :
      ∀ e ∈ merge2 p r xs ys, entryIndex p x < entryIndex p e := by
    intro e he
    rcases (hasIndex_merge2 h (entryIndex p e) xs ys).mp ⟨e, he, rfl⟩ with hf | hf
    · exact hx _ hf
    · exact hy _ hf
  apply merge2_induction (P := fun xs ys zs => Sorted p xs → Sorted p ys → Sorted p zs)
  · intro ys _ hy; exact hy
  · intro x xs hx _; exact hx
  · intro x xs y ys hlt ih hx hy
    refine List.pairwise_cons.mpr ⟨head x _ _ (fun f => index_lt_of_hasIndex hx) ?_,
      ih (List.pairwise_cons.mp hx).2 hy⟩
    intro f hf
    rcases (hasIndex_cons p f y ys).mp hf with rfl | hf
    · exact hlt
    · exact hlt.trans (index_lt_of_hasIndex hy hf)
  · intro x xs y ys hlt ih hx hy
    refine List.pairwise_cons.mpr ⟨head y _ _ ?_ (fun f => index_lt_of_hasIndex hy),
      ih hx (List.pairwise_cons.mp hy).2⟩
    intro f hf
    rcases (hasIndex_cons p f x xs).mp hf with rfl | hf
    · exact hlt
    · exact hlt.trans (index_lt_of_hasIndex hx hf)
  · intro x xs y ys he ih hx hy
    refine List.pairwise_cons.mpr ⟨?_, ih (List.pairwise_cons.mp hx).2 (List.pairwise_cons.mp hy).2⟩
    intro e hm
    rw [entryIndex_mergeEntries h]
    exact head x xs ys (fun f => index_lt_of_hasIndex hx)
      (fun f hf => he ▸ index_lt_of_hasIndex hy hf) e hm

/-- `Merge2` is no longer than its operands together. -/
theorem length_merge2_le (p r : Nat) :
    ∀ xs ys, (merge2 p r xs ys).length ≤ xs.length + ys.length := by
  apply merge2_induction (P := fun xs ys zs => zs.length ≤ xs.length + ys.length)
  · simp
  · simp
  · intro x xs y ys _ ih; simp only [List.length_cons] at ih ⊢; omega
  · intro x xs y ys _ ih; simp only [List.length_cons] at ih ⊢; omega
  · intro x xs y ys _ ih; simp only [List.length_cons] at ih ⊢; omega

/-! ## `SortDedup` -/

theorem sortDedup_cons (p r : Nat) (e : Word) (es : List Word) :
    sortDedup p r (e :: es) = merge2 p r [e] (sortDedup p r es) := rfl

theorem sorted_sortDedup {p r : Nat} (h : paramsOk p r = true) (es : List Word) :
    Sorted p (sortDedup p r es) := by
  induction es with
  | nil => exact List.Pairwise.nil
  | cons e es ih =>
    rw [sortDedup_cons]
    exact sorted_merge2 h _ _ (List.pairwise_singleton _ _) ih

theorem hasIndex_sortDedup {p r : Nat} (h : paramsOk p r = true) (f : Nat) (es : List Word) :
    HasIndex p f (sortDedup p r es) ↔ HasIndex p f es := by
  induction es with
  | nil => rfl
  | cons e es ih => rw [sortDedup_cons, hasIndex_merge2 h, ih]; simp

theorem maxRank_sortDedup {p r : Nat} (h : paramsOk p r = true) (q : Nat → Bool)
    (es : List Word) : maxRank p r q (sortDedup p r es) = maxRank p r q es := by
  induction es with
  | nil => rfl
  | cons e es ih =>
    rw [sortDedup_cons, maxRank_merge2 h, ih]
    simp only [maxRank]
    split <;> simp

theorem entryWf_sortDedup {p r : Nat} (h : paramsOk p r = true) {es : List Word}
    (hw : es.all (entryWf p r) = true) : (sortDedup p r es).all (entryWf p r) = true := by
  induction es with
  | nil => rfl
  | cons e es ih =>
    rw [List.all_cons, Bool.and_eq_true] at hw
    rw [sortDedup_cons]
    exact entryWf_merge2 h _ _ (by simp [hw.1]) (ih hw.2)

theorem length_sortDedup_le (p r : Nat) (es : List Word) :
    (sortDedup p r es).length ≤ es.length := by
  induction es with
  | nil => simp [sortDedup]
  | cons e es ih =>
    rw [sortDedup_cons]
    have := length_merge2_le p r [e] (sortDedup p r es)
    simp only [List.length_cons, List.length_nil] at this ⊢
    omega

/-- A sorted sequence stays as it is (R133). -/
theorem sortDedup_of_sorted {p r : Nat} {es : List Word} (hs : Sorted p es) :
    sortDedup p r es = es := by
  induction es with
  | nil => rfl
  | cons e es ih =>
    have hs' := List.pairwise_cons.mp hs
    rw [sortDedup_cons, ih hs'.2]
    cases es with
    | nil => rfl
    | cons f fs =>
      rw [merge2_cons_cons, if_pos (hs'.1 f (List.mem_cons_self ..)), merge2_nil_left]

/-! ## Sorted sequences are determined by their content -/

theorem maxRank_of_not_hasIndex {p r f : Nat} {es : List Word} (h : ¬ HasIndex p f es) :
    maxRank p r (fun g => g == f) es = 0 := by
  induction es with
  | nil => rfl
  | cons e es ih =>
    rw [hasIndex_cons, not_or] at h
    rw [maxRank, if_neg (by simpa using h.1), ih h.2]

/-- The rank of the first entry is the largest rank of its index. -/
theorem maxRank_head {p r : Nat} {e : Word} {es : List Word} (hs : Sorted p (e :: es)) :
    maxRank p r (fun g => g == entryIndex p e) (e :: es) = entryRank r e := by
  rw [maxRank, if_pos (by simp), maxRank_of_not_hasIndex, Nat.max_zero]
  intro hf
  exact lt_irrefl _ (index_lt_of_hasIndex hs hf)

/-- Two sorted sequences of well-formed entries with the same indices and the same ranks are equal. -/
theorem sorted_ext {p r : Nat} (h : paramsOk p r = true) {xs ys : List Word}
    (hx : Sorted p xs) (hy : Sorted p ys) (wx : xs.all (entryWf p r) = true)
    (wy : ys.all (entryWf p r) = true) (hi : ∀ f, HasIndex p f xs ↔ HasIndex p f ys)
    (hr : ∀ f, maxRank p r (fun g => g == f) xs = maxRank p r (fun g => g == f) ys) : xs = ys := by
  induction xs generalizing ys with
  | nil =>
    cases ys with
    | nil => rfl
    | cons y ys => exact absurd ((hi (entryIndex p y)).mpr (by simp)) (by simp)
  | cons x xs ih =>
    cases ys with
    | nil => exact absurd ((hi (entryIndex p x)).mp (by simp)) (by simp)
    | cons y ys =>
      have hxy : entryIndex p x = entryIndex p y := by
        rcases (hasIndex_cons ..).mp ((hi (entryIndex p x)).mp (by simp)) with h1 | h1
        · exact h1.symm
        · have l1 := index_lt_of_hasIndex hy h1
          rcases (hasIndex_cons ..).mp ((hi (entryIndex p y)).mpr (by simp)) with h2 | h2
          · exact h2
          · have l2 := index_lt_of_hasIndex hx h2
            omega
      rw [List.all_cons, Bool.and_eq_true] at wx wy
      have hxe : x = y := by
        refine entry_ext h wx.1 wy.1 hxy ?_
        have := hr (entryIndex p x)
        rwa [maxRank_head hx, hxy, maxRank_head hy] at this
      subst hxe
      congr 1
      refine ih (List.pairwise_cons.mp hx).2 (List.pairwise_cons.mp hy).2 wx.2 wy.2 ?_ ?_
      · intro f
        have := hi f
        simp only [hasIndex_cons] at this
        constructor
        · intro hf
          exact (this.mp (.inr hf)).resolve_left fun e =>
            lt_irrefl _ (e ▸ index_lt_of_hasIndex hx hf)
        · intro hf
          exact (this.mpr (.inr hf)).resolve_left fun e =>
            lt_irrefl _ (e ▸ index_lt_of_hasIndex hy hf)
      · intro f
        by_cases hf : entryIndex p x = f
        · subst hf
          rw [maxRank_of_not_hasIndex, maxRank_of_not_hasIndex]
          · exact fun hf => lt_irrefl _ (index_lt_of_hasIndex hy hf)
          · exact fun hf => lt_irrefl _ (index_lt_of_hasIndex hx hf)
        · have := hr f
          simpa [maxRank, hf] using this

/-! ## Folding entries and words into a Register Store -/

theorem length_foldEntries (p r : Nat) (words es : List Word) :
    (foldEntries p r words es).length = words.length := by
  induction es generalizing words with
  | nil => rfl
  | cons e es ih =>
    show (foldEntries p r (updateMax r words _ _) es).length = _
    rw [ih, length_updateMax]

/-- Folding entries into register words raises every counter to the largest rank folded into it
(R139; spec/42_merge.md R164). -/
theorem regRead_foldEntries {p r : Nat} (h : paramsOk p r = true) {words es : List Word}
    (hl : words.length = wordCount p r) (i : Nat) :
    regRead r (foldEntries p r words es) i =
      max (regRead r words i) (maxRank p r (fun f => f >>> 4 == i) es) := by
  have hr := width_of_paramsOk h
  induction es generalizing words with
  | nil => simp [foldEntries, maxRank]
  | cons e es ih =>
    show regRead r (foldEntries p r (updateMax r words _ _) es) i = _
    rw [ih (by rw [length_updateMax, hl]), maxRank,
      regRead_updateMax hr (hl ▸ counter_in_words hr (coarse_lt h e)) (entryRank_lt r e)]
    by_cases hi : i = entryIndex p e >>> 4
    · subst hi; simp [Nat.max_assoc]
    · simp [hi, Ne.symm hi]

theorem denseWf_foldEntries {p r : Nat} (h : paramsOk p r = true) {words : List Word}
    (es : List Word) (hd : denseWf p r words = true) :
    denseWf p r (foldEntries p r words es) = true := by
  induction es generalizing words with
  | nil => exact hd
  | cons e es ih => exact ih (denseWf_updateMax (width_of_paramsOk h) (coarse_lt h e) hd)

/-- The loop of `MergeDD` over any list of counters. -/
theorem regRead_mergeLoop {p r : Nat} (h : paramsOk p r = true) {src : List Word} (is : List Nat)
    {words : List Word} (hl : words.length = wordCount p r) (his : ∀ i ∈ is, i < regCount p)
    (i : Nat) :
    regRead r (is.foldl (fun w j => updateMax r w j (regRead r src j)) words) i =
      if i ∈ is then max (regRead r words i) (regRead r src i) else regRead r words i := by
  have hr := width_of_paramsOk h
  induction is generalizing words with
  | nil => simp
  | cons j js ih =>
    rw [List.foldl_cons, ih (by rw [length_updateMax, hl]) fun k hk => his k (.tail _ hk),
      regRead_updateMax hr (hl ▸ counter_in_words hr (his j (.head _))) (regRead_lt ..)]
    by_cases hij : i = j
    · subst hij; simp
    · simp [hij]

/-- `MergeDD` leaves the larger of the two counters at every index (spec/42_merge.md R166). -/
theorem regRead_mergeWords {p r : Nat} (h : paramsOk p r = true) {dst src : List Word}
    (hl : dst.length = wordCount p r) {i : Nat} (hi : i < regCount p) :
    regRead r (mergeWords p r dst src) i = max (regRead r dst i) (regRead r src i) := by
  rw [mergeWords, regRead_mergeLoop h _ hl (fun _ => List.mem_range.mp), if_pos (List.mem_range.mpr hi)]

theorem denseWf_mergeWords {p r : Nat} (h : paramsOk p r = true) {dst src : List Word}
    (hd : denseWf p r dst = true) : denseWf p r (mergeWords p r dst src) = true := by
  have loop (is : List Nat) (words : List Word) (his : ∀ i ∈ is, i < regCount p)
      (hw : denseWf p r words = true) :
      denseWf p r (is.foldl (fun w j => updateMax r w j (regRead r src j)) words) = true := by
    induction is generalizing words with
    | nil => exact hw
    | cons j js ih =>
      exact ih _ (fun k hk => his k (.tail _ hk))
        (denseWf_updateMax (width_of_paramsOk h) (his j (.head _)) hw)
  exact loop _ _ (fun _ => List.mem_range.mp) hd

end Sys2Proof.Machine
end

