-- ==== Sys2Proof/Laws/Words.lean ====
section
/-! SUPPORT. Words and their image bytes (spec/20_memory.md R60) are inverse to each other, and the
lengths of images (spec/44_codec.md R204, R211). -/

namespace Sys2Proof.Machine

@[simp] theorem length_wordBytes (w : Word) : (wordBytes w).length = 4 := rfl

@[simp] theorem wordsToBytes_nil : wordsToBytes [] = [] := rfl

@[simp] theorem wordsToBytes_cons (w : Word) (ws : List Word) :
    wordsToBytes (w :: ws) = wordBytes w ++ wordsToBytes ws := rfl

@[simp] theorem length_wordsToBytes (ws : List Word) :
    (wordsToBytes ws).length = 4 * ws.length := by
  induction ws with
  | nil => rfl
  | cons w ws ih => rw [wordsToBytes_cons, List.length_append, ih, length_wordBytes, List.length_cons]; omega

/-- A word is the concatenation of its bytes. -/
theorem be32_wordBytes (w : Word) :
    be32 (w.extractLsb' 24 8) (w.extractLsb' 16 8) (w.extractLsb' 8 8) (w.extractLsb' 0 8) = w := by
  apply BitVec.eq_of_getLsbD_eq
  intro i hi
  simp only [be32, BitVec.getLsbD_append, BitVec.getLsbD_extractLsb']
  by_cases h1 : i < 8
  · simp [h1]
  · by_cases h2 : i < 16
    · have : i - 8 < 8 := by omega
      have e : 8 + (i - 8) = i := by omega
      simp [h1, this, e]
    · by_cases h3 : i < 24
      · have h4 : ¬ i - 8 < 8 := by omega
        have h5 : i - 8 - 8 < 8 := by omega
        have e : 16 + (i - 8 - 8) = i := by omega
        simp [h1, h4, h5, e]
      · have h4 : ¬ i - 8 < 8 := by omega
        have h5 : ¬ i - 8 - 8 < 8 := by omega
        have h6 : i - 8 - 8 - 8 < 8 := by omega
        have e : 24 + (i - 8 - 8 - 8) = i := by omega
        simp [h1, h4, h5, h6, e]

/-- The bytes of a concatenation are its bytes. -/
theorem wordBytes_be32 (b0 b1 b2 b3 : Byte) : wordBytes (be32 b0 b1 b2 b3) = [b0, b1, b2, b3] := by
  have byte (k : Nat) (b : Byte) (h : ∀ i < 8, (be32 b0 b1 b2 b3).getLsbD (k + i) = b.getLsbD i) :
      (be32 b0 b1 b2 b3).extractLsb' k 8 = b := by
    apply BitVec.eq_of_getLsbD_eq
    intro i hi
    rw [BitVec.getLsbD_extractLsb', h i hi]
    simp [hi]
  simp only [wordBytes, List.cons.injEq, and_true]
  refine ⟨byte 24 b0 ?_, byte 16 b1 ?_, byte 8 b2 ?_, byte 0 b3 ?_⟩ <;> intro i hi <;>
    simp only [be32, BitVec.getLsbD_append]
  · have h1 : ¬ 24 + i < 8 := by omega
    have h2 : ¬ 24 + i - 8 < 8 := by omega
    have h3 : ¬ 24 + i - 8 - 8 < 8 := by omega
    have e : 24 + i - 8 - 8 - 8 = i := by omega
    simp [h1, h2, h3, e]
  · have h1 : ¬ 16 + i < 8 := by omega
    have h2 : ¬ 16 + i - 8 < 8 := by omega
    have e : 16 + i - 8 - 8 = i := by omega
    simp [h1, h2, e]
    omega
  · have h1 : ¬ 8 + i < 8 := by omega
    have e : 8 + i - 8 = i := by omega
    simp [h1, e]
    omega
  · simp
    omega

/-- Reading back the bytes of words gives the words. -/
@[simp] theorem bytesToWords_wordsToBytes (ws : List Word) :
    bytesToWords (wordsToBytes ws) = ws := by
  induction ws with
  | nil => rfl
  | cons w ws ih =>
    show be32 _ _ _ _ :: bytesToWords (wordsToBytes ws) = _
    rw [ih, be32_wordBytes]

/-- A sequence of whole words is the bytes of the words it holds. -/
theorem wordsToBytes_bytesToWords (bs : List Byte) (h : bs.length % 4 = 0) :
    wordsToBytes (bytesToWords bs) = bs := by
  match bs with
  | [] => rfl
  | [_] => simp at h
  | [_, _] => simp at h
  | [_, _, _] => simp at h
  | b0 :: b1 :: b2 :: b3 :: rest =>
    have hr : rest.length % 4 = 0 := by simp only [List.length_cons] at h; omega
    rw [bytesToWords, wordsToBytes_cons, wordBytes_be32, wordsToBytes_bytesToWords rest hr]
    rfl

/-- The number of words in a sequence of bytes. -/
theorem length_bytesToWords (bs : List Byte) : (bytesToWords bs).length = bs.length / 4 := by
  match bs with
  | [] => rfl
  | [_] => simp [bytesToWords]
  | [_, _] => simp [bytesToWords]
  | [_, _, _] => simp [bytesToWords]
  | b0 :: b1 :: b2 :: b3 :: rest =>
    rw [bytesToWords, List.length_cons, length_bytesToWords rest]
    simp only [List.length_cons]
    omega

theorem length_taggedImage (sk : Sketch) :
    (taggedImage sk).length =
      3 + 4 * match sk.payload with
        | .sparse _ array => array.length
        | .dense words => words.length := by
  obtain ⟨p, r, _ | _⟩ := sk <;> simp [taggedImage, shapeBytes] <;> omega

theorem length_legacyImage (sk : Sketch) (words : List Word) :
    (legacyImage sk words).length = 4 * words.length + 2 := by
  simp [legacyImage, shapeBytes]

end Sys2Proof.Machine
end

