-- ==== Sys2Proof/Tests/Slice0.lean ====
section
/-! SUPPORT. Tests of single commands on small states, against the words and vectors of
spec/30_encoding.md and spec/95_test_vectors.md, and for every statement with hypotheses a witness
that meets them. -/

namespace Sys2Proof.Tests

open Sys2Proof.Machine

/-! ## Helpers -/

/-- The next state of an outcome. -/
def next? : Result → Option State
  | .next t => some t
  | .fault _ => none
  | .refused _ => none

/-- An outcome is the refusal of an image. -/
def refusesImage : Result → Bool
  | .refused .undefinedImage => true
  | .refused (.notModelled _) => false
  | .next _ => false
  | .fault _ => false

/-- A state with these contexts and nothing at the port. -/
def stateOf (contexts : List Context) : State :=
  { contexts := contexts, inputs := [], response := none, draws := 0 }

/-- The contexts after a command. -/
def contextsAfter (i : Instr) (s : State) : Option (List Context) :=
  (next? (exec i s)).map (·.contexts)

/-- The response to a command. -/
def responseTo (i : Instr) (s : State) : Option Response :=
  (next? (exec i s)).bind (·.response)

/-- `STATUS = OK`, `RES = v`, `OUT` empty. -/
def ok (v : DWord) : Response := { status := .ok, res := v, out := [] }

/-- The response of an error. -/
def error (e : Status) : Response := { status := e, res := 0, out := [] }

/-! Sketches of spec/95_test_vectors.md sections 2.2 to 2.4 and program P2. -/

def denseA : Sketch := ⟨4, 4, .dense [0xF5000000, 0x0000000F]⟩
def denseB : Sketch := ⟨4, 4, .dense [0x09000200, 0x00000000]⟩
def sparseA : Sketch := ⟨4, 4, .sparse [] [0x0000000F, 0x12000005, 0xFF00000F]⟩
def sparseB : Sketch := ⟨4, 4, .sparse [0x12000009, 0x50000002] []⟩
def dense5 : Sketch := ⟨4, 5, .dense [0xF8000008, 0x0800007C, 0x0001F000]⟩
def buffered : Sketch :=
  ⟨4, 4, .sparse [0x00000001, 0xFF00000F, 0x0000000F, 0x12000003] []⟩
def almostFull : Sketch :=
  ⟨4, 4, .sparse [0xC4000008, 0xD1000001, 0xDE000002, 0xEB000003]
    [0x01000001, 0x0E000002, 0x1B000003, 0x28000004, 0x35000005, 0x42000006, 0x4F000007,
      0x5C000008, 0x69000001, 0x76000002, 0x83000003, 0x90000004, 0x9D000005, 0xAA000006,
      0xB7000007]⟩

/-- Four contexts: Dense, Sparse with a buffer, Sparse, empty. -/
def four : State := stateOf [some denseA, some sparseB, some sparseA, none]

/-! ## Well-formed terms -/

/-- The longest image that `ARG` can state has `2^64 - 1` bytes. -/
theorem test_wf_refuses_des_image_of_two_pow_64_bytes :
    ∀ n, n = 2 ^ 64 → (Instr.des 0 (List.replicate n 0)).wf = false := by
  intro n hn
  rw [Instr.wf, imageFits, List.length_replicate, hn]; decide

theorem test_wf_refuses_desL_image_of_two_pow_64_bytes :
    ∀ n, n = 2 ^ 64 → (Instr.desL 0 (List.replicate n 0)).wf = false := by
  intro n hn
  rw [Instr.wf, imageFits, List.length_replicate, hn]; decide

theorem test_wf_accepts_des_image_of_two_pow_64_less_one_bytes :
    ∀ n, n = 2 ^ 64 - 1 → (Instr.des 0 (List.replicate n 0)).wf = true := by
  intro n hn
  rw [Instr.wf, imageFits, List.length_replicate, hn]; decide

/-! ## Decoding: one word written out for each constructor (R81, R86) -/

theorem test_decode_newS :
    decode ⟨0b00000001_0001_0000_00001110_00000101, 0, []⟩ = .ok (.newS 1 14 5) := by decide
theorem test_decode_newD :
    decode ⟨0b00000010_1111_0000_00010010_00000110, 0, []⟩ = .ok (.newD 15 18 6) := by decide
theorem test_decode_free :
    decode ⟨0b00000011_0111_0000_00000000_00000000, 0, []⟩ = .ok (.free 7) := by decide
theorem test_decode_add :
    decode ⟨0b00000100_0001_0000_00000000_00000000, 0xFF00000000000001, []⟩ =
      .ok (.add 1 0xFF00000000000001) := by decide
theorem test_decode_merge :
    decode ⟨0b00000101_0010_1011_00000000_00000000, 0, []⟩ = .ok (.merge 2 11) := by decide
theorem test_decode_est :
    decode ⟨0b00000110_1000_0000_00000000_00000000, 0, []⟩ = .ok (.est 8) := by decide
theorem test_decode_ser :
    decode ⟨0b00000111_0011_0000_00000000_00000000, 0, []⟩ = .ok (.ser 3) := by decide
theorem test_decode_des :
    decode ⟨0b00001000_0100_0000_00000000_00000000, 3, [0x00, 0x04, 0x04]⟩ =
      .ok (.des 4 [0x00, 0x04, 0x04]) := by decide
theorem test_decode_serL :
    decode ⟨0b00001001_0101_0000_00000000_00000000, 0, []⟩ = .ok (.serL 5) := by decide
theorem test_decode_desL :
    decode ⟨0b00001010_0110_0000_00000000_00000000, 2, [0x04, 0x05]⟩ =
      .ok (.desL 6 [0x04, 0x05]) := by decide
theorem test_decode_rdreg :
    decode ⟨0b00001011_0001_0000_00000000_00000000, 16, []⟩ = .ok (.rdreg 1 16) := by decide
theorem test_decode_stat :
    decode ⟨0b00001100_1001_0000_00000000_00000000, 0, []⟩ = .ok (.stat 9) := by decide

/-! Rejections, from spec/95_test_vectors.md section 2.8. -/

theorem test_decode_rejects_opcode_zero : decode ⟨0x00000000, 0, []⟩ = .error .unknownOpcode := by
  decide
theorem test_decode_rejects_opcode_0D : decode ⟨0x0D000000, 0, []⟩ = .error .unknownOpcode := by
  decide
theorem test_decode_rejects_src_of_add : decode ⟨0x04010000, 1, []⟩ = .error .reservedField := by
  decide
theorem test_decode_rejects_pb_of_merge : decode ⟨0x05010400, 0, []⟩ = .error .reservedField := by
  decide
theorem test_decode_rejects_arg_of_est : decode ⟨0x06000000, 1, []⟩ = .error .argNotZero := by
  decide
theorem test_decode_rejects_input_of_add :
    decode ⟨0x04000000, 5, [0x00]⟩ = .error .inputNotEmpty := by decide
theorem test_decode_rejects_length_of_des :
    decode ⟨0x08000000, 4, [0x00, 0x04, 0x04]⟩ = .error .lengthMismatch := by decide

/-! The example of R95, through the table-word entry point. -/

theorem test_table_word_newD : decodeTableWord 32 0x02000404 = some (.newD 0 4 4) := by decide
theorem test_table_word_runs_first :
    (next? (step (State.reset.withFetchWord 32 0x02000404))).bind (·.response) = some (ok 0) := by
  decide

/-! ## Commands (spec/95_test_vectors.md) -/

theorem test_newS_replaces : contextsAfter (.newS 0 4 4) (stateOf [some denseA, none]) =
    some [some ⟨4, 4, .sparse [] []⟩, none] := by decide
theorem test_newS_checks_context_before_parameters :
    responseTo (.newS 15 99 4) four = some (error .badOperand) := by decide
theorem test_newD_is_all_zero : contextsAfter (.newD 1 4 5) (stateOf [none, none]) =
    some [none, some ⟨4, 5, .dense [0, 0, 0]⟩] := by decide
theorem test_newD_refuses_width_8 : responseTo (.newD 0 4 8) four =
    some (error .invalidParameter) := by decide
theorem test_free_empties : contextsAfter (.free 0) (stateOf [some denseA, none]) =
    some [none, none] := by decide
theorem test_free_of_empty_is_ok : responseTo (.free 3) four = some (ok 0) := by decide

theorem test_add_dense_clamps_at_sentinel :
    contextsAfter (.add 0 0) (stateOf [some ⟨4, 4, .dense [0x10000000, 0]⟩, none]) =
      some [some ⟨4, 4, .dense [0xF0000000, 0]⟩, none] := by decide
theorem test_add_promotes_on_the_twentieth :
    contextsAfter (.add 0 0xF800000000000008) (stateOf [some almostFull, none]) =
      some [some ⟨4, 4, .dense [0x23457812, 0x35678234]⟩, none] := by decide +kernel

theorem test_merge_sparse_sparse :
    contextsAfter (.merge 0 1) (stateOf [some sparseA, some sparseB]) =
      some [some ⟨4, 4, .sparse [] [0x0000000F, 0x12000009, 0x50000002, 0xFF00000F]⟩,
        some ⟨4, 4, .sparse [] [0x12000009, 0x50000002]⟩] := by decide
theorem test_merge_is_lane_wise :
    contextsAfter (.merge 0 1) (stateOf [some ⟨4, 4, .dense [0x1F000000, 0]⟩,
      some ⟨4, 4, .dense [0x0F100000, 0]⟩]) =
      some [some ⟨4, 4, .dense [0x1F100000, 0]⟩, some ⟨4, 4, .dense [0x0F100000, 0]⟩] := by decide +kernel

/-! The estimates of the vectors hold for rounding errors that are no larger than those of binary64:
`2^(-50)` of a logarithmic value and `2^(p-52)` of `raw`. -/

theorem test_est_sparse_rounds (hε : Config.lnError ≤ 2 ^ 78) :
    responseTo (.est 0) (stateOf [some sparseA, none]) = some (ok 3) := by
  have h : responseTo (.est 0) (stateOf [some sparseA, none]) =
      some (ok (sparseEstimate 4 3)) := rfl
  rw [h, sparseEstimate_eq (v := 3) (by decide) (by decide) hε (by decide +kernel)
    (by decide +kernel) (by decide)]
  rfl

theorem test_est_dense_truncates (hρ : Config.rawError 4 ≤ 2 ^ 80) (hε : Config.lnError ≤ 2 ^ 78) :
    responseTo (.est 0) (stateOf [some dense5, none]) = some (ok 5) := by
  have h0 : responseTo (.est 0) (stateOf [some dense5, none]) =
      ((stateOf [some dense5, none]).completeEstimate dense5.estimate).response := rfl
  have h : dense5.estimate =
      denseEstimate 4 (11 :: (histogram (counters 4 5 [0xF8000008, 0x0800007C, 0x0001F000])).tail) :=
    congrArg (denseEstimate 4) (by decide +kernel)
  rw [h0, h, denseEstimate_eq_of_small (v := 5) rfl (by decide) (by decide) (by decide +kernel) hρ
    (by decide +kernel) hε (by decide +kernel) (by decide +kernel) (by decide)]
  rfl

theorem test_ser_folds_and_emits : responseTo (.ser 1) four =
    some ⟨.ok, 11,
      [0x00, 0x04, 0x04, 0x12, 0x00, 0x00, 0x09, 0x50, 0x00, 0x00, 0x02]⟩ := by decide
theorem test_ser_dense_with_padding : responseTo (.ser 0) (stateOf [some dense5, none]) =
    some ⟨.ok, 15,
      [0x01, 0x04, 0x05, 0xF8, 0x00, 0x00, 0x08, 0x08, 0x00, 0x00, 0x7C, 0x00, 0x01, 0xF0,
        0x00]⟩ := by decide
theorem test_serL_parameters_last : responseTo (.serL 0) (stateOf [some dense5, none]) =
    some ⟨.ok, 14,
      [0xF8, 0x00, 0x00, 0x08, 0x08, 0x00, 0x00, 0x7C, 0x00, 0x01, 0xF0, 0x00, 0x04,
        0x05]⟩ := by decide
theorem test_serL_refuses_sparse : responseTo (.serL 1) four = some (error .badOperand) := by decide

theorem test_des_loads_entries :
    contextsAfter (.des 3 [0x00, 0x04, 0x04, 0x00, 0x00, 0x00, 0x0F, 0x12, 0x00, 0x00, 0x05, 0xFF,
      0x00, 0x00, 0x0F]) (stateOf [none, none, none, some denseB]) =
      some [none, none, none, some sparseA] := by decide
theorem test_des_refuses_gap_bit :
    refusesImage (exec (.des 0 [0x00, 0x04, 0x04, 0x12, 0x00, 0x01, 0x05]) four) = true := by decide
theorem test_desL_loads_words :
    contextsAfter (.desL 0 [0xF0, 0x00, 0x00, 0x00, 0x00, 0x00, 0x00, 0x00, 0x04, 0x04])
      (stateOf [none, none]) = some [some ⟨4, 4, .dense [0xF0000000, 0]⟩, none] := by decide
theorem test_desL_checks_the_length : responseTo (.desL 0 [0x04, 0x04]) four =
    some (error .formatError) := by decide

theorem test_rdreg_last_counter : responseTo (.rdreg 0 15) (stateOf [some dense5, none]) =
    some (ok 31) := by decide
theorem test_rdreg_lane_past_m : responseTo (.rdreg 0 16) (stateOf [some dense5, none]) =
    some (error .badOperand) := by decide
theorem test_stat_counts_entries : responseTo (.stat 0) (stateOf [some almostFull, none]) =
    some (ok 0x0000000F00420404) := by decide
theorem test_stat_of_empty_is_zero : responseTo (.stat 3) four = some (ok 0) := by decide

/-! Operand assembly: rows of section 2.1 where the sentinel decides. -/

theorem test_rank_r6_sparse_and_dense_differ :
    (rank 0x0200000000000000 8 6, rank 0x0200000000000000 4 6) = (57, 58) := by decide
theorem test_hash_entry : hashEntry 14 5 0xDEADBEEFCAFEF000 = 0xDEAD800D := by decide

/-! ## Witnesses

For each statement with hypotheses, a concrete state and operands that meet all of them; for a
statement with several clauses, one for each clause, at the boundary between clauses. -/

/-- A state in which the host has issued these events and no others. -/
def issued (s : State) (events : List HostEvent) : State := { s with inputs := events }

/-- Two empty contexts. -/
def twoEmpty : State := stateOf [none, none]

/-- A Sparse sketch with the longest array that `p = 4` allows, and an empty buffer. -/
def longest : Sketch :=
  ⟨4, 4, .sparse [] [0x01000001, 0x0E000002, 0x1B000003, 0x28000004, 0x35000005, 0x42000006,
    0x4F000007, 0x5C000008, 0x69000001, 0x76000002, 0x83000003, 0x90000004, 0x9D000005,
    0xAA000006, 0xB7000007]⟩

/-- Four buffered entries, every one of an index the array has: the fold does not promote. -/
def repeated : Sketch :=
  ⟨4, 4, .sparse [0x01000002, 0x01000003, 0x01000004, 0x01000005]
    [0x01000001, 0x0E000002, 0x1B000003, 0x28000004, 0x35000005, 0x42000006, 0x4F000007,
      0x5C000008, 0x69000001, 0x76000002, 0x83000003, 0x90000004, 0x9D000005, 0xAA000006,
      0xB7000007]⟩

/-! Encoding. -/

theorem witness_DecodeEncodeRoundTrip : (Instr.des 15 [0x00, 0x04, 0x04]).wf = true := by decide

theorem witness_DecodedTripleIsTheEncoding :
    decode ⟨0x0AF00000, 1, [0xFF]⟩ = .ok (.desL 15 [0xFF]) := by decide

theorem witness_IllegalTriplesEndWithIllegalCommand :
    ∃ (s : State) (c : Command) (rest : List HostEvent), s.inputs = .command c :: rest ∧
      0x0D ≤ c.cmd.toNat / 2 ^ 24 :=
  ⟨issued four [.command ⟨0x0D000000, 0, []⟩], _, _, rfl, by decide⟩

theorem witness_IllegalTriples_opcode_zero :
    ∃ (s : State) (c : Command) (rest : List HostEvent), s.inputs = .command c :: rest ∧
      c.cmd.toNat / 2 ^ 24 = 0x00 :=
  ⟨issued four [.command ⟨0x00FFFFFF, 0, []⟩], _, _, rfl, by decide⟩

theorem witness_IllegalTriples_src :
    ∃ (s : State) (c : Command) (rest : List HostEvent), s.inputs = .command c :: rest ∧
      c.cmd.toNat / 2 ^ 24 ≠ 0x05 ∧ c.cmd.toNat / 2 ^ 16 % 2 ^ 4 ≠ 0 :=
  ⟨issued four [.command ⟨0x06010000, 0, []⟩], _, _, rfl, by decide⟩

theorem witness_IllegalTriples_parameters :
    ∃ (s : State) (c : Command) (rest : List HostEvent), s.inputs = .command c :: rest ∧
      c.cmd.toNat / 2 ^ 24 ∉ [0x01, 0x02] ∧ c.cmd.toNat % 2 ^ 16 ≠ 0 :=
  ⟨issued four [.command ⟨0x03000001, 0, []⟩], _, _, rfl, by decide⟩

theorem witness_IllegalTriples_arg :
    ∃ (s : State) (c : Command) (rest : List HostEvent), s.inputs = .command c :: rest ∧
      c.cmd.toNat / 2 ^ 24 ∉ [0x04, 0x08, 0x0A, 0x0B] ∧ c.arg ≠ 0 :=
  ⟨issued four [.command ⟨0x09000000, 1, []⟩], _, _, rfl, by decide⟩

theorem witness_IllegalTriples_input :
    ∃ (s : State) (c : Command) (rest : List HostEvent), s.inputs = .command c :: rest ∧
      c.cmd.toNat / 2 ^ 24 ∉ [0x08, 0x0A] ∧ c.input ≠ [] :=
  ⟨issued four [.command ⟨0x0B000000, 1, [0x00]⟩], _, _, rfl, by decide⟩

theorem witness_IllegalTriples_length :
    ∃ (s : State) (c : Command) (rest : List HostEvent), s.inputs = .command c :: rest ∧
      c.cmd.toNat / 2 ^ 24 ∈ [0x08, 0x0A] ∧ c.arg.toNat ≠ c.input.length :=
  ⟨issued four [.command ⟨0x0A000000, 0, [0x00]⟩], _, _, rfl, by decide⟩

theorem witness_IllegalTriples_legal :
    ∃ (s : State) (c : Command) (rest : List HostEvent), s.inputs = .command c :: rest ∧
      let op := c.cmd.toNat / 2 ^ 24
      ¬ (op = 0x00 ∨ 0x0D ≤ op ∨ (op ≠ 0x05 ∧ c.cmd.toNat / 2 ^ 16 % 2 ^ 4 ≠ 0) ∨
        (op ∉ [0x01, 0x02] ∧ c.cmd.toNat % 2 ^ 16 ≠ 0) ∨
        (op ∉ [0x04, 0x08, 0x0A, 0x0B] ∧ c.arg ≠ 0) ∨ (op ∉ [0x08, 0x0A] ∧ c.input ≠ []) ∨
        (op ∈ [0x08, 0x0A] ∧ c.arg.toNat ≠ c.input.length)) :=
  ⟨issued four [.command ⟨0x0C000000, 0, []⟩], _, _, rfl, by decide⟩

/-! The step. -/

theorem witness_StepRunsDecodedCommand :
    ∃ (s : State) (c : Command) (rest : List HostEvent) (i : Instr),
      s.inputs = .command c :: rest ∧ decode c = .ok i ∧ i.wf = true :=
  ⟨issued four [.command ⟨0x05010000, 0, []⟩], _, _, .merge 0 1, rfl, by decide, by decide⟩

theorem witness_BlockWaitsForACommand : four.inputs = [] := rfl

theorem witness_OnlyResetAndFreeEmptyAContext :
    ∃ t, step (issued four [.command ⟨0x03000000, 0, []⟩]) = .next t ∧
      four.sketch? 0 = some denseA ∧ t.sketch? 0 = none :=
  ⟨_, rfl, by decide, by decide⟩

theorem witness_OnlyResetAndFree_reset :
    ∃ t, step (issued four [.reset]) = .next t ∧ four.sketch? 0 = some denseA ∧
      t.sketch? 0 = none :=
  ⟨_, rfl, by decide, by decide⟩

theorem witness_LaterEventsAreUnseen :
    ∃ t, step (issued four [.command ⟨0x07100000, 0, []⟩, .reset]) = .next t ∧
      t.response ≠ none :=
  ⟨_, rfl, by decide⟩

theorem witness_StepKeepsStateWellFormed :
    ∃ t, (issued four [.command ⟨0x05010000, 0, []⟩]).wf = true ∧
      step (issued four [.command ⟨0x05010000, 0, []⟩]) = .next t ∧ t.contexts ≠ four.contexts :=
  ⟨_, by decide, rfl, by decide⟩

theorem witness_StepStopsOnlyOnUndefinedImage :
    step (issued four [.command ⟨0x08000000, 7, [0x00, 0x04, 0x04, 0x12, 0x00, 0x01, 0x05]⟩]) =
      .refused .undefinedImage := rfl

theorem witness_FailedCommandChangesNothing :
    ∃ t q, step (issued four [.command ⟨0x0B100000, 0, []⟩]) = .next t ∧ t.response = some q ∧
      q.status ≠ .ok :=
  ⟨_, _, rfl, rfl, by decide⟩

theorem witness_CommandEndsWithItsStatuses :
    ∃ t, exec (.newS 0 3 4) four = .next t ∧ t.response = some (error .invalidParameter) :=
  ⟨_, rfl, by decide⟩

theorem witness_BadOperand_no_such_context : ∃ c ∈ (Instr.merge 0 4).names,
    four.contexts.length ≤ c.toNat := by decide
theorem witness_BadOperand_empty_context : (Instr.est 3).needsSketch = true ∧
    ∃ c ∈ (Instr.est 3).names, four.sketch? c = none := by decide
theorem witness_BadOperand_rdreg : ∃ a, four.sketch? 0 = some a ∧ a.mode = .dense ∧
    2 ^ a.p ≤ (16 : DWord).toNat := ⟨_, rfl, by decide, by decide⟩
theorem witness_BadOperand_serL : ∃ a, four.sketch? 1 = some a ∧ a.mode = .sparse :=
  ⟨_, rfl, by decide⟩

theorem witness_LastResponseIsNotRead :
    (issued four [.command ⟨0x0C000000, 0, []⟩]).inputs =
      [.command ⟨0x0C000000, 0, []⟩] := rfl

/-! Rules about the whole machine. -/

theorem witness_ShapeIsImmutable :
    ∃ t a, exec (.add 1 1) four = .next t ∧ four.sketch? 1 = some a ∧
      ¬ ((Instr.add 1 1).replaces = true ∧ 1 ∈ (Instr.add 1 1).names) :=
  ⟨_, _, rfl, rfl, by decide⟩

theorem witness_PromotionIsIrreversible :
    ∃ t a b, exec (.ser 0) (stateOf [some almostFull, none]) = .next t ∧
      (stateOf [some almostFull, none]).sketch? 0 = some a ∧
      ¬ ((Instr.ser 0).replaces = true ∧ 0 ∈ (Instr.ser 0).names) ∧
      t.sketch? 0 = some b ∧ a.mode ≠ b.mode :=
  ⟨_, _, _, rfl, rfl, by decide, rfl, by decide +kernel⟩

theorem witness_CountersNeverDecrease :
    ∃ t a, (stateOf [some almostFull, none]).wf = true ∧
      exec (.add 0 0xF800000000000008) (stateOf [some almostFull, none]) = .next t ∧
      (stateOf [some almostFull, none]).sketch? 0 = some a ∧
      ¬ ((Instr.add 0 0xF800000000000008).replaces = true ∧
        0 ∈ (Instr.add 0 0xF800000000000008).names) :=
  ⟨_, _, by decide, rfl, rfl, by decide⟩

theorem witness_OtherContextsAreUnchanged :
    ∃ t, exec (.merge 0 1) four = .next t ∧ 2 ∉ (Instr.merge 0 1).names := ⟨_, rfl, by decide⟩

theorem witness_DisjointCommandsCommute :
    ∃ si sj, (∀ c ∈ (Instr.add 0 5).names, c ∉ (Instr.merge 1 2).names) ∧
      exec (.add 0 5) four = .next si ∧ exec (.merge 1 2) four = .next sj ∧
      si.draws = four.draws :=
  ⟨_, _, by decide, rfl, rfl, by decide⟩

/-- A Dense sketch whose estimate no rule gives: all 16 counters at 31. -/
def saturated : Sketch := ⟨4, 5, .dense [0xFFFFFFFC, 0xFFFFFFFC, 0xFFFFF000]⟩

/-- The first command draws a free value and the second does not. -/
theorem witness_DisjointCommandsCommute_one_draw :
    ∃ si sj, (∀ c ∈ (Instr.est 0).names, c ∉ (Instr.ser 1).names) ∧
      exec (.est 0) (stateOf [some saturated, some sparseB]) = .next si ∧
      exec (.ser 1) (stateOf [some saturated, some sparseB]) = .next sj ∧
      si.draws ≠ 0 ∧ sj.draws = 0 :=
  ⟨_, _, by decide, rfl, rfl, by decide +kernel, rfl⟩

theorem witness_ShapeSizes : paramsOk 4 6 = true ∧ paramsOk 18 4 = true := by decide

/-! Index and rank. -/

theorem witness_RankIsCappedByTheSentinel :
    2 ^ 63 ∣ (0x8000000000000000 : DWord).toNat ∧
      ¬ 2 ^ (63 + 1) ∣ (0x8000000000000000 : DWord).toNat ∧ 6 ∈ [4, 5, 6] := by decide
theorem witness_RankIsCapped_zero : (0 : DWord) = 0 ∧ 4 ≤ 22 ∧ 22 ≤ 22 ∧ 4 ∈ [4, 5, 6] := by decide

theorem witness_SparseAndDensePathsAgree : paramsOk 18 5 = true ∧ 5 ≠ 6 := by decide
theorem witness_SparseAndDensePaths_r6 : paramsOk 4 6 = true ∧
    ctz64 0x0100000000000000 < 61 - 4 ∧ ¬ ctz64 0x0200000000000000 < 61 - 4 := by decide

/-! The Register Store. -/

theorem witness_UpdateMaxNeverDecreases :
    paramsOk 4 4 = true ∧ denseWf 4 4 [0xF5000000, 0x0000000F] = true ∧ 15 < 2 ^ 4 ∧
      15 ≤ 2 ^ 4 - 1 ∧ 15 ≤ regRead 4 [0xF5000000, 0x0000000F] 15 ∧ 14 ≠ 15 := by decide
theorem witness_UpdateMax_raises : ¬ 6 ≤ regRead 4 [0xF5000000, 0x0000000F] 1 := by decide

theorem witness_AddDenseRaisesOneCounter :
    four.wf = true ∧ four.sketch? 0 = some ⟨4, 4, .dense [0xF5000000, 0x0000000F]⟩ := by decide

theorem witness_AddDenseIsIdempotent :
    ∃ t, four.wf = true ∧ four.sketch? 0 = some denseA ∧ denseA.mode = .dense ∧
      exec (.add 0 0xF000000000000000) four = .next t :=
  ⟨_, by decide, by decide, by decide, rfl⟩

theorem witness_RdregReadsOneCounter :
    four.sketch? 0 = some ⟨4, 4, .dense [0xF5000000, 0x0000000F]⟩ ∧
      (15 : DWord).toNat < 2 ^ 4 ∧ 2 ^ 4 ≤ (16 : DWord).toNat := by decide
theorem witness_Rdreg_sparse :
    four.sketch? 1 = some ⟨4, 4, .sparse [0x12000009, 0x50000002] []⟩ := by decide
theorem witness_Rdreg_no_sketch : four.sketch? 3 = none ∧
    four.contexts.length ≤ (4 : ContextId).toNat := by decide

/-! The Sparse Set. -/

theorem witness_UnpackInvertsPack : paramsOk 18 6 = true ∧ 2 ^ 22 - 1 < 2 ^ (18 + 4) ∧
    63 ≤ 2 ^ 6 - 1 ∧ entryWf 18 6 0xFFFFFC3F = true := by decide

theorem witness_UnionKeepsTheMaximumOfEveryIndex : paramsOk 4 4 = true ∧
    ([0x00000001, 0xFF00000F, 0x00000003] : List Word).all (entryWf 4 4) = true ∧
    ([0x00000002] : List Word).all (entryWf 4 4) = true := by decide

theorem witness_UnionIsASemilattice : paramsOk 4 4 = true ∧
    ([0x00000001, 0xFF00000F] : List Word).all (entryWf 4 4) = true ∧
    ([0x00000002] : List Word).all (entryWf 4 4) = true ∧
    ([0x12000005, 0x00000002] : List Word).all (entryWf 4 4) = true ∧
    strictlySorted 4 [0x00000001, 0xFF00000F] = true ∧
    ([0xFF00000F, 0x00000001] : List Word).Perm [0x00000001, 0xFF00000F] ∧
    ([0x00000002] : List Word).Perm [0x00000002] := by decide

theorem witness_AddSparse_appends : four.wf = true ∧
    four.sketch? 1 = some ⟨4, 4, .sparse [0x12000009, 0x50000002] []⟩ ∧ 2 < 4 := by decide
theorem witness_AddSparse_folds :
    ∃ tb sa, (stateOf [some repeated, none]).wf = true ∧
      (stateOf [some repeated, none]).sketch? 0 = some ⟨4, 4, .sparse tb sa⟩ ∧ tb.length = 4 ∧
      (union 4 4 sa (tb ++ [0x01000006])).length < 2 ^ 4 :=
  ⟨_, _, by decide, rfl, by decide, by decide⟩
theorem witness_AddSparse_promotes :
    ∃ tb sa, (stateOf [some almostFull, none]).wf = true ∧
      (stateOf [some almostFull, none]).sketch? 0 = some ⟨4, 4, .sparse tb sa⟩ ∧
      tb.length = 4 ∧ 2 ^ 4 ≤ (union 4 4 sa (tb ++ [0xF8000004])).length :=
  ⟨_, _, by decide, rfl, by decide, by decide⟩

theorem witness_FoldKeepsLogicalContent :
    ∃ tb sa, almostFull.payload = .sparse tb sa ∧ paramsOk 4 4 = true ∧ tb.length ≤ 5 ∧
      sparseWf 4 4 [] sa = true ∧ tb.all (entryWf 4 4) = true ∧
      2 ^ 4 ≤ (union 4 4 sa tb).length :=
  ⟨_, _, rfl, by decide, by decide, by decide, by decide, by decide⟩
theorem witness_Fold_keeps_sparse :
    ∃ tb sa, repeated.payload = .sparse tb sa ∧ sparseWf 4 4 [] sa = true ∧
      tb.all (entryWf 4 4) = true ∧ (union 4 4 sa tb).length < 2 ^ 4 :=
  ⟨_, _, rfl, by decide, by decide, by decide⟩

theorem witness_SecondEstOrSerChangesNothing :
    ∃ t, four.wf = true ∧ exec (.ser 1) four = .next t ∧ t.contexts ≠ four.contexts :=
  ⟨_, by decide, rfl, by decide⟩
theorem witness_SecondEst :
    ∃ t, exec (.est 1) four = .next t ∧ t.draws = four.draws := ⟨_, rfl, rfl⟩

/-! The Merge Engine. -/

theorem witness_ShapeMismatchRefusesMerge :
    ∃ s a b, s = stateOf [some denseA, some dense5] ∧ s.sketch? 0 = some a ∧
      s.sketch? 1 = some b ∧ (a.p ≠ b.p ∨ a.r ≠ b.r) :=
  ⟨_, _, _, rfl, rfl, rfl, by decide⟩

theorem witness_MergeCompletes :
    ∃ a b sa sb, four.wf = true ∧ four.sketch? 1 = some a ∧ four.sketch? 2 = some b ∧
      a.p = b.p ∧ a.r = b.r ∧ a.fold.payload = .sparse [] sa ∧ b.fold.payload = .sparse [] sb ∧
      (union a.p a.r sa sb).length < 2 ^ a.p :=
  ⟨_, _, _, _, by decide, rfl, rfl, rfl, rfl, rfl, rfl, by decide⟩
theorem witness_Merge_promotes :
    ∃ s a b sa sb, s = stateOf [some longest, some sparseA] ∧ s.wf = true ∧
      s.sketch? 0 = some a ∧ s.sketch? 1 = some b ∧ a.p = b.p ∧ a.r = b.r ∧
      a.fold.payload = .sparse [] sa ∧ b.fold.payload = .sparse [] sb ∧
      2 ^ a.p ≤ (union a.p a.r sa sb).length :=
  ⟨_, _, _, _, _, rfl, by decide, rfl, rfl, rfl, rfl, rfl, rfl, by decide⟩
theorem witness_Merge_dense :
    ∃ a b, four.wf = true ∧ four.sketch? 0 = some a ∧ four.sketch? 1 = some b ∧ a.p = b.p ∧
      a.r = b.r ∧ a.fold.mode = .dense ∧ b.fold.mode = .sparse :=
  ⟨_, _, by decide, rfl, rfl, rfl, rfl, by decide, by decide⟩

theorem witness_MergeIsTheMaximum :
    ∃ t a b d, four.wf = true ∧ four.sketch? 1 = some a ∧ four.sketch? 2 = some b ∧
      a.p = b.p ∧ a.r = b.r ∧ exec (.merge 1 2) four = .next t ∧ t.sketch? 1 = some d ∧
      d.mode = .sparse :=
  ⟨_, _, _, _, by decide, rfl, rfl, rfl, rfl, rfl, rfl, by decide⟩

theorem witness_SelfMergeIsOneFold : four.wf = true ∧ four.sketch? 1 = some sparseB := by decide

theorem witness_MergeIsCommutativeAndAssociative :
    ∃ a b c, four.wf = true ∧ four.sketch? 0 = some a ∧ four.sketch? 1 = some b ∧
      four.sketch? 2 = some c ∧ a.p = b.p ∧ a.r = b.r ∧ b.p = c.p ∧ b.r = c.r :=
  ⟨_, _, _, by decide, rfl, rfl, rfl, rfl, rfl, rfl, rfl⟩
theorem witness_MergeIsCommutative :
    ∃ s a b, s = stateOf [some denseA, some sparseB] ∧ s.wf = true ∧ s.sketch? 0 = some a ∧
      s.sketch? 1 = some b ∧ a.p = b.p ∧ a.r = b.r :=
  ⟨_, _, _, rfl, by decide, rfl, rfl, rfl, rfl⟩

/-! The estimator. -/

theorem witness_EstFoldsAndAnswers : four.sketch? 1 = some sparseB := by decide

theorem witness_FreshSketchEstimatesZero : paramsOk 4 4 = true ∧
    (stateOf [some (newSparse 4 4), none]).sketch? 0 = some ⟨4, 4, .sparse [] []⟩ := by decide
theorem witness_FreshDenseSketch : paramsOk 18 6 = true ∧
    (stateOf [none, some (newDense 18 6)]).sketch? 1 =
      some ⟨18, 6, .dense (List.replicate (wordCount 18 6) 0)⟩ := ⟨by decide, rfl⟩

/-- Two Register Stores that differ only in which counter holds the 15. -/
theorem witness_EstimateReadsOnlyTheHistogram (v : Nat) :
    ((List.range (2 ^ 4)).filter fun i => regRead 4 [0xF0000000, 0] i == v).length =
      ((List.range (2 ^ 4)).filter fun i => regRead 4 [0, 0x0000000F] i == v).length := by
  have key : ((List.range (2 ^ 4)).map (regRead 4 [0xF0000000, 0])).Perm
      ((List.range (2 ^ 4)).map (regRead 4 [0, 0x0000000F])) := by decide
  have h := key.countP_eq (· == v)
  rw [List.countP_map, List.countP_map] at h
  rw [← List.countP_eq_length_filter, ← List.countP_eq_length_filter]
  exact h
theorem witness_EstimateReadsOnlyTheLength :
    ([0x00000001] : List Word).length = ([0xFF00000F] : List Word).length := rfl

theorem witness_SparseEstimateIsRoundedLinearCounting :
    ∃ s sa, s = stateOf [some longest, none] ∧ s.wf = true ∧ s.sketch? 0 = some longest ∧
      longest.fold.payload = .sparse [] sa ∧ sa.length = 15 :=
  ⟨_, _, rfl, by decide, rfl, rfl, by decide⟩

theorem witness_SparseReferenceValueIsAllowed : 4 ≤ 18 ∧ 18 ≤ 18 ∧ 2 ^ 18 - 1 < 2 ^ 18 := by decide

/-- A state whose context 0 holds a Dense sketch of 16 counters with these words. -/
def denseAt (r : Nat) (words : List Word) : State := stateOf [some ⟨4, r, .dense words⟩, none]

/-- The harmonic sum of 16 counters that all hold `c`. -/
theorem sum_of_equal_counters {r c : Nat} {words : List Word}
    (h : ∀ i ∈ Finset.range 16, regRead r words i = c) :
    ∑ i ∈ Finset.range (2 ^ 4), (1 / 2 : ℝ) ^ regRead r words i = 16 * (1 / 2) ^ c := by
  rw [show (2 : ℕ) ^ 4 = 16 from rfl, Finset.sum_congr rfl fun i hi => by rw [h i hi]]
  simp

/-- All counters 0. -/
theorem witness_DenseEstimateFollowsTheFormulas :
    (denseAt 4 [0, 0]).wf = true ∧ (denseAt 4 [0, 0]).sketch? 0 = some ⟨4, 4, .dense [0, 0]⟩ ∧
      ((Finset.range (2 ^ 4)).filter fun i => regRead 4 [0, 0] i = 0).card = 2 ^ 4 := by decide

/-- All counters 24: `raw` in the large range. -/
theorem witness_DenseEstimate_large :
    let raw : ℝ := 0.673 * (2 ^ 4) ^ 2 / ∑ i ∈ Finset.range (2 ^ 4),
      (1 / 2 : ℝ) ^ regRead 5 [0xC6318C60, 0xC6318C60, 0xC6318000] i
    (denseAt 5 [0xC6318C60, 0xC6318C60, 0xC6318000]).wf = true ∧ 2 ^ 32 / 30 < raw ∧
      raw < 2 ^ 32 := by
  intro raw
  have hs := sum_of_equal_counters (r := 5)
    (words := [0xC6318C60, 0xC6318C60, 0xC6318000]) (c := 24) (by decide)
  refine ⟨by decide, ?_, ?_⟩ <;> simp only [raw, hs] <;> norm_num

/-- All counters 31: no rule gives the estimate. -/
theorem witness_DenseEstimate_free :
    let raw : ℝ := 0.673 * (2 ^ 4) ^ 2 / ∑ i ∈ Finset.range (2 ^ 4),
      (1 / 2 : ℝ) ^ regRead 5 [0xFFFFFFFC, 0xFFFFFFFC, 0xFFFFF000] i
    (denseAt 5 [0xFFFFFFFC, 0xFFFFFFFC, 0xFFFFF000]).wf = true ∧ 2 ^ 32 ≤ raw := by
  intro raw
  have hs := sum_of_equal_counters (r := 5)
    (words := [0xFFFFFFFC, 0xFFFFFFFC, 0xFFFFF000]) (c := 31) (by decide)
  refine ⟨by decide, ?_⟩; simp only [raw, hs]; norm_num

/-- All counters 0: the small range. -/
theorem witness_DenseReferenceValueIsAllowed :
    let raw : ℝ := 0.673 * (2 ^ 4) ^ 2 /
      ∑ i ∈ Finset.range (2 ^ 4), (1 / 2 : ℝ) ^ regRead 4 [0, 0] i
    paramsOk 4 4 = true ∧ raw ≤ 2.5 * 2 ^ 4 ∧
      ((Finset.range (2 ^ 4)).filter fun i => regRead 4 [0, 0] i = 0).card ≠ 0 := by
  intro raw
  have hs := sum_of_equal_counters (r := 4) (words := [0, 0]) (c := 0) (by decide)
  refine ⟨by decide, ?_, by decide⟩
  simp only [raw, hs]; norm_num

/-- All counters 2: `raw` past `2.5·M`, uncorrected. -/
theorem witness_DenseReferenceValue_plain :
    let raw : ℝ := 0.673 * (2 ^ 4) ^ 2 /
      ∑ i ∈ Finset.range (2 ^ 4), (1 / 2 : ℝ) ^ regRead 4 [0x22222222, 0x22222222] i
    2.5 * 2 ^ 4 < raw ∧ raw ≤ 2 ^ 32 / 30 := by
  intro raw
  have hs := sum_of_equal_counters (r := 4) (words := [0x22222222, 0x22222222]) (c := 2)
    (by decide)
  refine ⟨?_, ?_⟩ <;> simp only [raw, hs] <;> norm_num

/-! The codec. -/

theorem witness_SerFoldsAndEmitsTheImage : four.wf = true ∧ four.sketch? 0 = some denseA ∧
    four.sketch? 1 = some sparseB := by decide

/-- The six cases of R206, each just past its boundary. -/
theorem witness_DesFormatErrorCases :
    (∀ image ∈ ([[0x00, 0x04], [0x02, 0x04, 0x04], [0x00, 0x03, 0x04], [0x00, 0x13, 0x04],
        [0x00, 0x04, 0x07], [0x01, 0x04, 0x04, 0, 0, 0, 0], [0x00, 0x04, 0x04, 0]] :
        List (List Byte)),
      responseTo (.des 0 image) twoEmpty = some (error .formatError)) ∧
    (∀ image ∈ ([[0x00, 0x04, 0x04], [0x00, 0x12, 0x06],
        [0x01, 0x04, 0x04, 0, 0, 0, 0, 0, 0, 0, 0]] : List (List Byte)),
      responseTo (.des 0 image) twoEmpty = some (ok 0)) := by decide

/-- The four cases of R213, each just past its boundary. -/
theorem witness_DesLFormatErrorCases :
    (∀ image ∈ ([[0x04], [0x03, 0x04], [0x13, 0x04], [0x04, 0x03],
        [0, 0, 0, 0, 0, 0, 0, 0x04, 0x04], [0, 0, 0, 0, 0, 0, 0, 0, 0, 0x04, 0x04]] :
        List (List Byte)),
      responseTo (.desL 0 image) twoEmpty = some (error .formatError)) ∧
    responseTo (.desL 0 [0, 0, 0, 0, 0, 0, 0, 0, 0x04, 0x04]) twoEmpty = some (ok 0) := by decide

theorem witness_LoadsReplaceTheContext : (3 : ContextId).toNat < four.contexts.length ∧
    sparseA.wf = true ∧
    sparseA.payload = .sparse [] [0x0000000F, 0x12000005, 0xFF00000F] ∧ dense5.wf = true ∧
    dense5.payload = .dense [0xF8000008, 0x0800007C, 0x0001F000] := by decide

theorem witness_InvalidContentIsRefused : (0 : ContextId).toNat < four.contexts.length ∧
    paramsOk 4 5 = true ∧ sparseWf 4 5 [] [0x12000025] = false ∧
    ([0, 0, 0x00000800] : List Word).length = wordCount 4 5 ∧
    denseWf 4 5 [0, 0, 0x00000800] = false := by decide

theorem witness_SerThenDesCopiesTheSketch :
    ∃ t q, four.wf = true ∧ (3 : ContextId).toNat < four.contexts.length ∧
      exec (.ser 1) four = .next t ∧ t.response = some q ∧ q.status = .ok ∧
      ∃ u v w, exec (.des 3 q.out) t = .next u ∧ exec (.est 1) u = .next v ∧
        exec (.est 3) u = .next w ∧ v.draws = u.draws :=
  ⟨_, _, by decide, by decide, rfl, rfl, rfl, _, _, _, rfl, rfl, rfl, rfl⟩

theorem witness_DesThenSerEmitsTheImage :
    ∃ u, four.wf = true ∧ exec (.des 0 [0x00, 0x04, 0x04, 0x12, 0x00, 0x00, 0x05]) four = .next u ∧
      u.response = some ⟨.ok, 0, []⟩ :=
  ⟨_, by decide, rfl, rfl⟩

theorem witness_SerLEmitsTheLegacyImage :
    four.sketch? 0 = some ⟨4, 4, .dense [0xF5000000, 0x0000000F]⟩ ∧
      four.sketch? 1 = some ⟨4, 4, .sparse [0x12000009, 0x50000002] []⟩ ∧
      four.sketch? 3 = none := by decide

theorem witness_LegacyRoundTrip :
    ∃ t q, four.wf = true ∧ (3 : ContextId).toNat < four.contexts.length ∧
      exec (.serL 0) four = .next t ∧ t.response = some q ∧ q.status = .ok :=
  ⟨_, _, by decide, by decide, rfl, rfl, rfl⟩
theorem witness_LegacyLoad :
    ∃ u, exec (.desL 3 [0xF0, 0, 0, 0, 0, 0, 0, 0, 0x04, 0x04]) four = .next u ∧
      u.response = some ⟨.ok, 0, []⟩ :=
  ⟨_, rfl, rfl⟩

/-! Lifecycle and observation. -/

theorem witness_NewCreatesOrRefusesParameters : (3 : ContextId).toNat < four.contexts.length ∧
    ((4 ≤ (18 : Byte).toNat ∧ (18 : Byte).toNat ≤ 18) ∧ (6 : Byte).toNat ∈ [4, 5, 6]) ∧
    ¬ ((4 ≤ (19 : Byte).toNat ∧ (19 : Byte).toNat ≤ 18) ∧ (6 : Byte).toNat ∈ [4, 5, 6]) := by decide

theorem witness_FreeEmptiesTheContext : (3 : ContextId).toNat < four.contexts.length ∧
    four.contexts.length ≤ (4 : ContextId).toNat := by decide

theorem witness_StatReportsTheAttributes : four.wf = true ∧
    four.contexts.length ≤ (4 : ContextId).toNat ∧ four.context? 3 = some none ∧
    four.sketch? 1 = some sparseB ∧ denseA.mode = .dense := by decide

end Sys2Proof.Tests
end

section
/-! PROOFS for spec/00_scope.md: the well-formed states, with the state after reset, and the sizes of
a legal shape. -/

namespace Sys2Proof.Machine

/-! ## The state after reset (spec/00_scope.md R9, spec/70_reset_and_hazards.md R280) -/

theorem State.wf_iff {s : State} :
    s.wf = true ↔
      2 ≤ s.contexts.length ∧ s.contexts.length ≤ 16 ∧ ∀ x ∈ s.contexts, contextWf x = true := by
  simp [State.wf, and_assoc]

/-- A block right after reset is well formed whenever its number of contexts is legal. -/
theorem State.wf_powerOn {n : Nat} (hlo : 2 ≤ n) (hhi : n ≤ 16) : (State.powerOn n).wf = true := by
  rw [State.wf_iff]
  simp only [State.powerOn, List.length_replicate]
  refine ⟨hlo, hhi, fun x hx => ?_⟩
  rw [List.eq_of_mem_replicate hx]
  rfl

theorem two_le_nctx : 2 ≤ Config.nctx := Nat.le_add_left 2 _

theorem nctx_le_sixteen : Config.nctx ≤ 16 := by
  have := Config.extraContexts.isLt
  rw [Config.nctx]
  omega

/-- Settles O10: `NCTX` is legal, and empty contexts are well formed. -/
theorem resetStateIsWellFormed : Obligations.ResetStateIsWellFormed :=
  State.wf_powerOn two_le_nctx nctx_le_sixteen

/-! ## The sizes of a legal shape (spec/00_scope.md R5, R7) -/

theorem regCount_pos (p : Nat) : 0 < regCount p := Nat.two_pow_pos p

/-- The words hold every counter. -/
theorem regCount_le_lanes {r : Nat} (hpos : 0 < regPerWord r) (p : Nat) :
    regCount p ≤ wordCount p r * regPerWord r := by
  have := Nat.lt_div_mul_add (a := regCount p + (regPerWord r - 1)) hpos
  rw [wordCount]
  omega

/-- One word fewer does not hold every counter. -/
theorem lanes_of_fewer_words_lt {r : Nat} (hpos : 0 < regPerWord r) (p : Nat) :
    (wordCount p r - 1) * regPerWord r < regCount p := by
  have := Nat.div_mul_le_self (regCount p + (regPerWord r - 1)) (regPerWord r)
  have := regCount_pos p
  rw [Nat.sub_one_mul, wordCount]
  omega

/-- The table of R7: lanes per word, padding bits and largest counter of each register width. -/
theorem width_table {r : Nat} (hr : r = 4 ∨ r = 5 ∨ r = 6) :
    r = 4 ∧ regPerWord r = 8 ∧ 32 - r * regPerWord r = 0 ∧ rankMax r = 15 ∨
      r = 5 ∧ regPerWord r = 6 ∧ 32 - r * regPerWord r = 2 ∧ rankMax r = 31 ∨
      r = 6 ∧ regPerWord r = 5 ∧ 32 - r * regPerWord r = 2 ∧ rankMax r = 63 := by
  rcases hr with rfl | rfl | rfl <;> decide

/-- Settles O22: the table of the three widths, and `wordCount` as the least number of words whose
lanes hold all `m` counters. -/
theorem shapeSizes : Obligations.ShapeSizes := by
  intro p r h
  have hr := width_of_paramsOk h
  have hpos := regPerWord_pos hr
  exact ⟨rfl, rfl, width_table hr, lanes_of_fewer_words_lt hpos p, regCount_le_lanes hpos p⟩

end Sys2Proof.Machine
end

section
/-! PROOFS for spec/10_state.md, first part: what folding, adding to and merging into a sketch do to
its shape, its mode, its well-formedness and its coarse content. -/

namespace Sys2Proof.Machine

/-! ## The union of two sequences of entries (spec/41_sparse_set.md R133) -/

theorem sorted_union {p r : Nat} (h : paramsOk p r = true) (a b : List Word) :
    Sorted p (union p r a b) :=
  sorted_merge2 h _ _ (sorted_sortDedup h a) (sorted_sortDedup h b)

theorem entryWf_union {p r : Nat} (h : paramsOk p r = true) {a b : List Word}
    (ha : a.all (entryWf p r) = true) (hb : b.all (entryWf p r) = true) :
    (union p r a b).all (entryWf p r) = true :=
  entryWf_merge2 h _ _ (entryWf_sortDedup h ha) (entryWf_sortDedup h hb)

theorem maxRank_union {p r : Nat} (h : paramsOk p r = true) (q : Nat → Bool) (a b : List Word) :
    maxRank p r q (union p r a b) = max (maxRank p r q a) (maxRank p r q b) := by
  rw [union, maxRank_merge2 h, maxRank_sortDedup h, maxRank_sortDedup h]

theorem maxRank_append (p r : Nat) (q : Nat → Bool) (a b : List Word) :
    maxRank p r q (a ++ b) = max (maxRank p r q a) (maxRank p r q b) := by
  induction a with
  | nil => simp [maxRank]
  | cons e es ih =>
    simp only [List.cons_append, maxRank, ih]
    split <;> simp [Nat.max_assoc]

/-! ## Well-formed sketches, by mode (R44) -/

theorem sparseWf_iff {p r : Nat} {tb sa : List Word} :
    sparseWf p r tb sa = true ↔
      tb.length < bufferCapacity ∧ sa.length < regCount p ∧ tb.all (entryWf p r) = true ∧
        sa.all (entryWf p r) = true ∧ Sorted p sa := by
  simp [sparseWf, strictlySorted_iff, and_assoc]

theorem Sketch.wf_sparse_iff {p r : Nat} {tb sa : List Word} :
    Sketch.wf ⟨p, r, .sparse tb sa⟩ = true ↔ paramsOk p r = true ∧ sparseWf p r tb sa = true := by
  simp [Sketch.wf]

theorem Sketch.wf_dense_iff {p r : Nat} {words : List Word} :
    Sketch.wf ⟨p, r, .dense words⟩ = true ↔ paramsOk p r = true ∧ denseWf p r words = true := by
  simp [Sketch.wf]

theorem Sketch.paramsOk_of_wf {sk : Sketch} (h : sk.wf = true) : paramsOk sk.p sk.r = true := by
  rw [Sketch.wf, Bool.and_eq_true] at h
  exact h.1

/-! ## Promotion (spec/41_sparse_set.md R138, R139) -/

theorem denseWf_promoted {p r : Nat} (h : paramsOk p r = true) (sa : List Word) :
    denseWf p r (foldEntries p r (zeroWords p r) sa) = true :=
  denseWf_foldEntries h sa (denseWf_zeroWords p r)

theorem regRead_promoted {p r : Nat} (h : paramsOk p r = true) (sa : List Word) (i : Nat) :
    regRead r (foldEntries p r (zeroWords p r) sa) i = maxRank p r (fun f => f >>> 4 == i) sa := by
  rw [regRead_foldEntries h (length_zeroWords p r), regRead_zeroWords, Nat.zero_max]

/-- The two ways the promotion test ends. -/
theorem Sketch.promoteIfFull_cases (p r : Nat) (tb sa : List Word) :
    (sa.length < regCount p ∧
        Sketch.promoteIfFull ⟨p, r, .sparse tb sa⟩ = ⟨p, r, .sparse tb sa⟩) ∨
      (regCount p ≤ sa.length ∧
        Sketch.promoteIfFull ⟨p, r, .sparse tb sa⟩ =
          ⟨p, r, .dense (foldEntries p r (zeroWords p r) sa)⟩) := by
  by_cases h : regCount p ≤ sa.length
  · exact .inr ⟨h, if_pos h⟩
  · exact .inl ⟨by omega, if_neg h⟩

theorem Sketch.shape_promoteIfFull (sk : Sketch) :
    sk.promoteIfFull.p = sk.p ∧ sk.promoteIfFull.r = sk.r := by
  unfold Sketch.promoteIfFull Sketch.promote
  split
  · split <;> exact ⟨rfl, rfl⟩
  · exact ⟨rfl, rfl⟩

theorem Sketch.wf_promoteIfFull {p r : Nat} {tb sa : List Word} (h : paramsOk p r = true)
    (hcap : tb.length < bufferCapacity) (htb : tb.all (entryWf p r) = true)
    (hsa : sa.all (entryWf p r) = true) (hs : Sorted p sa) :
    (Sketch.promoteIfFull ⟨p, r, .sparse tb sa⟩).wf = true := by
  rcases Sketch.promoteIfFull_cases p r tb sa with ⟨hlt, e⟩ | ⟨_, e⟩
  · rw [e]
    exact Sketch.wf_sparse_iff.mpr ⟨h, sparseWf_iff.mpr ⟨hcap, hlt, htb, hsa, hs⟩⟩
  · rw [e]
    exact Sketch.wf_dense_iff.mpr ⟨h, denseWf_promoted h sa⟩

/-- With an empty buffer the promotion test keeps the coarse content (R36). -/
theorem Sketch.coarse_promoteIfFull {p r : Nat} (h : paramsOk p r = true) (sa : List Word)
    (i : Nat) :
    (Sketch.promoteIfFull ⟨p, r, .sparse [] sa⟩).coarse i =
      maxRank p r (fun f => f >>> 4 == i) sa := by
  rcases Sketch.promoteIfFull_cases p r [] sa with ⟨_, e⟩ | ⟨_, e⟩
  · rw [e]; rfl
  · rw [e]; exact regRead_promoted h sa i

/-! ## Fold (spec/41_sparse_set.md R137) -/

theorem Sketch.fold_sparse (p r : Nat) (tb sa : List Word) :
    Sketch.fold ⟨p, r, .sparse tb sa⟩ =
      Sketch.promoteIfFull ⟨p, r, .sparse [] (union p r sa tb)⟩ := rfl

/-- The two ways the fold of a Sparse sketch ends. -/
theorem Sketch.fold_sparse_cases (p r : Nat) (tb sa : List Word) :
    ((union p r sa tb).length < regCount p ∧
        Sketch.fold ⟨p, r, .sparse tb sa⟩ = ⟨p, r, .sparse [] (union p r sa tb)⟩) ∨
      (regCount p ≤ (union p r sa tb).length ∧
        Sketch.fold ⟨p, r, .sparse tb sa⟩ =
          ⟨p, r, .dense (foldEntries p r (zeroWords p r) (union p r sa tb))⟩) :=
  Sketch.promoteIfFull_cases p r [] (union p r sa tb)

theorem Sketch.shape_fold (sk : Sketch) : sk.fold.p = sk.p ∧ sk.fold.r = sk.r := by
  rcases sk with ⟨p, r, ⟨tb, sa⟩ | words⟩
  · exact Sketch.shape_promoteIfFull _
  · exact ⟨rfl, rfl⟩

@[simp] theorem Sketch.p_fold (sk : Sketch) : sk.fold.p = sk.p := sk.shape_fold.1

@[simp] theorem Sketch.r_fold (sk : Sketch) : sk.fold.r = sk.r := sk.shape_fold.2

theorem Sketch.mode_fold_of_dense {a : Sketch} (h : a.mode = .dense) : a.fold.mode = .dense := by
  rcases a with ⟨p, r, ⟨tb, sa⟩ | words⟩
  · cases h
  · rfl

@[simp] theorem Sketch.tcnt_fold (sk : Sketch) : sk.fold.tcnt = 0 := by
  rcases sk with ⟨p, r, ⟨tb, sa⟩ | words⟩
  · rcases Sketch.fold_sparse_cases p r tb sa with ⟨_, e⟩ | ⟨_, e⟩ <;> rw [e] <;> rfl
  · rfl

/-- A fold of well-formed entries is a well-formed sketch, however many entries are buffered. -/
theorem Sketch.wf_fold_sparse {p r : Nat} {tb sa : List Word} (h : paramsOk p r = true)
    (htb : tb.all (entryWf p r) = true) (hsa : sa.all (entryWf p r) = true) :
    (Sketch.fold ⟨p, r, .sparse tb sa⟩).wf = true := by
  rw [Sketch.fold_sparse]
  exact Sketch.wf_promoteIfFull h (by decide) rfl (entryWf_union h hsa htb) (sorted_union h sa tb)

theorem Sketch.wf_fold {sk : Sketch} (h : sk.wf = true) : sk.fold.wf = true := by
  rcases sk with ⟨p, r, ⟨tb, sa⟩ | words⟩
  · obtain ⟨hp, hsp⟩ := Sketch.wf_sparse_iff.mp h
    obtain ⟨_, _, htb, hsa, _⟩ := sparseWf_iff.mp hsp
    exact Sketch.wf_fold_sparse hp htb hsa
  · exact h

/-- A fold keeps the coarse content (R36). -/
theorem Sketch.coarse_fold {sk : Sketch} (h : paramsOk sk.p sk.r = true) (i : Nat) :
    sk.fold.coarse i = sk.coarse i := by
  rcases sk with ⟨p, r, ⟨tb, sa⟩ | words⟩
  · rw [Sketch.fold_sparse, Sketch.coarse_promoteIfFull h, maxRank_union h, Nat.max_comm,
      ← maxRank_append]
    rfl
  · rfl

/-- A fold that does not promote keeps the fine content (R36). -/
theorem Sketch.fine_folded_array {p r : Nat} (h : paramsOk p r = true) (tb sa : List Word) (f : Nat) :
    Sketch.fine ⟨p, r, .sparse [] (union p r sa tb)⟩ f = Sketch.fine ⟨p, r, .sparse tb sa⟩ f := by
  simp only [Sketch.fine, List.nil_append, maxRank_union h, maxRank_append]
  exact Nat.max_comm _ _

/-- Settles O33: the union keeps the largest rank of every set of fine indices, and promotion moves
the ranks of the array into zeroed counters. -/
theorem foldKeepsLogicalContent : Obligations.FoldKeepsLogicalContent := by
  intro p r tb sa h _ hsp htb a n
  obtain ⟨_, _, _, hsa, _⟩ := sparseWf_iff.mp hsp
  refine ⟨Sketch.wf_fold_sparse h htb hsa, Sketch.tcnt_fold a, ?_, fun i _ => Sketch.coarse_fold h i,
    ?_⟩
  · rcases Sketch.fold_sparse_cases p r tb sa with ⟨hlt, e⟩ | ⟨hle, e⟩
    · exact e ▸ ⟨nofun, fun hle => absurd hle (Nat.not_le.mpr hlt)⟩
    · exact e ▸ ⟨fun _ => hle, fun _ => rfl⟩
  · rcases Sketch.fold_sparse_cases p r tb sa with ⟨hlt, e⟩ | ⟨hle, e⟩
    · exact e ▸ ⟨fun _ => ⟨rfl, Sketch.fine_folded_array h tb sa⟩,
        fun hle => absurd hle (Nat.not_le.mpr hlt)⟩
    · exact e ▸ ⟨fun hlt => absurd hle (Nat.not_le.mpr hlt), fun _ _ => rfl⟩

/-! ## `ADD` (spec/40_register_store.md R114, R115; spec/41_sparse_set.md R135) -/

theorem topBits_lt (h : DWord) {k : Nat} (hk : k ≤ 64) : topBits h k < 2 ^ k := by
  rw [topBits, BitVec.toNat_ushiftRight, Nat.shiftRight_eq_div_pow,
    Nat.div_lt_iff_lt_mul (Nat.two_pow_pos _), ← Nat.pow_add, Nat.add_sub_cancel' hk]
  exact h.isLt

theorem rank_lt (h : DWord) (k r : Nat) : rank h k r < 2 ^ r :=
  lt_of_le_of_lt (Nat.min_le_right _ _) (Nat.sub_one_lt (Nat.two_pow_pos r).ne')

theorem entryWf_hashEntry {p r : Nat} (hp : paramsOk p r = true) (h : DWord) :
    entryWf p r (hashEntry p r h) = true :=
  entryWf_packEntry hp (topBits_lt h (by have := fineWidth_le hp; omega)) (rank_lt h _ r)

theorem topBits_lt_regCount {p r : Nat} (hp : paramsOk p r = true) (h : DWord) :
    topBits h p < regCount p :=
  topBits_lt h (by have := (paramsOk_iff.mp hp).1; omega)

/-- The two ways `AddSparse` ends. -/
theorem addSparse_cases (p r : Nat) (tb sa : List Word) (h : DWord) :
    (tb.length + 1 ≠ bufferCapacity ∧
        addSparse p r tb sa h = ⟨p, r, .sparse (tb ++ [hashEntry p r h]) sa⟩) ∨
      (tb.length + 1 = bufferCapacity ∧
        addSparse p r tb sa h = Sketch.fold ⟨p, r, .sparse (tb ++ [hashEntry p r h]) sa⟩) := by
  have hlen : Sketch.tcnt ⟨p, r, .sparse (tb ++ [hashEntry p r h]) sa⟩ = tb.length + 1 := by
    simp [Sketch.tcnt]
  by_cases hc : tb.length + 1 = bufferCapacity
  · exact .inr ⟨hc, if_pos (hlen.trans hc)⟩
  · exact .inl ⟨hc, if_neg (hlen ▸ hc)⟩

theorem Sketch.add_sparse (p r : Nat) (tb sa : List Word) (h : DWord) :
    Sketch.add ⟨p, r, .sparse tb sa⟩ h = addSparse p r tb sa h := rfl

theorem Sketch.shape_add (sk : Sketch) (h : DWord) : (sk.add h).p = sk.p ∧ (sk.add h).r = sk.r := by
  rcases sk with ⟨p, r, ⟨tb, sa⟩ | words⟩
  · rw [Sketch.add_sparse]
    rcases addSparse_cases p r tb sa h with ⟨_, e⟩ | ⟨_, e⟩
    · rw [e]
      exact ⟨rfl, rfl⟩
    · rw [e]
      exact Sketch.shape_fold _
  · exact ⟨rfl, rfl⟩

theorem Sketch.mode_add_of_dense {a : Sketch} (h : a.mode = .dense) (hash : DWord) :
    (a.add hash).mode = .dense := by
  rcases a with ⟨p, r, ⟨tb, sa⟩ | words⟩
  · cases h
  · rfl

theorem Sketch.wf_add {sk : Sketch} (hw : sk.wf = true) (h : DWord) : (sk.add h).wf = true := by
  rcases sk with ⟨p, r, ⟨tb, sa⟩ | words⟩
  · obtain ⟨hp, hsp⟩ := Sketch.wf_sparse_iff.mp hw
    obtain ⟨hcap, hlen, htb, hsa, hs⟩ := sparseWf_iff.mp hsp
    have htb' : (tb ++ [hashEntry p r h]).all (entryWf p r) = true := by
      rw [List.all_append, htb]
      simp [entryWf_hashEntry hp h]
    rw [Sketch.add_sparse]
    rcases addSparse_cases p r tb sa h with ⟨hne, e⟩ | ⟨_, e⟩
    · rw [e]
      refine Sketch.wf_sparse_iff.mpr ⟨hp, sparseWf_iff.mpr ⟨?_, hlen, htb', hsa, hs⟩⟩
      rw [List.length_append, List.length_singleton]
      omega
    · rw [e]
      exact Sketch.wf_fold_sparse hp htb' hsa
  · obtain ⟨hp, hd⟩ := Sketch.wf_dense_iff.mp hw
    exact Sketch.wf_dense_iff.mpr
      ⟨hp, denseWf_updateMax (width_of_paramsOk hp) (topBits_lt_regCount hp h) hd⟩

theorem Sketch.coarse_le_add {sk : Sketch} (hw : sk.wf = true) (h : DWord) (i : Nat) :
    sk.coarse i ≤ (sk.add h).coarse i := by
  rcases sk with ⟨p, r, ⟨tb, sa⟩ | words⟩
  · have hp := (Sketch.wf_sparse_iff.mp hw).1
    have happ : Sketch.coarse ⟨p, r, .sparse tb sa⟩ i ≤
        Sketch.coarse ⟨p, r, .sparse (tb ++ [hashEntry p r h]) sa⟩ i := by
      simp only [Sketch.coarse, maxRank_append]
      omega
    rw [Sketch.add_sparse]
    rcases addSparse_cases p r tb sa h with ⟨_, e⟩ | ⟨_, e⟩
    · rw [e]
      exact happ
    · rw [e, Sketch.coarse_fold hp]
      exact happ
  · obtain ⟨hp, hd⟩ := Sketch.wf_dense_iff.mp hw
    have hr := width_of_paramsOk hp
    have hin := counter_in_words hr (topBits_lt_regCount hp h)
    show regRead r words i ≤ regRead r (updateMax r words (topBits h p) (rank h p r)) i
    rw [regRead_updateMax hr ((denseWf_iff.mp hd).1 ▸ hin) (rank_lt h p r)]
    split
    · next e => exact e ▸ le_max_left _ _
    · exact le_rfl

/-! ## `MERGE` (spec/42_merge.md R162 to R166) -/

theorem Sketch.compatible_iff {a b : Sketch} : a.compatible b = true ↔ a.p = b.p ∧ a.r = b.r := by
  simp [Sketch.compatible]

theorem Sketch.compatible_fold {a b : Sketch} (h : a.compatible b = true) :
    a.fold.compatible b.fold = true := by
  simpa [Sketch.compatible_iff] using h

theorem Sketch.compatible_self (a : Sketch) : a.compatible a = true := by
  simp [Sketch.compatible_iff]

theorem Sketch.shape_mergeFrom (a b : Sketch) :
    (a.mergeFrom b).p = a.p ∧ (a.mergeFrom b).r = a.r := by
  unfold Sketch.mergeFrom
  split
  · exact Sketch.shape_promoteIfFull _
  · exact ⟨rfl, rfl⟩
  · exact ⟨rfl, rfl⟩
  · exact ⟨rfl, rfl⟩

theorem Sketch.mode_mergeFrom_of_dense {a : Sketch} (h : a.mode = .dense) (b : Sketch) :
    (a.mergeFrom b).mode = .dense := by
  rcases a with ⟨p, r, ⟨tb, sa⟩ | words⟩
  · cases h
  · rcases b with ⟨p', r', ⟨tb', sa'⟩ | words'⟩ <;> rfl

theorem Sketch.wf_mergeFrom {a b : Sketch} (ha : a.wf = true) (hb : b.wf = true)
    (hc : a.compatible b = true) : (a.mergeFrom b).wf = true := by
  rcases a with ⟨p, r, pa⟩
  rcases b with ⟨p', r', pb⟩
  obtain ⟨rfl, rfl⟩ : p = p' ∧ r = r' := Sketch.compatible_iff.mp hc
  have hp : paramsOk p r = true := Sketch.paramsOk_of_wf ha
  rcases pa with ⟨tb, sa⟩ | words <;> rcases pb with ⟨tb', sa'⟩ | words'
  · obtain ⟨hcap, _, htb, hsa, _⟩ := sparseWf_iff.mp (Sketch.wf_sparse_iff.mp ha).2
    obtain ⟨_, _, _, hsa', _⟩ := sparseWf_iff.mp (Sketch.wf_sparse_iff.mp hb).2
    exact Sketch.wf_promoteIfFull hp hcap htb (entryWf_union hp hsa hsa') (sorted_union hp sa sa')
  · exact Sketch.wf_dense_iff.mpr ⟨hp, denseWf_mergeWords hp (denseWf_promoted hp sa)⟩
  · exact Sketch.wf_dense_iff.mpr
      ⟨hp, denseWf_foldEntries hp sa' (Sketch.wf_dense_iff.mp ha).2⟩
  · exact Sketch.wf_dense_iff.mpr ⟨hp, denseWf_mergeWords hp (Sketch.wf_dense_iff.mp ha).2⟩

/-- A merge of two sketches with empty buffers leaves the larger of the two counters at every index
(spec/42_merge.md R168). -/
theorem Sketch.coarse_mergeFrom {a b : Sketch} (ha : a.wf = true) (hc : a.compatible b = true)
    (ha0 : a.tcnt = 0) (hb0 : b.tcnt = 0) {i : Nat} (hi : i < regCount a.p) :
    (a.mergeFrom b).coarse i = max (a.coarse i) (b.coarse i) := by
  rcases a with ⟨p, r, pa⟩
  rcases b with ⟨p', r', pb⟩
  obtain ⟨rfl, rfl⟩ : p = p' ∧ r = r' := Sketch.compatible_iff.mp hc
  have hp : paramsOk p r = true := Sketch.paramsOk_of_wf ha
  rcases pa with ⟨tb, sa⟩ | words <;> rcases pb with ⟨tb', sa'⟩ | words'
  · obtain rfl := List.eq_nil_of_length_eq_zero ha0
    obtain rfl := List.eq_nil_of_length_eq_zero hb0
    exact (Sketch.coarse_promoteIfFull hp _ i).trans (maxRank_union hp _ sa sa')
  · obtain rfl := List.eq_nil_of_length_eq_zero ha0
    have hl := (length_foldEntries p r (zeroWords p r) sa).trans (length_zeroWords p r)
    exact (regRead_mergeWords hp hl hi).trans (by rw [regRead_promoted hp]; rfl)
  · obtain rfl := List.eq_nil_of_length_eq_zero hb0
    exact regRead_foldEntries hp (denseWf_iff.mp (Sketch.wf_dense_iff.mp ha).2).1 i
  · exact regRead_mergeWords hp (denseWf_iff.mp (Sketch.wf_dense_iff.mp ha).2).1 hi

end Sys2Proof.Machine
end

section
/-! PROOFS for spec/10_state.md, second part: what a command does to the contexts, said once, and the
invariants of the state that follow from it. -/

namespace Sys2Proof.Machine

/-! ## What a command can do to a context -/

/-- The command gives context `c` the content `x`, whatever the context held. -/
inductive Replacement : Instr → ContextId → Context → Prop where
  | newS (c : ContextId) (pb rb : Byte) (h : paramsOk pb.toNat rb.toNat = true) :
      Replacement (.newS c pb rb) c (some (newSparse pb.toNat rb.toNat))
  | newD (c : ContextId) (pb rb : Byte) (h : paramsOk pb.toNat rb.toNat = true) :
      Replacement (.newD c pb rb) c (some (newDense pb.toNat rb.toNat))
  | free (c : ContextId) : Replacement (.free c) c none
  | des (c : ContextId) (image : List Byte) (sk : Sketch) (h : loadTagged image = .loaded sk) :
      Replacement (.des c image) c (some sk)
  | desL (c : ContextId) (image : List Byte) (sk : Sketch) (h : loadLegacy image = .loaded sk) :
      Replacement (.desL c image) c (some sk)

/-- The command, run in `s`, turns the sketch `a` of context `c` into the second sketch. -/
inductive SketchUpdate (s : State) : Instr → ContextId → Sketch → Sketch → Prop where
  | add (c : ContextId) (hash : DWord) (a : Sketch) : SketchUpdate s (.add c hash) c a (a.add hash)
  | est (c : ContextId) (a : Sketch) : SketchUpdate s (.est c) c a a.fold
  | ser (c : ContextId) (a : Sketch) : SketchUpdate s (.ser c) c a a.fold
  | mergeSource (dst c : ContextId) (a : Sketch) (hne : c ≠ dst) :
      SketchUpdate s (.merge dst c) c a a.fold
  | mergeOther (c src : ContextId) (a b : Sketch) (hne : c ≠ src) (hb : s.sketch? src = some b)
      (hc : a.compatible b = true) : SketchUpdate s (.merge c src) c a (a.fold.mergeFrom b.fold)
  | mergeSelf (c : ContextId) (a : Sketch) :
      SketchUpdate s (.merge c c) c a (a.fold.fold.mergeFrom a.fold.fold)

/-- What a command that answers `t` leaves of `s`, and the two ways in which it changes a context. -/
structure CommandEffect (i : Instr) (s t : State) : Prop where
  length_contexts : t.contexts.length = s.contexts.length
  inputs : t.inputs = s.inputs
  context (c : ContextId) : t.context? c = s.context? c ∨
    (∃ x, t.context? c = some x ∧ Replacement i c x) ∨
      ∃ a b, s.sketch? c = some a ∧ t.sketch? c = some b ∧ SketchUpdate s i c a b

theorem CommandEffect.unchanged {i : Instr} {s t : State} (hc : t.contexts = s.contexts)
    (hi : t.inputs = s.inputs) : CommandEffect i s t :=
  ⟨by rw [hc], hi, fun c => .inl (by rw [State.context?, State.context?, hc])⟩

theorem CommandEffect.raise (i : Instr) (s : State) (e : Status) : CommandEffect i s (s.raise e) :=
  .unchanged rfl rfl

theorem CommandEffect.replaced {i : Instr} {s t : State} {c : ContextId} {x : Context}
    (hlt : c.toNat < s.contexts.length) (hc : t.contexts = (s.setContext c x).contexts)
    (hi : t.inputs = s.inputs) (hx : Replacement i c x) : CommandEffect i s t := by
  refine ⟨by rw [hc, State.setContext_contexts, List.length_set], hi, fun d => ?_⟩
  have hd : t.context? d = if d = c then some x else s.context? d := by
    rw [← State.context?_setContext x d hlt, State.context?, State.context?, hc]
  by_cases h : d = c
  · subst h
    exact .inr (.inl ⟨x, by simpa using hd, hx⟩)
  · exact .inl (by simpa [h] using hd)

theorem CommandEffect.updated {i : Instr} {s t : State} {c : ContextId} {a b : Sketch}
    (ha : s.sketch? c = some a) (hc : t.contexts = (s.setContext c (some b)).contexts)
    (hi : t.inputs = s.inputs) (hab : SketchUpdate s i c a b) : CommandEffect i s t := by
  refine ⟨by rw [hc, State.setContext_contexts, List.length_set], hi, fun d => ?_⟩
  have hd : t.context? d = if d = c then some (some b) else s.context? d := by
    rw [← State.context?_setContext (some b) d (State.lt_of_sketch? ha), State.context?,
      State.context?, hc]
  by_cases h : d = c
  · subst h
    exact .inr (.inr ⟨a, b, ha, State.sketch?_eq_some.mpr (by simpa using hd), hab⟩)
  · exact .inl (by simpa [h] using hd)

theorem create_effect {i : Instr} {s : State} {dst : ContextId} {sk : Sketch}
    (h : paramsOk sk.p sk.r = true → Replacement i dst (some sk)) :
    CommandEffect i s (s.create dst sk) := by
  rcases s.create_cases dst sk with ⟨_, e⟩ | ⟨_, _, e⟩ | ⟨hlt, hp, e⟩
  · exact e ▸ .raise ..
  · exact e ▸ .raise ..
  · exact e ▸ .replaced hlt rfl rfl (h hp)

theorem load_effect {i : Instr} {s t : State} {dst : ContextId} {result : LoadResult}
    (h : ∀ sk, result = .loaded sk → Replacement i dst (some sk))
    (ht : s.load dst result = .next t) : CommandEffect i s t := by
  rcases s.load_cases dst result with ⟨_, e⟩ | ⟨hlt, ⟨_, e⟩ | ⟨_, e⟩ | ⟨sk, hsk, e⟩⟩
  · obtain rfl := Host.Outcome.next.inj (e.symm.trans ht)
    exact .raise ..
  · obtain rfl := Host.Outcome.next.inj (e.symm.trans ht)
    exact .raise ..
  · exact nomatch e.symm.trans ht
  · obtain rfl := Host.Outcome.next.inj (e.symm.trans ht)
    exact .replaced hlt rfl rfl (h sk hsk)

theorem State.mergeContexts_length_inputs (s : State) (dst src : ContextId) :
    (s.mergeContexts dst src).contexts.length = s.contexts.length ∧
      (s.mergeContexts dst src).inputs = s.inputs := by
  unfold State.mergeContexts
  dsimp only
  split <;> simp

theorem mergeContexts_effect {s : State} {dst src : ContextId} {a b : Sketch}
    (ha : s.sketch? dst = some a) (hb : s.sketch? src = some b) (hc : a.compatible b = true) :
    CommandEffect (.merge dst src) s ((s.mergeContexts dst src).complete 0 []) := by
  obtain ⟨hlen, hin⟩ := s.mergeContexts_length_inputs dst src
  refine ⟨hlen, hin, fun c => ?_⟩
  rw [State.context?_complete, State.sketch?_complete]
  have hctx := State.context?_mergeContexts ha hb c
  by_cases hd : c = dst
  · subst hd
    rw [if_pos rfl] at hctx
    refine .inr (.inr ⟨a, _, ha, State.sketch?_eq_some.mpr hctx, ?_⟩)
    by_cases hs : c = src
    · subst hs
      simpa using SketchUpdate.mergeSelf c a
    · simpa [hs] using SketchUpdate.mergeOther c src a b hs hb hc
  · rw [if_neg hd] at hctx
    by_cases hs : c = src
    · subst hs
      rw [if_pos rfl] at hctx
      exact .inr (.inr ⟨b, _, hb, State.sketch?_eq_some.mpr hctx, .mergeSource dst c b hd⟩)
    · rw [if_neg hs] at hctx
      exact .inl hctx

/-- Every command that answers a next state has an effect of the kinds listed. -/
theorem exec_effect {i : Instr} {s t : State} (h : exec i s = .next t) : CommandEffect i s t := by
  have answer {u : State} (e : exec i s = .next u) : u = t :=
    Host.Outcome.next.inj (e.symm.trans h)
  cases i with
  | newS dst pb rb => exact answer rfl ▸ create_effect (.newS dst pb rb)
  | newD dst pb rb => exact answer rfl ▸ create_effect (.newD dst pb rb)
  | free dst =>
    rcases execFree_cases dst s with ⟨_, e⟩ | ⟨hlt, e⟩
    · exact answer e ▸ .raise ..
    · exact answer e ▸ .replaced hlt rfl rfl (.free dst)
  | add dst hash =>
    rcases execAdd_cases dst hash s with ⟨_, e⟩ | ⟨a, ha, e⟩
    · exact answer e ▸ .raise ..
    · exact answer e ▸ .updated ha rfl rfl (.add dst hash a)
  | merge dst src =>
    rcases execMerge_cases dst src s with ⟨_, e⟩ | ⟨a, b, ha, hb, ⟨_, e⟩ | ⟨hc, e⟩⟩
    · exact answer e ▸ .raise ..
    · exact answer e ▸ .raise ..
    · exact answer e ▸ mergeContexts_effect ha hb hc
  | est dst =>
    rcases execEst_cases dst s with ⟨_, e⟩ | ⟨a, ha, e⟩
    · exact answer e ▸ .raise ..
    · exact answer e ▸ .updated ha (by simp) (by simp) (.est dst a)
  | ser dst =>
    rcases execSer_cases dst s with ⟨_, e⟩ | ⟨a, ha, e⟩
    · exact answer e ▸ .raise ..
    · exact answer e ▸ .updated ha rfl rfl (.ser dst a)
  | des dst image => exact load_effect (.des dst image) h
  | serL dst =>
    rcases execSerL_cases dst s with ⟨_, e⟩ | ⟨_, _, ⟨_, _, _, e⟩ | ⟨_, _, e⟩⟩
    · exact answer e ▸ .raise ..
    · exact answer e ▸ .raise ..
    · exact answer e ▸ .unchanged rfl rfl
  | desL dst image => exact load_effect (.desL dst image) h
  | rdreg dst index =>
    rcases execRdreg_cases dst index s with
      ⟨_, e⟩ | ⟨_, _, ⟨_, _, _, e⟩ | ⟨_, _, ⟨_, e⟩ | ⟨_, e⟩⟩⟩
    · exact answer e ▸ .raise ..
    · exact answer e ▸ .raise ..
    · exact answer e ▸ .raise ..
    · exact answer e ▸ .unchanged rfl rfl
  | stat dst =>
    rcases execStat_cases dst s with ⟨_, e⟩ | ⟨_, _, e⟩
    · exact answer e ▸ .raise ..
    · exact answer e ▸ .unchanged rfl rfl

/-! ## Only named contexts change (R20) -/

theorem Replacement.replaces {i : Instr} {c : ContextId} {x : Context} (h : Replacement i c x) :
    i.replaces = true ∧ c ∈ i.names := by
  cases h <;> exact ⟨rfl, List.mem_singleton_self c⟩

theorem SketchUpdate.mem_names {s : State} {i : Instr} {c : ContextId} {a b : Sketch}
    (h : SketchUpdate s i c a b) : c ∈ i.names := by
  cases h <;> simp [Instr.names]

/-- Settles O19: both ways of changing a context name it. -/
theorem otherContextsAreUnchanged : Obligations.OtherContextsAreUnchanged := by
  intro i s t h
  obtain ⟨hlen, hin, hctx⟩ := exec_effect h
  refine ⟨hlen, hin, fun c hc => ?_⟩
  rcases hctx c with e | ⟨x, _, hx⟩ | ⟨a, b, _, _, hab⟩
  · exact e
  · exact absurd hx.replaces.2 hc
  · exact absurd hab.mem_names hc

/-! ## Well-formedness (R44) -/

theorem newSparse_wf {p r : Nat} (h : paramsOk p r = true) : (newSparse p r).wf = true :=
  Sketch.wf_sparse_iff.mpr
    ⟨h, sparseWf_iff.mpr ⟨by decide, regCount_pos p, rfl, rfl, List.Pairwise.nil⟩⟩

theorem newDense_wf {p r : Nat} (h : paramsOk p r = true) : (newDense p r).wf = true :=
  Sketch.wf_dense_iff.mpr ⟨h, denseWf_zeroWords p r⟩

theorem contentChecked_loaded {sk sk' : Sketch} (h : contentChecked sk = .loaded sk') :
    sk'.wf = true := by
  unfold contentChecked at h
  split at h
  · next hw => exact LoadResult.loaded.inj h ▸ hw
  · cases h

theorem loadDense_loaded {p r : Nat} {payload : List Byte} {sk : Sketch}
    (h : loadDense p r payload = .loaded sk) : sk.wf = true := by
  unfold loadDense at h
  split at h
  · cases h
  · exact contentChecked_loaded h

theorem loadSparse_loaded {p r : Nat} {payload : List Byte} {sk : Sketch}
    (h : loadSparse p r payload = .loaded sk) : sk.wf = true := by
  unfold loadSparse at h
  split at h
  · cases h
  · exact contentChecked_loaded h

theorem loadTagged_loaded {image : List Byte} {sk : Sketch} (h : loadTagged image = .loaded sk) :
    sk.wf = true := by
  unfold loadTagged at h
  split at h
  · split at h
    · cases h
    · split at h
      · cases h
      · split at h
        · exact loadDense_loaded h
        · exact loadSparse_loaded h
  · cases h

theorem loadLegacy_loaded {image : List Byte} {sk : Sketch} (h : loadLegacy image = .loaded sk) :
    sk.wf = true := by
  unfold loadLegacy at h
  split at h
  · cases h
  · dsimp only at h
    split at h
    · cases h
    · exact loadDense_loaded h

theorem Replacement.contextWf {i : Instr} {c : ContextId} {x : Context} (h : Replacement i c x) :
    contextWf x = true := by
  cases h with
  | newS _ _ _ hp => exact newSparse_wf hp
  | newD _ _ _ hp => exact newDense_wf hp
  | free => rfl
  | des _ _ _ hl => exact loadTagged_loaded hl
  | desL _ _ _ hl => exact loadLegacy_loaded hl

/-- A context of a well-formed state is well formed. -/
theorem State.contextWf_of_wf {s : State} (h : s.wf = true) {c : ContextId} {x : Context}
    (hx : s.context? c = some x) : contextWf x = true :=
  (State.wf_iff.mp h).2.2 x (List.mem_of_getElem? hx)

theorem State.sketch_wf_of_wf {s : State} (h : s.wf = true) {c : ContextId} {sk : Sketch}
    (hsk : s.sketch? c = some sk) : sk.wf = true :=
  State.contextWf_of_wf h (State.sketch?_eq_some.mp hsk)

/-- With at most 16 contexts each of them has a 4-bit number. -/
theorem State.exists_context_of_mem {s : State} (h : s.contexts.length ≤ 16) {x : Context}
    (hx : x ∈ s.contexts) : ∃ c : ContextId, s.context? c = some x := by
  obtain ⟨k, hk⟩ := List.mem_iff_getElem?.mp hx
  have hlt := (List.getElem?_eq_some_iff.mp hk).1
  refine ⟨BitVec.ofNat 4 k, ?_⟩
  rwa [State.context?, BitVec.toNat_ofNat, Nat.mod_eq_of_lt (by omega)]

theorem SketchUpdate.wf {s : State} {i : Instr} {c : ContextId} {a b : Sketch}
    (h : SketchUpdate s i c a b) (hs : s.wf = true) (ha : a.wf = true) : b.wf = true := by
  cases h with
  | add _ hash => exact Sketch.wf_add ha hash
  | est => exact Sketch.wf_fold ha
  | ser => exact Sketch.wf_fold ha
  | mergeSource => exact Sketch.wf_fold ha
  | mergeOther _ _ _ b _ hb hc =>
    exact Sketch.wf_mergeFrom (Sketch.wf_fold ha) (Sketch.wf_fold (State.sketch_wf_of_wf hs hb))
      (Sketch.compatible_fold hc)
  | mergeSelf =>
    have hff := Sketch.wf_fold (Sketch.wf_fold ha)
    exact Sketch.wf_mergeFrom hff hff (Sketch.compatible_self _)

theorem CommandEffect.wf {i : Instr} {s t : State} (h : CommandEffect i s t) (hs : s.wf = true) :
    t.wf = true := by
  obtain ⟨hlo, hhi, _⟩ := State.wf_iff.mp hs
  rw [State.wf_iff, h.length_contexts]
  refine ⟨hlo, hhi, fun x hx => ?_⟩
  obtain ⟨c, hc⟩ := State.exists_context_of_mem (h.length_contexts ▸ hhi) hx
  rcases h.context c with e | ⟨y, hy, hr⟩ | ⟨a, b, ha, hb, hab⟩
  · exact State.contextWf_of_wf hs (e.symm.trans hc)
  · obtain rfl := Option.some.inj (hy.symm.trans hc)
    exact hr.contextWf
  · obtain rfl := Option.some.inj ((State.sketch?_eq_some.mp hb).symm.trans hc)
    exact hab.wf hs (State.sketch_wf_of_wf hs ha)

theorem State.wf_resetBlock {s : State} (h : s.wf = true) : s.resetBlock.wf = true := by
  obtain ⟨hlo, hhi, _⟩ := State.wf_iff.mp h
  rw [State.wf_iff, State.resetBlock]
  simp only [List.length_map]
  refine ⟨hlo, hhi, fun x hx => ?_⟩
  obtain ⟨_, _, rfl⟩ := List.mem_map.mp hx
  rfl

theorem runCommand_wf {c : Command} {s t : State} (hs : s.wf = true)
    (h : runCommand c s = .next t) : t.wf = true := by
  unfold runCommand at h
  split at h
  · exact Host.Outcome.next.inj h ▸ hs
  · exact (exec_effect h).wf hs

/-- Settles O9: waiting and an illegal triple keep the contexts, a reset empties them, and every
effect of a command keeps them well formed. -/
theorem stepKeepsStateWellFormed : Obligations.StepKeepsStateWellFormed := by
  intro s t hs h
  unfold step at h
  split at h
  · exact Host.Outcome.next.inj h ▸ hs
  · next rest _ =>
    exact Host.Outcome.next.inj h ▸ State.wf_resetBlock (s := { s with inputs := rest }) hs
  · next c rest _ => exact runCommand_wf (s := { s with inputs := rest }) hs h

/-! ## What becomes of a sketch that no command replaces (R35, R37, R38) -/

/-- Such a sketch stays as it is or is updated. -/
theorem exec_keeps_sketch {i : Instr} {s t : State} {c : ContextId} {a : Sketch}
    (h : exec i s = .next t) (ha : s.sketch? c = some a)
    (hn : ¬ (i.replaces = true ∧ c ∈ i.names)) :
    ∃ b, t.sketch? c = some b ∧ (b = a ∨ SketchUpdate s i c a b) := by
  rcases (exec_effect h).context c with e | ⟨x, _, hx⟩ | ⟨a', b, ha', hb, hab⟩
  · exact ⟨a, by rwa [State.sketch?, e], .inl rfl⟩
  · exact absurd hx.replaces hn
  · obtain rfl := Option.some.inj (ha.symm.trans ha')
    exact ⟨b, hb, .inr hab⟩

theorem SketchUpdate.shape {s : State} {i : Instr} {c : ContextId} {a b : Sketch}
    (h : SketchUpdate s i c a b) : b.p = a.p ∧ b.r = a.r := by
  cases h with
  | add _ hash => exact a.shape_add hash
  | est => exact a.shape_fold
  | ser => exact a.shape_fold
  | mergeSource => exact a.shape_fold
  | mergeOther => simpa using a.fold.shape_mergeFrom _
  | mergeSelf => simpa using a.fold.fold.shape_mergeFrom _

/-- Settles O16: no update of a sketch touches its shape. -/
theorem shapeIsImmutable : Obligations.ShapeIsImmutable := by
  intro i s t c a h ha hn
  obtain ⟨b, hb, rfl | hab⟩ := exec_keeps_sketch h ha hn
  · exact ⟨b, hb, rfl, rfl⟩
  · exact ⟨b, hb, hab.shape⟩

/-! ## Promotion is irreversible (R24, R38, R140) -/

theorem SketchUpdate.mode_of_dense {s : State} {i : Instr} {c : ContextId} {a b : Sketch}
    (h : SketchUpdate s i c a b) (ha : a.mode = .dense) : b.mode = .dense := by
  have hf := Sketch.mode_fold_of_dense ha
  cases h with
  | add _ hash => exact Sketch.mode_add_of_dense ha hash
  | est => exact hf
  | ser => exact hf
  | mergeSource => exact hf
  | mergeOther => exact Sketch.mode_mergeFrom_of_dense hf _
  | mergeSelf => exact Sketch.mode_mergeFrom_of_dense (Sketch.mode_fold_of_dense hf) _

/-- Only `ADD`, `MERGE`, `EST` and `SER` update a sketch. -/
theorem SketchUpdate.command {s : State} {i : Instr} {c : ContextId} {a b : Sketch}
    (h : SketchUpdate s i c a b) :
    (∃ dst h, i = .add dst h) ∨ (∃ dst src, i = .merge dst src) ∨ (∃ dst, i = .est dst) ∨
      ∃ dst, i = .ser dst := by
  cases h <;> simp

/-- Settles O17: every update keeps Dense mode, and only the four commands update. -/
theorem promotionIsIrreversible : Obligations.PromotionIsIrreversible := by
  intro i s t c a h ha hn
  obtain ⟨b, hb, rfl | hab⟩ := exec_keeps_sketch h ha hn
  · exact ⟨b, hb, id, fun hne => absurd rfl hne⟩
  · exact ⟨b, hb, hab.mode_of_dense, fun _ => ⟨hab.mem_names, hab.command⟩⟩

/-! ## Monotone counters (R35) -/

/-- A merge of two folded sketches lowers no counter of the destination. -/
theorem Sketch.coarse_le_mergeFrom_fold {a b : Sketch} (ha : a.wf = true)
    (hc : a.compatible b = true) {k : Nat} (hk : k < regCount a.p) :
    a.coarse k ≤ (a.fold.mergeFrom b.fold).coarse k := by
  rw [Sketch.coarse_mergeFrom (Sketch.wf_fold ha) (Sketch.compatible_fold hc) a.tcnt_fold
    b.tcnt_fold (by rwa [Sketch.p_fold]), Sketch.coarse_fold (Sketch.paramsOk_of_wf ha)]
  exact le_max_left _ _

theorem SketchUpdate.coarse_le {s : State} {i : Instr} {c : ContextId} {a b : Sketch}
    (h : SketchUpdate s i c a b) (ha : a.wf = true) {k : Nat} (hk : k < regCount a.p) :
    a.coarse k ≤ b.coarse k := by
  have hf : a.fold.coarse k = a.coarse k := Sketch.coarse_fold (Sketch.paramsOk_of_wf ha) k
  cases h with
  | add _ hash => exact Sketch.coarse_le_add ha hash k
  | est => exact hf.ge
  | ser => exact hf.ge
  | mergeSource => exact hf.ge
  | mergeOther _ _ _ _ _ _ hc => exact Sketch.coarse_le_mergeFrom_fold ha hc hk
  | mergeSelf =>
    exact hf ▸ Sketch.coarse_le_mergeFrom_fold (Sketch.wf_fold ha) (Sketch.compatible_self _)
      (by rwa [Sketch.p_fold])

/-- Settles O18: a fold keeps the coarse content, and `ADD` and `MERGE` take a maximum. -/
theorem countersNeverDecrease : Obligations.CountersNeverDecrease := by
  intro i s t c a hs h ha hn
  obtain ⟨b, hb, rfl | hab⟩ := exec_keeps_sketch h ha hn
  · exact ⟨b, hb, fun _ _ => le_rfl⟩
  · exact ⟨b, hb, fun _ hk => hab.coarse_le (State.sketch_wf_of_wf hs ha) hk⟩

end Sys2Proof.Machine
end

section
/-! PROOFS for spec/20_memory.md, first part: a command reads only the contexts it names and writes
only them. Said once as a patch of the state, it gives that a step sees no later event (R70) and that
commands on disjoint contexts commute (R72). -/

namespace Sys2Proof.Machine

/-! ## Writing contexts -/

/-- The contexts after writes in order, each of one context. -/
def writeContexts (contexts : List Context) (writes : List (ContextId × Context)) : List Context :=
  writes.foldl (fun cs w => cs.set w.1.toNat w.2) contexts

@[simp] theorem writeContexts_nil (cs : List Context) : writeContexts cs [] = cs := rfl

@[simp] theorem writeContexts_cons (cs : List Context) (w : ContextId × Context)
    (ws : List (ContextId × Context)) :
    writeContexts cs (w :: ws) = writeContexts (cs.set w.1.toNat w.2) ws := rfl

/-- A write commutes with writes of other contexts. -/
theorem set_writeContexts {c : ContextId} {ws : List (ContextId × Context)}
    (h : ∀ w ∈ ws, w.1 ≠ c) (cs : List Context) (x : Context) :
    (writeContexts cs ws).set c.toNat x = writeContexts (cs.set c.toNat x) ws := by
  induction ws generalizing cs with
  | nil => rfl
  | cons w ws ih =>
    obtain ⟨hw, hws⟩ := List.forall_mem_cons.mp h
    have hne : w.1.toNat ≠ c.toNat := fun e => hw (BitVec.eq_of_toNat_eq e)
    rw [writeContexts_cons, writeContexts_cons, ih hws, List.set_comm _ _ hne]

theorem writeContexts_comm {ws vs : List (ContextId × Context)}
    (h : ∀ w ∈ ws, ∀ v ∈ vs, w.1 ≠ v.1) (cs : List Context) :
    writeContexts (writeContexts cs ws) vs = writeContexts (writeContexts cs vs) ws := by
  induction vs generalizing cs with
  | nil => rfl
  | cons v vs ih =>
    have hv : ∀ w ∈ ws, w.1 ≠ v.1 := fun w hw => h w hw v List.mem_cons_self
    rw [writeContexts_cons, writeContexts_cons, set_writeContexts hv,
      ih fun w hw v hv => h w hw v (List.mem_cons_of_mem _ hv)]

/-! ## Patches -/

/-- All that a command does to a state: contexts written in order, the response, and how many free
values it draws. -/
structure Patch where
  writes : List (ContextId × Context)
  answer : Response
  drawn  : Nat

def Patch.apply (δ : Patch) (s : State) : State :=
  { s with
    contexts := writeContexts s.contexts δ.writes
    response := some δ.answer
    draws := s.draws + δ.drawn }

@[simp] theorem Patch.apply_contexts (δ : Patch) (s : State) :
    (δ.apply s).contexts = writeContexts s.contexts δ.writes := rfl

@[simp] theorem Patch.apply_inputs (δ : Patch) (s : State) : (δ.apply s).inputs = s.inputs := rfl

@[simp] theorem Patch.apply_response (δ : Patch) (s : State) :
    (δ.apply s).response = some δ.answer := rfl

@[simp] theorem Patch.apply_draws (δ : Patch) (s : State) :
    (δ.apply s).draws = s.draws + δ.drawn := rfl

/-- The two states agree on the contexts `cs`. -/
def AgreeOn (cs : List ContextId) (s u : State) : Prop := ∀ c ∈ cs, u.context? c = s.context? c

theorem AgreeOn.sketch? {cs : List ContextId} {s u : State} (h : AgreeOn cs s u) {c : ContextId}
    (hc : c ∈ cs) : u.sketch? c = s.sketch? c := by
  rw [State.sketch?, State.sketch?, h c hc]

/-- In every state that agrees with `s` on the contexts `cs`, the meaning `f` is one and the same patch,
and it writes no other context. A patch that draws free values is the same only where as many were
drawn before. -/
def LocalAt (cs : List ContextId) (s : State) (f : State → Result) : Prop :=
  ∃ δ : Patch, (∀ w ∈ δ.writes, w.1 ∈ cs) ∧
    ∀ u, AgreeOn cs s u → (δ.drawn = 0 ∨ u.draws = s.draws) → f u = .next (δ.apply u)

/-! ## The ways a command ends are local -/

section
variable {cs : List ContextId} {s : State} {c : ContextId}

theorem LocalAt.congr {f g : State → Result} (hg : LocalAt cs s g)
    (h : ∀ u, AgreeOn cs s u → f u = g u) : LocalAt cs s f := by
  obtain ⟨δ, hw, hδ⟩ := hg
  exact ⟨δ, hw, fun u hu hd => (h u hu).trans (hδ u hu hd)⟩

theorem LocalAt.patch (δ : Patch) (hw : ∀ w ∈ δ.writes, w.1 ∈ cs) :
    LocalAt cs s fun u => .next (δ.apply u) :=
  ⟨δ, hw, fun _ _ _ => rfl⟩

theorem LocalAt.raise (e : Status) : LocalAt cs s fun u => .next (u.raise e) :=
  .patch ⟨[], ⟨e, 0, []⟩, 0⟩ nofun

theorem LocalAt.complete (v : DWord) (o : List Byte) : LocalAt cs s fun u => .next (u.complete v o) :=
  .patch ⟨[], ⟨.ok, v, o⟩, 0⟩ nofun

theorem LocalAt.setContext (hc : c ∈ cs) (x : Context) (v : DWord) (o : List Byte) :
    LocalAt cs s fun u => .next ((u.setContext c x).complete v o) :=
  .patch ⟨[(c, x)], ⟨.ok, v, o⟩, 0⟩ (List.forall_mem_singleton.mpr hc)

/-- `EST` draws a free value where no rule gives the estimate (spec/43_estimator.md R189). -/
theorem LocalAt.completeEstimate (hc : c ∈ cs) (x : Context) (estimate : Option DWord) :
    LocalAt cs s fun u => .next ((u.setContext c x).completeEstimate estimate) := by
  cases estimate with
  | some v => exact .setContext hc x v []
  | none =>
    refine ⟨⟨[(c, x)], ⟨.ok, Config.freeEstimate s.draws, []⟩, 1⟩, List.forall_mem_singleton.mpr hc,
      fun u _ hd => ?_⟩
    have hu : u.draws = s.draws := hd.resolve_left Nat.one_ne_zero
    rw [← hu]
    rfl

theorem LocalAt.ite {p : Prop} [Decidable p] {f g : State → State}
    (hf : LocalAt cs s fun u => .next (f u)) (hg : LocalAt cs s fun u => .next (g u)) :
    LocalAt cs s fun u => .next (if p then f u else g u) := by
  by_cases h : p
  · simpa only [if_pos h] using hf
  · simpa only [if_neg h] using hg

theorem LocalAt.withContext (hc : c ∈ cs) {k : State → State}
    (hk : LocalAt cs s fun u => .next (k u)) :
    LocalAt cs s fun u => .next (u.withContext c (k u)) := by
  rcases hs : s.context? c with _ | x
  · exact (LocalAt.raise .badOperand).congr fun u hu => by
      simp only [State.withContext, hu c hc, hs]
  · exact hk.congr fun u hu => by simp only [State.withContext, hu c hc, hs]

theorem LocalAt.withSketch (hc : c ∈ cs) {k : Sketch → State → State}
    (hk : ∀ a, s.sketch? c = some a → LocalAt cs s fun u => .next (k a u)) :
    LocalAt cs s fun u => .next (u.withSketch c fun a => k a u) := by
  rcases hs : s.sketch? c with _ | a
  · exact (LocalAt.raise .badOperand).congr fun u hu => by
      rw [State.withSketch_of_none ((hu.sketch? hc).trans hs)]
  · exact (hk a hs).congr fun u hu => by
      rw [State.withSketch_of_some ((hu.sketch? hc).trans hs)]

theorem LocalAt.create (hc : c ∈ cs) (sk : Sketch) : LocalAt cs s fun u => .next (u.create c sk) :=
  .withContext hc (.ite (.setContext hc _ _ _) (.raise _))

/-- A load that is not refused is local. -/
theorem LocalAt.load (hc : c ∈ cs) {result : LoadResult} {t : State}
    (h : s.load c result = .next t) : LocalAt cs s fun u => u.load c result := by
  cases result with
  | loaded sk => exact .withContext hc (.setContext hc _ _ _)
  | formatError => exact .withContext hc (.raise _)
  | undefinedContent =>
    rcases hs : s.context? c with _ | x
    · exact (LocalAt.raise .badOperand).congr fun u hu => by simp only [State.load, hu c hc, hs]
    · simp only [State.load, hs, reduceCtorEq] at h

end

/-! ## Merging -/

theorem State.sketch?_setContext_same {s : State} {c : ContextId} {a : Sketch}
    (h : s.sketch? c = some a) (b : Sketch) : (s.setContext c (some b)).sketch? c = some b :=
  (State.sketch?_setContext _ c (State.lt_of_sketch? h)).trans (if_pos rfl)

theorem State.sketch?_setContext_other {s : State} {c d : ContextId} {a : Sketch}
    (h : s.sketch? c = some a) (hd : d ≠ c) (x : Context) :
    (s.setContext c x).sketch? d = s.sketch? d :=
  (State.sketch?_setContext x d (State.lt_of_sketch? h)).trans (if_neg hd)

/-- Changing a sketch that is there sets its context. -/
theorem State.updateSketch_of_some {s : State} {c : ContextId} {a : Sketch}
    (h : s.sketch? c = some a) (f : Sketch → Sketch) :
    s.updateSketch c f = s.setContext c (some (f a)) := by
  have ha : s.contexts[c.toNat]? = some (some a) := State.sketch?_eq_some.mp h
  rw [State.updateSketch, State.setContext, List.modify_eq_set_getElem?, ha]
  rfl

/-- What a merge of the sketches `a` and `b` writes: the two folds, destination first, and then the
merged destination. A context merged with itself is folded twice. -/
def mergeWrites (dst src : ContextId) (a b : Sketch) : List (ContextId × Context) :=
  if dst = src then
    [(dst, some a.fold), (dst, some a.fold.fold), (dst, some (a.fold.fold.mergeFrom a.fold.fold))]
  else [(dst, some a.fold), (src, some b.fold), (dst, some (a.fold.mergeFrom b.fold))]

theorem mem_of_mem_mergeWrites {dst src : ContextId} {a b : Sketch} {w : ContextId × Context}
    (h : w ∈ mergeWrites dst src a b) : w.1 ∈ [dst, src] := by
  unfold mergeWrites at h
  split at h <;> simp only [List.mem_cons, List.not_mem_nil, or_false] at h <;>
    rcases h with rfl | rfl | rfl <;> simp

theorem State.mergeContexts_eq {s : State} {dst src : ContextId} {a b : Sketch}
    (ha : s.sketch? dst = some a) (hb : s.sketch? src = some b) :
    s.mergeContexts dst src =
      { s with contexts := writeContexts s.contexts (mergeWrites dst src a b) } := by
  have hfold := State.sketch?_setContext_same ha a.fold
  by_cases h : dst = src
  · subst h
    have hfold' := State.sketch?_setContext_same hfold a.fold.fold
    simp only [State.mergeContexts, State.updateSketch_of_some ha, State.updateSketch_of_some hfold,
      hfold', State.updateSketch_of_some hfold', mergeWrites, if_true]
    rfl
  · have hsrc := (State.sketch?_setContext_other ha (Ne.symm h) (some a.fold)).trans hb
    have hsrc' := State.sketch?_setContext_same hsrc b.fold
    have hdst := (State.sketch?_setContext_other hsrc h (some b.fold)).trans hfold
    simp only [State.mergeContexts, State.updateSketch_of_some ha, State.updateSketch_of_some hsrc,
      hsrc', State.updateSketch_of_some hdst, mergeWrites, if_neg h]
    rfl

theorem LocalAt.mergeContexts {s : State} {dst src : ContextId} {a b : Sketch}
    (ha : s.sketch? dst = some a) (hb : s.sketch? src = some b) :
    LocalAt [dst, src] s fun u => .next ((u.mergeContexts dst src).complete 0 []) := by
  refine (LocalAt.patch ⟨mergeWrites dst src a b, ⟨.ok, 0, []⟩, 0⟩
    fun _ => mem_of_mem_mergeWrites).congr fun u hu => ?_
  have hdst : u.sketch? dst = some a := (hu.sketch? List.mem_cons_self).trans ha
  have hsrc : u.sketch? src = some b := (hu.sketch? (by simp)).trans hb
  rw [State.mergeContexts_eq hdst hsrc]
  rfl

/-! ## Every command is local (R70, R72) -/

/-- A command that answers a next state does so by a patch that depends on the contexts it names, and
on how many free values were drawn before if it draws one. -/
theorem exec_local {i : Instr} {s t : State} (h : exec i s = .next t) :
    LocalAt i.names s (exec i) := by
  cases i with
  | newS dst pb rb => exact .create (List.mem_singleton_self dst) (newSparse pb.toNat rb.toNat)
  | newD dst pb rb => exact .create (List.mem_singleton_self dst) (newDense pb.toNat rb.toNat)
  | free dst =>
    have hd := List.mem_singleton_self dst
    exact .withContext hd (.setContext hd none 0 [])
  | add dst hash =>
    have hd := List.mem_singleton_self dst
    exact .withSketch hd fun a _ => .setContext hd (some (a.add hash)) 0 []
  | merge dst src =>
    have hd : dst ∈ [dst, src] := List.mem_cons_self
    have hs : src ∈ [dst, src] := List.mem_cons_of_mem _ (List.mem_singleton_self src)
    exact .withSketch hd fun a ha => .withSketch hs fun b hb =>
      .ite (.mergeContexts ha hb) (.raise _)
  | est dst =>
    have hd := List.mem_singleton_self dst
    exact .withSketch hd fun a _ => .completeEstimate hd (some a.fold) a.fold.estimate
  | ser dst =>
    have hd := List.mem_singleton_self dst
    exact .withSketch hd fun a _ => .setContext hd (some a.fold) _ (taggedImage a.fold)
  | des dst image => exact .load (List.mem_singleton_self dst) h
  | serL dst =>
    refine .withSketch (List.mem_singleton_self dst) fun a _ => ?_
    rcases a with ⟨p, r, ⟨_, _⟩ | words⟩
    · exact .raise _
    · exact .complete _ _
  | desL dst image => exact .load (List.mem_singleton_self dst) h
  | rdreg dst index =>
    refine .withSketch (List.mem_singleton_self dst) fun a _ => ?_
    rcases a with ⟨p, r, ⟨_, _⟩ | words⟩
    · exact .raise _
    · exact .ite (.raise _) (.complete _ _)
  | stat dst =>
    have hd := List.mem_singleton_self dst
    rcases execStat_cases dst s with ⟨hx, _⟩ | ⟨x, hx, _⟩
    · exact (LocalAt.raise .badOperand).congr fun u hu => by
        simp only [exec, execStat, hu dst hd, hx]
    · exact (LocalAt.complete (statWord x) []).congr fun u hu => by
        simp only [exec, execStat, hu dst hd, hx]

/-- The patch of a command that answers `t`, with `t` as its result. -/
theorem exec_patch {i : Instr} {s t : State} (h : exec i s = .next t) :
    ∃ δ : Patch, (∀ w ∈ δ.writes, w.1 ∈ i.names) ∧ t = δ.apply s ∧
      ∀ u, AgreeOn i.names s u → (t.draws = s.draws ∨ u.draws = s.draws) →
        exec i u = .next (δ.apply u) := by
  obtain ⟨δ, hw, hδ⟩ := exec_local h
  obtain rfl := Host.Outcome.next.inj (h.symm.trans (hδ s (fun _ _ => rfl) (.inr rfl)))
  exact ⟨δ, hw, rfl, fun u hu hd => hδ u hu (hd.imp_left Nat.add_eq_left.mp)⟩

/-! ## Later events are unseen (R70) -/

theorem step_of_command {s : State} {c : Command} {rest : List HostEvent}
    (h : s.inputs = .command c :: rest) : step s = runCommand c { s with inputs := rest } := by
  simp only [step, h]

/-- A command keeps the events that are still to come and does the same before any others. -/
theorem runCommand_inputs {c : Command} {s t : State} (h : runCommand c s = .next t)
    (rest : List HostEvent) :
    t.inputs = s.inputs ∧
      runCommand c { s with inputs := rest } = .next { t with inputs := rest } := by
  unfold runCommand at h ⊢
  split at h
  · obtain rfl := Host.Outcome.next.inj h
    exact ⟨rfl, rfl⟩
  · obtain ⟨δ, _, rfl, hδ⟩ := exec_patch h
    exact ⟨rfl, hδ { s with inputs := rest } (fun _ _ => rfl) (.inr rfl)⟩

/-- Settles O8: a reset touches no event, and a command reads only the contexts it names. -/
theorem laterEventsAreUnseen : Obligations.LaterEventsAreUnseen := by
  intro s t e rest rest' hs h
  cases e with
  | reset =>
    simp only [step, hs] at h
    obtain rfl := Host.Outcome.next.inj h
    exact ⟨rfl, rfl⟩
  | command c => exact runCommand_inputs ((step_of_command hs).symm.trans h) rest'

/-- Settles O5: decoding a command gives its meaning. -/
theorem stepRunsDecodedCommand : Obligations.StepRunsDecodedCommand := by
  intro s c rest i hs hd _
  rw [step_of_command hs, runCommand, hd]

/-! ## Disjoint commands commute (R72) -/

/-- A command leaves the contexts of a command that names none of its own. -/
theorem agreeOn_of_disjoint {i : Instr} {cs : List ContextId} {s t : State} (h : exec i s = .next t)
    (hd : ∀ c ∈ cs, c ∉ i.names) : AgreeOn cs s t :=
  fun c hc => (otherContextsAreUnchanged i s t h).2.2 c (hd c hc)

/-- Settles O20: each command's patch is the same before and after the other command, and patches of
disjoint contexts commute. -/
theorem disjointCommandsCommute : Obligations.DisjointCommandsCommute := by
  intro i j s si sj hd hi hj hdraws
  have hij : AgreeOn j.names s si := agreeOn_of_disjoint hi fun c hcj hci => hd c hci hcj
  have hji : AgreeOn i.names s sj := agreeOn_of_disjoint hj hd
  obtain ⟨δ, hδw, rfl, hδ⟩ := exec_patch hi
  obtain ⟨ε, hεw, rfl, hε⟩ := exec_patch hj
  refine ⟨_, _, hε _ hij hdraws.symm, hδ _ hji hdraws, ?_, ?_, rfl, rfl⟩
  · exact writeContexts_comm (fun w hw v hv e => hd _ (hδw w hw) (e ▸ hεw v hv)) s.contexts
  · exact Nat.add_right_comm s.draws δ.drawn ε.drawn

end Sys2Proof.Machine
end

section
/-! PROOFS for spec/20_memory.md, second part: `SER` and `EST` leave a folded sketch (R64), so a second
one finds nothing to fold. -/

namespace Sys2Proof.Machine

/-! ## Folding a folded sketch -/

theorem union_nil_of_sorted {p r : Nat} {sa : List Word} (hs : Sorted p sa) :
    union p r sa [] = sa :=
  (merge2_nil_right p r (sortDedup p r sa)).trans (sortDedup_of_sorted hs)

/-- A well-formed sketch with an empty buffer has nothing to fold. -/
theorem Sketch.fold_of_empty_buffer {sk : Sketch} (hw : sk.wf = true) (h0 : sk.tcnt = 0) :
    sk.fold = sk := by
  rcases sk with ⟨p, r, ⟨tb, sa⟩ | words⟩
  · obtain rfl := List.eq_nil_of_length_eq_zero h0
    obtain ⟨_, hlen, _, _, hs⟩ := sparseWf_iff.mp (Sketch.wf_sparse_iff.mp hw).2
    rw [Sketch.fold_sparse, union_nil_of_sorted hs]
    exact if_neg (Nat.not_le.mpr hlen)
  · rfl

theorem Sketch.fold_fold {sk : Sketch} (hw : sk.wf = true) : sk.fold.fold = sk.fold :=
  Sketch.fold_of_empty_buffer (Sketch.wf_fold hw) sk.tcnt_fold

/-- Setting a context to what it holds changes nothing. -/
theorem State.setContext_of_sketch? {s : State} {c : ContextId} {a : Sketch}
    (h : s.sketch? c = some a) : s.setContext c (some a) = s := by
  obtain ⟨hlt, ha⟩ := List.getElem?_eq_some_iff.mp (State.sketch?_eq_some.mp h)
  rw [State.setContext, ← ha, List.set_getElem_self]

/-! ## A second `SER` or `EST` (R286) -/

theorem exec_ser_of_folded {s : State} {dst : ContextId} {a : Sketch} (ha : s.sketch? dst = some a)
    (hf : a.fold = a) : exec (.ser dst) s = .next (s.completeImage (taggedImage a)) := by
  rw [exec, execSer, State.withSketch_of_some ha, hf, State.setContext_of_sketch? ha]

theorem exec_est_of_folded {s : State} {dst : ContextId} {a : Sketch} (ha : s.sketch? dst = some a)
    (hf : a.fold = a) : exec (.est dst) s = .next (s.completeEstimate a.estimate) := by
  rw [exec, execEst, State.withSketch_of_some ha, hf, State.setContext_of_sketch? ha]

@[simp] theorem State.sketch?_completeEstimate (s : State) (v : Option DWord) (c : ContextId) :
    (s.completeEstimate v).sketch? c = s.sketch? c := by
  cases v <;> rfl

/-- Ending twice with one estimate is ending once, unless the first end drew a free value (R189). -/
theorem State.completeEstimate_twice {s : State} {v : Option DWord}
    (h : (s.completeEstimate v).draws = s.draws) :
    (s.completeEstimate v).completeEstimate v = s.completeEstimate v := by
  cases v with
  | some v => rfl
  | none => exact absurd h (Nat.succ_ne_self s.draws)

/-- A `SER` that follows a `SER` leaves the state that it finds. -/
theorem exec_ser_after_ser {s t : State} {dst : ContextId} (hs : s.wf = true)
    (h : exec (.ser dst) s = .next t) : exec (.ser dst) t = .next t := by
  rcases execSer_cases dst s with ⟨hn, e⟩ | ⟨a, ha, e⟩ <;>
    obtain rfl := Host.Outcome.next.inj (e.symm.trans h)
  · exact congrArg Host.Outcome.next (State.withSketch_of_none hn)
  · exact exec_ser_of_folded (State.sketch?_setContext_same ha a.fold)
      (Sketch.fold_fold (State.sketch_wf_of_wf hs ha))

/-- An `EST` that follows an `EST` changes no context, and nothing where a rule gives the estimate. -/
theorem exec_est_after_est {s t : State} {dst : ContextId} (hs : s.wf = true)
    (h : exec (.est dst) s = .next t) :
    ∃ u, exec (.est dst) t = .next u ∧ u.contexts = t.contexts ∧ (t.draws = s.draws → u = t) := by
  rcases execEst_cases dst s with ⟨hn, e⟩ | ⟨a, ha, e⟩ <;>
    obtain rfl := Host.Outcome.next.inj (e.symm.trans h)
  · exact ⟨_, congrArg Host.Outcome.next (State.withSketch_of_none hn), rfl, fun _ => rfl⟩
  · have hfold := (State.sketch?_completeEstimate _ a.fold.estimate dst).trans
      (State.sketch?_setContext_same ha a.fold)
    exact ⟨_, exec_est_of_folded hfold (Sketch.fold_fold (State.sketch_wf_of_wf hs ha)),
      State.completeEstimate_contexts _ _, State.completeEstimate_twice⟩

/-- Settles O34: the first command folds, and folding again changes nothing. -/
theorem secondEstOrSerChangesNothing : Obligations.SecondEstOrSerChangesNothing :=
  fun _ _ _ hs => ⟨exec_ser_after_ser hs, exec_est_after_est hs⟩

end Sys2Proof.Machine
end

section
/-! PROOFS for spec/30_encoding.md, first part: the decoder and the encoder are inverse to each other,
and the triples that the decoder rejects are those on the list of R88. -/

namespace Sys2Proof

/-! ## The fields of an assembled triple (R81) -/

section
variable (o : Opcode) (dst src : ContextId) (pb rb : Byte) (arg : DWord) (input : List Byte)

@[simp] theorem op_assemble : (assemble o dst src pb rb arg input).op = o.byte := by
  simp only [Command.op, assemble]
  iterate 4 rw [BitVec.extractLsb'_append_eq_of_le (by decide)]
  exact BitVec.extractLsb'_eq_self

@[simp] theorem dst_assemble : (assemble o dst src pb rb arg input).dst = dst := by
  simp only [Command.dst, assemble]
  iterate 3 rw [BitVec.extractLsb'_append_eq_of_le (by decide)]
  exact BitVec.extractLsb'_append_eq_right

@[simp] theorem src_assemble : (assemble o dst src pb rb arg input).src = src := by
  simp only [Command.src, assemble]
  iterate 2 rw [BitVec.extractLsb'_append_eq_of_le (by decide)]
  exact BitVec.extractLsb'_append_eq_right

@[simp] theorem pb_assemble : (assemble o dst src pb rb arg input).pb = pb := by
  simp only [Command.pb, assemble]
  rw [BitVec.extractLsb'_append_eq_of_le (by decide)]
  exact BitVec.extractLsb'_append_eq_right

@[simp] theorem rb_assemble : (assemble o dst src pb rb arg input).rb = rb :=
  BitVec.extractLsb'_append_eq_right

@[simp] theorem arg_assemble : (assemble o dst src pb rb arg input).arg = arg := rfl

@[simp] theorem input_assemble : (assemble o dst src pb rb arg input).input = input := rfl

end

/-- A triple is put together again from its fields. -/
theorem assemble_fields {o : Opcode} {c : Command} (h : c.op = o.byte) :
    assemble o c.dst c.src c.pb c.rb c.arg c.input = c := by
  have hcmd : o.byte ++ c.dst ++ c.src ++ c.pb ++ c.rb = c.cmd := by
    simp only [← h, Command.op, Command.dst, Command.src, Command.pb, Command.rb]
    rw [BitVec.extractLsb'_append_extractLsb'_eq_extractLsb' (show 24 = 20 + 4 from rfl),
      BitVec.extractLsb'_append_extractLsb'_eq_extractLsb' (show 20 = 16 + 4 from rfl),
      BitVec.extractLsb'_append_extractLsb'_eq_extractLsb' (show 16 = 8 + 8 from rfl),
      BitVec.extractLsb'_append_extractLsb'_eq_extractLsb' (show 8 = 0 + 8 from rfl)]
    exact BitVec.extractLsb'_eq_self
  rw [assemble, hcmd]

/-! ## Opcodes (R86) -/

theorem opcodeOf_byte (o : Opcode) : opcodeOf o.byte = some o := by cases o <;> rfl

theorem opcodeOf_eq_some {op : Byte} {o : Opcode} : opcodeOf op = some o ↔ op = o.byte := by
  refine ⟨fun h => ?_, fun h => h ▸ opcodeOf_byte o⟩
  unfold opcodeOf at h
  split at h <;> cases h <;> exact BitVec.eq_of_toNat_eq (by assumption)

theorem opcodeOf_eq_none {op : Byte} :
    opcodeOf op = none ↔ op.toNat = 0x00 ∨ 0x0D ≤ op.toNat := by
  constructor
  · intro h
    by_contra hlisted
    obtain ⟨hpos, hle⟩ : 0 < op.toNat ∧ op.toNat < 0x0D := by omega
    unfold opcodeOf at h
    interval_cases op.toNat <;> cases h
  · intro h
    refine Option.eq_none_iff_forall_ne_some.mpr fun o ho => ?_
    have hrow : 0 < o.byte.toNat ∧ o.byte.toNat < 0x0D := by cases o <;> decide
    rw [opcodeOf_eq_some.mp ho] at h
    omega

/-! ## The decoder (R87) -/

/-- A check that rejects finds nothing exactly when it passes and the later checks find nothing. -/
theorem reject_eq_none {p : Prop} [Decidable p] {why : Rejection} {later : Option Rejection} :
    (if p then some why else later) = none ↔ ¬ p ∧ later = none := by
  split <;> simp_all

/-- The formats forbid a triple exactly these things (R82, R83 and the format table). -/
theorem fieldViolation_eq_none {f : Format} {c : Command} :
    fieldViolation f c = none ↔
      (f.usesSrc = false → c.src = 0) ∧ (f.usesParams = false → c.pb = 0 ∧ c.rb = 0) ∧
        (f.usesArg = false → c.arg = 0) ∧ (f.usesInput = false → c.input = []) ∧
        (f.usesInput = true → c.arg.toNat = c.input.length) := by
  simp only [fieldViolation, reject_eq_none]
  simp [not_or]

theorem decode_eq_ok {c : Command} {i : Instr} :
    decode c = .ok i ↔
      ∃ o : Opcode, c.op = o.byte ∧ fieldViolation o.format c = none ∧ o.build c = i := by
  simp only [← opcodeOf_eq_some]
  unfold decode
  split <;> rename_i heq
  · simp [heq]
  · split <;> rename_i hv <;> simp [heq, hv]

/-! ## Decoding after encoding -/

/-- The row of a command. -/
def Instr.opcode : Instr → Opcode
  | .newS _ _ _ => .newS
  | .newD _ _ _ => .newD
  | .free _ => .free
  | .add _ _ => .add
  | .merge _ _ => .merge
  | .est _ => .est
  | .ser _ => .ser
  | .des _ _ => .des
  | .serL _ => .serL
  | .desL _ _ => .desL
  | .rdreg _ _ => .rdreg
  | .stat _ => .stat

@[simp] theorem op_encode (i : Instr) : (encode i).op = i.opcode.byte := by
  cases i <;> exact op_assemble ..

/-- The operands of a command stand in the fields of its triple. -/
@[simp] theorem build_encode (i : Instr) : i.opcode.build (encode i) = i := by
  cases i <;> simp [Instr.opcode, Opcode.build, encode]

/-- `ARG` states the length of an image that fits (R83). -/
theorem toNat_length_of_imageFits {image : List Byte} (h : imageFits image = true) :
    (BitVec.ofNat 64 image.length).toNat = image.length := by
  rw [BitVec.toNat_ofNat]
  exact Nat.mod_eq_of_lt (of_decide_eq_true h)

/-- The triple of a well-formed command has nothing that its format forbids. -/
theorem fieldViolation_encode {i : Instr} (h : i.wf = true) :
    fieldViolation i.opcode.format (encode i) = none := by
  rw [fieldViolation_eq_none]
  cases i with
  | des dst image | desL dst image =>
    exact ⟨fun _ => src_assemble .., fun _ => ⟨pb_assemble .., rb_assemble ..⟩, nofun, nofun,
      fun _ => toNat_length_of_imageFits h⟩
  | _ =>
    simp [encode, Instr.opcode, Opcode.format, Format.usesSrc, Format.usesParams, Format.usesArg,
      Format.usesInput]

/-- Settles O1: the triple has the opcode of the command's row, its format finds nothing wrong, and the
operands are read back. -/
theorem decodeEncodeRoundTrip : Obligations.DecodeEncodeRoundTrip := fun i h =>
  decode_eq_ok.mpr ⟨i.opcode, op_encode i, fieldViolation_encode h, build_encode i⟩

/-! ## Encoding after decoding -/

/-- Encoding keeps the fields that the row's format uses, clears the others, and states the length of
an image in `ARG`. -/
theorem encode_build_eq_assemble (o : Opcode) (c : Command) :
    encode (o.build c) =
      assemble o c.dst (if o.format.usesSrc then c.src else 0)
        (if o.format.usesParams then c.pb else 0) (if o.format.usesParams then c.rb else 0)
        (if o.format.usesArg then
          if o.format.usesInput then BitVec.ofNat 64 c.input.length else c.arg
        else 0)
        (if o.format.usesInput then c.input else []) := by
  cases o <;> rfl

/-- Clearing an unused field that is clear changes nothing. -/
theorem clear_unused {α : Type} {used : Bool} {x z : α} (h : used = false → x = z) :
    (if used then x else z) = x := by
  cases used with
  | false => exact (h rfl).symm
  | true => rfl

theorem length_word {c : Command} {used : Bool} (h : used = true → c.arg.toNat = c.input.length) :
    (if used then BitVec.ofNat 64 c.input.length else c.arg) = c.arg := by
  cases used with
  | false => rfl
  | true => rw [if_pos rfl, ← h rfl, BitVec.ofNat_toNat, BitVec.setWidth_eq]

theorem encode_build {o : Opcode} {c : Command} (hop : c.op = o.byte)
    (h : fieldViolation o.format c = none) : encode (o.build c) = c := by
  obtain ⟨hsrc, hparams, harg, hinput, hlen⟩ := fieldViolation_eq_none.mp h
  rw [encode_build_eq_assemble, length_word hlen, clear_unused hsrc,
    clear_unused fun hu => (hparams hu).1, clear_unused fun hu => (hparams hu).2,
    clear_unused harg, clear_unused hinput, assemble_fields hop]

theorem wf_build {o : Opcode} {c : Command} (h : fieldViolation o.format c = none) :
    (o.build c).wf = true := by
  have hfits (hlen : c.arg.toNat = c.input.length) : imageFits c.input = true :=
    decide_eq_true (hlen ▸ c.arg.isLt)
  obtain ⟨_, _, _, _, hlen⟩ := fieldViolation_eq_none.mp h
  cases o with
  | des | desL => exact hfits (hlen rfl)
  | _ => rfl

/-- Settles O2: a triple without forbidden fields is put together again from the operands that its row
keeps. -/
theorem decodedTripleIsTheEncoding : Obligations.DecodedTripleIsTheEncoding := by
  intro c i h
  obtain ⟨o, hop, hfields, rfl⟩ := decode_eq_ok.mp h
  exact ⟨wf_build hfields, encode_build hop hfields⟩

/-! ## Illegal encodings (R88) -/

/-- The triple breaks a rule of the list of R88. -/
def Command.Illegal (c : Command) : Prop :=
  let op := c.cmd.toNat / 2 ^ 24
  op = 0x00 ∨ 0x0D ≤ op ∨
  (op ≠ 0x05 ∧ c.cmd.toNat / 2 ^ 16 % 2 ^ 4 ≠ 0) ∨
  (op ∉ [0x01, 0x02] ∧ c.cmd.toNat % 2 ^ 16 ≠ 0) ∨
  (op ∉ [0x04, 0x08, 0x0A, 0x0B] ∧ c.arg ≠ 0) ∨
  (op ∉ [0x08, 0x0A] ∧ c.input ≠ []) ∨
  (op ∈ [0x08, 0x0A] ∧ c.arg.toNat ≠ c.input.length)

theorem Command.toNat_op (c : Command) : c.op.toNat = c.cmd.toNat / 2 ^ 24 := by
  have := c.cmd.isLt
  simp only [Command.op, BitVec.extractLsb'_toNat, Nat.shiftRight_eq_div_pow]
  omega

theorem Command.src_eq_zero (c : Command) : c.src = 0 ↔ c.cmd.toNat / 2 ^ 16 % 2 ^ 4 = 0 := by
  simp [Command.src, ← BitVec.toNat_inj, Nat.shiftRight_eq_div_pow]

theorem Command.params_eq_zero (c : Command) : c.pb = 0 ∧ c.rb = 0 ↔ c.cmd.toNat % 2 ^ 16 = 0 := by
  simp only [Command.pb, Command.rb, ← BitVec.toNat_inj, BitVec.extractLsb'_toNat,
    Nat.shiftRight_eq_div_pow, BitVec.ofNat_eq_ofNat, BitVec.toNat_ofNat]
  omega

/-! What a format uses, by opcode, as R88 lists it. -/

theorem usesSrc_format (o : Opcode) : o.format.usesSrc = true ↔ o.byte.toNat = 0x05 := by
  cases o <;> decide

theorem usesParams_format (o : Opcode) :
    o.format.usesParams = true ↔ o.byte.toNat ∈ [0x01, 0x02] := by
  cases o <;> decide

theorem usesArg_format (o : Opcode) :
    o.format.usesArg = true ↔ o.byte.toNat ∈ [0x04, 0x08, 0x0A, 0x0B] := by
  cases o <;> decide

theorem usesInput_format (o : Opcode) :
    o.format.usesInput = true ↔ o.byte.toNat ∈ [0x08, 0x0A] := by
  cases o <;> decide

/-- With an opcode of the map, a triple is legal exactly when every field suits the row's format. -/
theorem not_illegal_iff_of_op {o : Opcode} {c : Command} (h : c.op = o.byte) :
    ¬ c.Illegal ↔ fieldViolation o.format c = none := by
  have hop : c.cmd.toNat / 2 ^ 24 = o.byte.toNat := by rw [← c.toNat_op, h]
  have hrow : ¬ (o.byte.toNat = 0x00 ∨ 0x0D ≤ o.byte.toNat) := by
    rw [← opcodeOf_eq_none, opcodeOf_byte]
    nofun
  obtain ⟨hlo, hhi⟩ := not_or.mp hrow
  simp only [Command.Illegal, hop, hlo, hhi, false_or, not_or, not_and, ne_eq, not_not,
    fieldViolation_eq_none, Bool.eq_false_iff, usesSrc_format, usesParams_format, usesArg_format,
    usesInput_format, c.src_eq_zero, c.params_eq_zero]

theorem not_illegal_iff {c : Command} : ¬ c.Illegal ↔ ∃ i, decode c = .ok i := by
  rcases ho : opcodeOf c.op with _ | o
  · have hop := opcodeOf_eq_none.mp ho
    rw [c.toNat_op] at hop
    have hill : c.Illegal := hop.elim .inl fun h => .inr (.inl h)
    simp [decode, ho, hill]
  · rw [not_illegal_iff_of_op (opcodeOf_eq_some.mp ho)]
    unfold decode
    rcases hv : fieldViolation o.format c with _ | why <;> simp [ho, hv]

theorem exists_decode_eq_error {c : Command} (h : c.Illegal) : ∃ why, decode c = .error why := by
  rcases hd : decode c with why | i
  · exact ⟨why, rfl⟩
  · exact absurd h (not_illegal_iff.mpr ⟨i, hd⟩)

end Sys2Proof

namespace Sys2Proof.Machine

/-- Settles O4: the decoder rejects exactly the list of R88, and the step answers a rejection with
`IllegalCommand`. -/
theorem illegalTriplesEndWithIllegalCommand : Obligations.IllegalTriplesEndWithIllegalCommand := by
  intro s c rest hs
  refine ⟨fun hill => ?_, fun hleg => ?_⟩
  · obtain ⟨why, hd⟩ := exists_decode_eq_error hill
    rw [step_of_command hs, runCommand, hd]
    rfl
  · obtain ⟨i, hd⟩ := (not_illegal_iff (c := c)).mp hleg
    exact ⟨i, hd, by rw [step_of_command hs, runCommand, hd]⟩

/-- Settles O3, by running the decoder on each word. -/
theorem specWordsDecode : Obligations.SpecWordsDecode := by
  unfold Obligations.SpecWordsDecode
  decide

end Sys2Proof.Machine
end

section
/-! PROOFS for spec/30_encoding.md, second part: the rank of a hash (R91), and that no command reads
the response before it (R84). -/

namespace Sys2Proof.Machine

/-! ## Trailing zeros (spec/41_sparse_set.md R143) -/

/-- The number of trailing zeros is the exponent of the largest power of two that divides. -/
theorem trailingZeros_eq {fuel x t : Nat} (ht : t < fuel) (hd : 2 ^ t ∣ x) (hn : ¬ 2 ^ (t + 1) ∣ x) :
    trailingZeros fuel x = t := by
  induction fuel generalizing x t with
  | zero => exact absurd ht (Nat.not_lt_zero t)
  | succ fuel ih =>
    rw [trailingZeros]
    cases t with
    | zero =>
      rw [if_pos]
      omega
    | succ t =>
      obtain ⟨y, rfl⟩ : 2 ∣ x := (Dvd.intro_left _ (pow_succ 2 t).symm).trans hd
      rw [pow_succ', Nat.mul_dvd_mul_iff_left Nat.two_pos] at hd hn
      rw [if_neg (by omega), Nat.mul_div_cancel_left y Nat.two_pos,
        ih (Nat.lt_of_succ_lt_succ ht) hd hn]

theorem two_pow_dvd_or {n x y : Nat} : 2 ^ n ∣ x ||| y ↔ 2 ^ n ∣ x ∧ 2 ^ n ∣ y := by
  simp only [Nat.dvd_iff_mod_eq_zero, Nat.or_mod_two_pow, Nat.or_eq_zero_iff]

/-- A sentinel bit cuts the number of trailing zeros at its place (R91). -/
theorem ctz64_sentinel {h : DWord} {t n : Nat} (hn : n < 64)
    (ht : h = 0 ∧ t = 64 ∨ 2 ^ t ∣ h.toNat ∧ ¬ 2 ^ (t + 1) ∣ h.toNat) :
    ctz64 (h ||| (1#64 <<< n)) = min t n := by
  have hd : 2 ^ t ∣ h.toNat := by
    rcases ht with ⟨rfl, _⟩ | ⟨hd, _⟩
    · exact dvd_zero _
    · exact hd
  have hbit : (1#64 <<< n).toNat = 2 ^ n := by
    rw [← BitVec.twoPow_eq, BitVec.toNat_twoPow_of_lt hn]
  rw [ctz64, BitVec.toNat_or, hbit]
  apply trailingZeros_eq (by omega)
  · exact two_pow_dvd_or.mpr ⟨(Nat.pow_dvd_pow 2 (Nat.min_le_left t n)).trans hd,
      Nat.pow_dvd_pow 2 (Nat.min_le_right t n)⟩
  · intro hdvd
    obtain ⟨hh, hs⟩ := two_pow_dvd_or.mp hdvd
    have hlt : min t n < n := Nat.pow_dvd_pow_iff_le_right'.mp hs
    rw [Nat.min_eq_left (by omega)] at hh
    rcases ht with ⟨_, rfl⟩ | ⟨_, hnot⟩
    · omega
    · exact hnot hh

/-- Settles O23: the sentinel cuts the trailing zeros at `64 - k`. -/
theorem rankIsCappedByTheSentinel : Obligations.RankIsCappedByTheSentinel := by
  intro h k r t hk hk' hr ht
  have hmax : 1 ≤ 2 ^ r - 1 := by
    have := Nat.pow_le_pow_right Nat.two_pos (show 1 ≤ r by simp at hr; omega)
    omega
  rw [rank, ctz64_sentinel (by omega) ht, rankMax]
  omega

/-! ## The last response (R84, spec/60_exceptions.md R258) -/

theorem exec_response_of_next {i : Instr} {s t : State} (h : exec i s = .next t)
    (q : Option Response) : exec i { s with response := q } = .next t := by
  obtain ⟨δ, _, rfl, hδ⟩ := exec_patch h
  exact hδ { s with response := q } (fun _ _ => rfl) (.inr rfl)

theorem State.load_response (s : State) (dst : ContextId) (result : LoadResult)
    (q : Option Response) :
    State.load { s with response := q } dst result = s.load dst result := by
  cases result <;> rfl

/-- Every command but a load has a next state, and a load's one branch without a next state depends on
the image and the context alone. -/
theorem exec_response (i : Instr) (s : State) (q : Option Response) :
    exec i { s with response := q } = exec i s := by
  cases i with
  | des dst image => exact State.load_response s dst (loadTagged image) q
  | desL dst image => exact State.load_response s dst (loadLegacy image) q
  | _ => exact exec_response_of_next rfl q

theorem runCommand_response (c : Command) (s : State) (q : Option Response) :
    runCommand c { s with response := q } = runCommand c s := by
  unfold runCommand
  split
  · rfl
  · exact exec_response _ s q

/-- Settles O15: every command replaces the response without reading it. -/
theorem lastResponseIsNotRead : Obligations.LastResponseIsNotRead := by
  intro s c rest q hs
  rw [step_of_command hs, step_of_command (s := { s with response := q }) hs]
  exact runCommand_response c { s with inputs := rest } q

end Sys2Proof.Machine
end

section
/-! PROOFS for spec/40_register_store.md: the never-decrease update, `ADD` on a Dense sketch and
`RDREG`. -/

namespace Sys2Proof.Machine

/-! ## The never-decrease update (R113) -/

/-- `UpdateMax` writes nothing when the value is not larger. -/
theorem updateMax_of_le {r : Nat} {words : List Word} {i k : Nat} (h : k ≤ regRead r words i) :
    updateMax r words i k = words :=
  if_neg (Nat.not_lt.mpr h)

/-- What `UpdateMax` leaves is at least the value, so the same update again writes nothing. -/
theorem updateMax_updateMax {r : Nat} {words : List Word} {i k : Nat}
    (hr : r = 4 ∨ r = 5 ∨ r = 6) (hi : i / regPerWord r < words.length) (hk : k < 2 ^ r) :
    updateMax r (updateMax r words i k) i k = updateMax r words i k := by
  apply updateMax_of_le
  rw [regRead_updateMax hr hi hk, if_pos rfl]
  exact Nat.le_max_right _ _

/-- The words of a well-formed Dense payload hold every counter. -/
theorem counter_in_words_of_denseWf {p r : Nat} {words : List Word} {i : Nat}
    (hp : paramsOk p r = true) (hd : denseWf p r words = true) (hi : i < regCount p) :
    i / regPerWord r < words.length :=
  (denseWf_iff.mp hd).1 ▸ counter_in_words (width_of_paramsOk hp) hi

/-- Settles O25: the counter that is updated and every other one, by the law of `UpdateMax`. -/
theorem updateMaxNeverDecreases : Obligations.UpdateMaxNeverDecreases := by
  intro p r words i k hp hd hi hk
  have hr := width_of_paramsOk hp
  have hread := fun j => regRead_updateMax (i' := j) hr (counter_in_words_of_denseWf hp hd hi)
    (lt_of_le_of_lt hk (Nat.sub_one_lt (Nat.two_pow_pos r).ne'))
  exact ⟨(hread i).trans (if_pos rfl), updateMax_of_le,
    fun j _ hj => (hread j).trans (if_neg hj), denseWf_updateMax hr hi hd⟩

/-! ## `ADD` on a Dense sketch (R114, R115) -/

/-- The top bits of a hash are its quotient by a power of two (spec/30_encoding.md R90). -/
theorem topBits_eq_div (h : DWord) (k : Nat) : topBits h k = h.toNat / 2 ^ (64 - k) := by
  rw [topBits, BitVec.toNat_ushiftRight, Nat.shiftRight_eq_div_pow]

theorem Sketch.add_dense (p r : Nat) (words : List Word) (h : DWord) :
    Sketch.add ⟨p, r, .dense words⟩ h =
      ⟨p, r, .dense (updateMax r words (topBits h p) (rank h p r))⟩ := rfl

theorem exec_add_of_sketch {s : State} {dst : ContextId} {a : Sketch} (ha : s.sketch? dst = some a)
    (h : DWord) :
    exec (.add dst h) s = .next ((s.setContext dst (some (a.add h))).complete 0 []) := by
  rw [exec, execAdd, State.withSketch_of_some ha]

/-- Settles O26: `ADD` updates the counter of the hash's top bits with the hash's rank. -/
theorem addDenseRaisesOneCounter : Obligations.AddDenseRaisesOneCounter := by
  intro s dst h p r words hs hsk idx k
  obtain ⟨hp, hd⟩ := Sketch.wf_dense_iff.mp (State.sketch_wf_of_wf hs hsk)
  have hidx : topBits h p = idx := topBits_eq_div h p
  have hlt : idx < regCount p := hidx ▸ topBits_lt_regCount hp h
  obtain ⟨hmax, -, hother, hwf⟩ :=
    updateMaxNeverDecreases p r words idx k hp hd hlt (Nat.min_le_right _ _)
  refine ⟨updateMax r words idx k, ?_, hmax, hother, hwf⟩
  rw [exec_add_of_sketch hsk, Sketch.add_dense, hidx]
  rfl

/-! ## Adding a hash again (R116) -/

theorem Sketch.add_add_of_dense {a : Sketch} (hw : a.wf = true) (hm : a.mode = .dense) (h : DWord) :
    (a.add h).add h = a.add h := by
  rcases a with ⟨p, r, ⟨tb, sa⟩ | words⟩
  · cases hm
  · obtain ⟨hp, hd⟩ := Sketch.wf_dense_iff.mp hw
    rw [Sketch.add_dense, Sketch.add_dense, updateMax_updateMax (width_of_paramsOk hp)
      (counter_in_words_of_denseWf hp hd (topBits_lt_regCount hp h)) (rank_lt h p r)]

/-- Settles O27: the second `ADD` finds the counter raised, and answers as the first did. -/
theorem addDenseIsIdempotent : Obligations.AddDenseIsIdempotent := by
  intro s t dst h a hs ha hm ht
  obtain rfl := Host.Outcome.next.inj ((exec_add_of_sketch ha h).symm.trans ht)
  have hb : ((s.setContext dst (some (a.add h))).complete 0 []).sketch? dst = some (a.add h) :=
    State.sketch?_setContext_same ha (a.add h)
  rw [exec_add_of_sketch hb, Sketch.add_add_of_dense (State.sketch_wf_of_wf hs ha) hm,
    State.setContext_of_sketch? hb]
  rfl

/-! ## `RDREG` (R118) -/

/-- A context that does not exist holds no sketch. -/
theorem State.sketch?_of_length_le {s : State} {c : ContextId} (h : s.contexts.length ≤ c.toNat) :
    s.sketch? c = none := by
  rw [State.sketch?, State.context?_eq_none.mpr h, Option.join_none]

section
variable {s : State} {dst : ContextId} (i : DWord)

theorem exec_rdreg_of_none (h : s.sketch? dst = none) :
    exec (.rdreg dst i) s = .next (s.raise .badOperand) := by
  rw [exec, execRdreg, State.withSketch_of_none h]

theorem exec_rdreg_of_sparse {p r : Nat} {tb sa : List Word}
    (h : s.sketch? dst = some ⟨p, r, .sparse tb sa⟩) :
    exec (.rdreg dst i) s = .next (s.raise .badOperand) := by
  rw [exec, execRdreg, State.withSketch_of_some h]

theorem exec_rdreg_of_dense {p r : Nat} {words : List Word}
    (h : s.sketch? dst = some ⟨p, r, .dense words⟩) :
    exec (.rdreg dst i) s = .next (if regCount p ≤ i.toNat then s.raise .badOperand
      else s.complete (BitVec.ofNat 64 (regRead r words i.toNat)) []) := by
  rw [exec, execRdreg, State.withSketch_of_some h]

end

/-- Settles O28: without a sketch, on a Sparse sketch, and past or below the last counter of a Dense
one. -/
theorem rdregReadsOneCounter : Obligations.RdregReadsOneCounter := by
  intro s dst i bad
  refine ⟨fun h => exec_rdreg_of_none i (State.sketch?_of_length_le h), exec_rdreg_of_none i,
    fun _ _ _ _ => exec_rdreg_of_sparse i, fun p r words h => ⟨fun hge => ?_, fun hlt => ?_⟩⟩
  · rw [exec_rdreg_of_dense i h, if_pos (show regCount p ≤ i.toNat from hge)]
    rfl
  · rw [exec_rdreg_of_dense i h, if_neg (show ¬ regCount p ≤ i.toNat from Nat.not_le.mpr hlt)]
    rfl

end Sys2Proof.Machine
end

section
/-! PROOFS for spec/41_sparse_set.md: the two paths of a hash, packing and unpacking, the ordered
union, and `ADD` on a Sparse sketch. -/

namespace Sys2Proof.Machine

/-! ## The Sparse and the Dense path of one hash (R143) -/

/-- `ctz64` is the exponent of the largest power of two that divides a hash, 64 for the hash 0. -/
theorem ctz64_spec (h : DWord) :
    h = 0 ∧ ctz64 h = 64 ∨ 2 ^ ctz64 h ∣ h.toNat ∧ ¬ 2 ^ (ctz64 h + 1) ∣ h.toNat := by
  by_cases h0 : h = 0
  · subst h0
    exact .inl ⟨rfl, by decide⟩
  · have hne : h.toNat ≠ 0 := fun e => h0 (BitVec.eq_of_toNat_eq e)
    obtain ⟨t, y, hy, e⟩ := Nat.exists_eq_two_pow_mul_odd hne
    have hd : 2 ^ t ∣ h.toNat := ⟨y, e⟩
    have hn : ¬ 2 ^ (t + 1) ∣ h.toNat := by
      rw [e, pow_succ, Nat.mul_dvd_mul_iff_left (Nat.two_pow_pos t)]
      exact hy.not_two_dvd_nat
    have ht : t < 64 := (Nat.pow_lt_pow_iff_right Nat.one_lt_two).mp
      ((Nat.le_of_dvd (Nat.pos_of_ne_zero hne) hd).trans_lt h.isLt)
    rw [ctz64, trailingZeros_eq ht hd hn]
    exact .inr ⟨hd, hn⟩

/-- `Rank` in closed form: the trailing zeros, cut by the sentinel and by `RMAX` (R143). -/
theorem rank_eq_min (h : DWord) {k r : Nat} (hk : 4 ≤ k) (hk' : k ≤ 22)
    (hr : r = 4 ∨ r = 5 ∨ r = 6) :
    rank h k r = min (1 + ctz64 h) (min (65 - k) (2 ^ r - 1)) :=
  (rankIsCappedByTheSentinel h k r (ctz64 h) hk hk' (by simpa using hr) (ctz64_spec h)).1

/-- The top `p` bits of a hash are its top `p + 4` bits without the low 4 of them. -/
theorem topBits_add_four_div (h : DWord) {p : Nat} (hp : p + 4 ≤ 64) :
    topBits h (p + 4) / 16 = topBits h p := by
  rw [topBits_eq_div, topBits_eq_div, Nat.div_div_eq_div_mul, ← Nat.pow_add _ _ 4,
    show 64 - (p + 4) + 4 = 64 - p by omega]

/-- Settles O24: the two sentinels stand at `64 - p` and `60 - p`, and only `r = 6` has an `RMAX` above
the lower one. -/
theorem sparseAndDensePathsAgree : Obligations.SparseAndDensePathsAgree := by
  intro h p r hpar
  obtain ⟨⟨hp, hp'⟩, hr⟩ := paramsOk_iff.mp hpar
  have hsparse := rank_eq_min h (k := p + 4) (by omega) (by omega) hr
  have hdense := rank_eq_min h (k := p) hp (by omega) hr
  refine ⟨topBits_add_four_div h (by omega), ?_, ?_⟩
  · intro hne
    have hmax : 2 ^ r - 1 ≤ 31 := by
      rcases hr with rfl | rfl | rfl
      · decide
      · decide
      · exact absurd rfl hne
    omega
  · rintro rfl
    omega

/-! ## Packing and unpacking (R130, R131) -/

/-- The coarse index of an entry is its fine index without the 4 low bits. -/
theorem entryCoarse_eq_div {p : Nat} (hp : fineWidth p ≤ 32) (e : Word) :
    entryCoarse p e = entryIndex p e / 16 := by
  rw [fineWidth] at hp
  rw [entryIndex_eq, fineWidth, entryCoarse, BitVec.toNat_ushiftRight, Nat.shiftRight_eq_div_pow,
    Nat.div_div_eq_div_mul, ← Nat.pow_add _ _ 4, show 32 - (p + 4) + 4 = 32 - p by omega]

/-- `Pack(Unpack(e)) = e` for a well-formed entry (R131). -/
theorem packEntry_unpack {p r : Nat} (h : paramsOk p r = true) {e : Word}
    (he : entryWf p r e = true) : packEntry p (entryIndex p e) (entryRank r e) = e := by
  apply BitVec.eq_of_toNat_eq
  rw [packEntry_toNat h (entryIndex_lt (by have := fineWidth_le h; omega) e) (entryRank_lt r e),
    ← entry_eq_of_wf h he]

/-- Settles O29: each part of a packed pair by its own law, and the way back from the value of a
well-formed entry. -/
theorem unpackInvertsPack : Obligations.UnpackInvertsPack := by
  intro p r h
  refine ⟨fun f k hf hk => ?_, fun e => packEntry_unpack h⟩
  have hk' : k < 2 ^ r := lt_of_le_of_lt hk (Nat.sub_one_lt (Nat.two_pow_pos r).ne')
  have hidx := entryIndex_packEntry h hf hk'
  refine ⟨packEntry_toNat h hf hk', hidx, entryRank_packEntry h hf hk', ?_,
    entryWf_packEntry h hf hk'⟩
  rw [entryCoarse_eq_div (by have := fineWidth_le h; omega), hidx]

/-! ## What the union holds (R133) -/

/-- The union keeps exactly the fine indices of its two operands. -/
theorem hasIndex_union {p r : Nat} (h : paramsOk p r = true) (f : Nat) (a b : List Word) :
    HasIndex p f (union p r a b) ↔ HasIndex p f a ∨ HasIndex p f b := by
  rw [union, hasIndex_merge2 h, hasIndex_sortDedup h, hasIndex_sortDedup h]

/-- The union is no longer than its operands together. -/
theorem length_union_le (p r : Nat) (a b : List Word) :
    (union p r a b).length ≤ a.length + b.length :=
  (length_merge2_le p r _ _).trans
    (Nat.add_le_add (length_sortDedup_le p r a) (length_sortDedup_le p r b))

theorem mem_map_entryIndex {p f : Nat} {es : List Word} :
    f ∈ es.map (entryIndex p) ↔ HasIndex p f es := List.mem_map

/-- A sequence that has every index of another is at least as long as the other has distinct
indices. -/
theorem length_dedup_index_le {p : Nat} {a es : List Word}
    (h : ∀ f, HasIndex p f a → HasIndex p f es) :
    (a.map (entryIndex p)).dedup.length ≤ es.length := by
  have hsub : (a.map (entryIndex p)).dedup ⊆ es.map (entryIndex p) := fun f hf =>
    mem_map_entryIndex.mpr (h f (mem_map_entryIndex.mp (List.mem_dedup.mp hf)))
  rw [← List.length_map (entryIndex p) (as := es)]
  exact ((List.nodup_dedup _).subperm hsub).length_le

/-- Settles O30: order, entries, indices and ranks of the union, and from its indices its length. -/
theorem unionKeepsTheMaximumOfEveryIndex : Obligations.UnionKeepsTheMaximumOfEveryIndex := by
  intro p r a b h ha hb
  refine ⟨strictlySorted_iff.mpr (sorted_union h a b), entryWf_union h ha hb, fun f => ?_,
    fun f => ?_,
    length_dedup_index_le fun f hf => (hasIndex_union h f a b).mpr (.inl hf),
    length_dedup_index_le fun f hf => (hasIndex_union h f a b).mpr (.inr hf),
    length_union_le p r a b⟩
  · exact (hasIndex_union h f a b).trans (hasIndex_append p f a b).symm
  · rw [maxRank_union h, maxRank_append]

/-! ## The laws of the union (R133) -/

/-- The union is determined by the indices and the ranks that occur in its operands together. -/
theorem union_congr {p r : Nat} (h : paramsOk p r = true) {a b a' b' : List Word}
    (ha : a.all (entryWf p r) = true) (hb : b.all (entryWf p r) = true)
    (ha' : a'.all (entryWf p r) = true) (hb' : b'.all (entryWf p r) = true)
    (hi : ∀ f, HasIndex p f a ∨ HasIndex p f b ↔ HasIndex p f a' ∨ HasIndex p f b')
    (hr : ∀ q, max (maxRank p r q a) (maxRank p r q b) = max (maxRank p r q a') (maxRank p r q b')) :
    union p r a b = union p r a' b' := by
  apply sorted_ext h (sorted_union h a b) (sorted_union h a' b') (entryWf_union h ha hb)
    (entryWf_union h ha' hb')
  · intro f
    rw [hasIndex_union h, hasIndex_union h, hi]
  · intro f
    rw [maxRank_union h, maxRank_union h, hr]

/-- The union with the empty sequence sorts and removes duplicates. -/
theorem union_nil (p r : Nat) (a : List Word) : union p r a [] = sortDedup p r a :=
  merge2_nil_right p r (sortDedup p r a)

theorem hasIndex_perm {p : Nat} {a b : List Word} (hab : a.Perm b) (f : Nat) :
    HasIndex p f a ↔ HasIndex p f b := by
  simp only [HasIndex, hab.mem_iff]

theorem maxRank_perm {p r : Nat} {a b : List Word} (hab : a.Perm b) (q : Nat → Bool) :
    maxRank p r q a = maxRank p r q b := by
  induction hab with
  | nil => rfl
  | cons e _ ih => simp only [maxRank, ih]
  | swap e f es =>
    simp only [maxRank]
    split <;> split <;> omega
  | trans _ _ ih₁ ih₂ => exact ih₁.trans ih₂

section
variable {p r : Nat} (h : paramsOk p r = true) {a b c : List Word}
  (ha : a.all (entryWf p r) = true) (hb : b.all (entryWf p r) = true)

include h ha

theorem union_self : union p r a a = sortDedup p r a :=
  (union_congr h ha ha ha rfl (fun f => by simp) (fun q => by simp [maxRank])).trans
    (union_nil p r a)

include hb

theorem union_comm : union p r a b = union p r b a :=
  union_congr h ha hb hb ha (fun _ => or_comm) fun _ => Nat.max_comm _ _

theorem union_assoc (hc : c.all (entryWf p r) = true) :
    union p r (union p r a b) c = union p r a (union p r b c) :=
  union_congr h (entryWf_union h ha hb) hc ha (entryWf_union h hb hc)
    (fun f => by rw [hasIndex_union h, hasIndex_union h, or_assoc])
    (fun q => by rw [maxRank_union h, maxRank_union h, Nat.max_assoc])

theorem union_perm {a' b' : List Word} (haa : a'.Perm a) (hbb : b'.Perm b) :
    union p r a' b' = union p r a b :=
  union_congr h (haa.all_eq.trans ha) (hbb.all_eq.trans hb) ha hb
    (fun f => or_congr (hasIndex_perm haa f) (hasIndex_perm hbb f))
    (fun q => congrArg₂ max (maxRank_perm haa q) (maxRank_perm hbb q))

end

/-- Settles O31: each law holds because both sides have the same indices and ranks. -/
theorem unionIsASemilattice : Obligations.UnionIsASemilattice := by
  intro p r a b c h ha hb hc
  refine ⟨union_comm h ha hb, union_assoc h ha hb hc, fun _ _ => union_perm h ha hb,
    union_self h ha, fun hs => ?_⟩
  have hsorted := strictlySorted_iff.mp hs
  exact ⟨(union_self h ha).trans (sortDedup_of_sorted hsorted), union_nil_of_sorted hsorted⟩

/-! ## `ADD` on a Sparse sketch (R135) -/

/-- The entry of a hash as the bits of one word (R92, R130). -/
theorem hashEntry_eq_ofNat {p r : Nat} (hp : paramsOk p r = true) (h : DWord) :
    hashEntry p r h =
      BitVec.ofNat 32 (topBits h (fineWidth p) * 2 ^ (32 - fineWidth p) + rank h (fineWidth p) r) := by
  rw [← packEntry_toNat hp (topBits_lt h (by have := fineWidth_le hp; omega)) (rank_lt h _ r),
    BitVec.ofNat_toNat, BitVec.setWidth_eq, hashEntry]

/-- Settles O32: `AddSparse` appends or folds, and a fold keeps the array or promotes it. -/
theorem addSparseAppendsAndFoldsAtFive : Obligations.AddSparseAppendsAndFoldsAtFive := by
  intro s dst h p r tb sa hs hsk fidx k tb' sa' after
  have hp := (Sketch.wf_sparse_iff.mp (State.sketch_wf_of_wf hs hsk)).1
  have htb : tb ++ [hashEntry p r h] = tb' := by
    rw [hashEntry_eq_ofNat hp, topBits_eq_div]
    rfl
  have hexec {x : Payload} (e : addSparse p r tb sa h = ⟨p, r, x⟩) :
      exec (.add dst h) s = .next (after x) := by
    rw [exec_add_of_sketch hsk, Sketch.add_sparse, e]
    rfl
  have hadd := addSparse_cases p r tb sa h
  rw [htb, bufferCapacity] at hadd
  refine ⟨fun hlt => ?_, fun h4 hlt => ?_, fun h4 hge => ?_⟩
  · obtain ⟨_, e⟩ := hadd.resolve_right fun hc => by omega
    exact hexec e
  · obtain ⟨_, e⟩ := hadd.resolve_left fun hc => hc.1 (by omega)
    obtain ⟨_, e'⟩ := (Sketch.fold_sparse_cases p r tb' sa).resolve_right
      fun hc => Nat.not_le.mpr hlt hc.1
    exact hexec (e.trans e')
  · obtain ⟨_, e⟩ := hadd.resolve_left fun hc => hc.1 (by omega)
    obtain ⟨_, e'⟩ := (Sketch.fold_sparse_cases p r tb' sa).resolve_left
      fun hc => Nat.not_le.mpr hc.1 hge
    refine ⟨_, hexec (e.trans e'), denseWf_promoted hp sa', fun i _ => ?_⟩
    rw [regRead_promoted hp]
    simp only [Nat.shiftRight_eq_div_pow]
    rfl

end Sys2Proof.Machine
end

section
/-! PROOFS for spec/42_merge.md: how `MERGE` ends, the context it leaves in the destination, and the
laws of R168 to R170. -/

namespace Sys2Proof.Machine

/-! ## The shape check (R160, R172) -/

section
variable {s : State} {dst src : ContextId} {a b : Sketch}
  (ha : s.sketch? dst = some a) (hb : s.sketch? src = some b)

include ha hb

theorem exec_merge_of_compatible (hc : a.compatible b = true) :
    exec (.merge dst src) s = .next ((s.mergeContexts dst src).complete 0 []) := by
  rw [exec, execMerge, State.withSketch_of_some ha, State.withSketch_of_some hb, if_pos hc]

theorem exec_merge_of_incompatible (hc : ¬ a.compatible b = true) :
    exec (.merge dst src) s = .next (s.raise .incompatibleShape) := by
  rw [exec, execMerge, State.withSketch_of_some ha, State.withSketch_of_some hb, if_neg hc]

end

/-- Settles O35: the shape check comes before any fold. -/
theorem shapeMismatchRefusesMerge : Obligations.ShapeMismatchRefusesMerge := by
  intro s dst src a b ha hb hne
  refine exec_merge_of_incompatible ha hb fun hc => ?_
  obtain ⟨hp, hr⟩ := Sketch.compatible_iff.mp hc
  exact hne.elim (· hp) (· hr)

/-! ## The contexts after a merge (R161, R171) -/

section
variable {s : State} {dst src : ContextId} {a b : Sketch}

/-- Two contexts: the destination's own fold is written over by the result. -/
theorem State.mergeContexts_of_ne (hne : dst ≠ src) (ha : s.sketch? dst = some a)
    (hb : s.sketch? src = some b) :
    s.mergeContexts dst src = { s with
      contexts := (s.contexts.set src.toNat (some b.fold)).set dst.toNat
        (some (a.fold.mergeFrom b.fold)) } := by
  have hidx : dst.toNat ≠ src.toNat := fun e => hne (BitVec.eq_of_toNat_eq e)
  rw [State.mergeContexts_eq ha hb, mergeWrites, if_neg hne]
  simp only [writeContexts_cons, writeContexts_nil]
  rw [List.set_comm _ _ hidx, List.set_set]

/-- One context: its second fold finds nothing to do (R170). -/
theorem State.mergeContexts_same (hw : a.wf = true) (ha : s.sketch? dst = some a) :
    s.mergeContexts dst dst = { s with
      contexts := s.contexts.set dst.toNat (some (a.fold.mergeFrom a.fold)) } := by
  rw [State.mergeContexts_eq ha ha, mergeWrites, if_pos rfl, Sketch.fold_fold hw]
  simp only [writeContexts_cons, writeContexts_nil, List.set_set]

/-- The destination takes the merge of the two folded operands, whether or not they are one
context. -/
theorem State.sketch?_mergeContexts_dst (hw : a.wf = true) (ha : s.sketch? dst = some a)
    (hb : s.sketch? src = some b) :
    (s.mergeContexts dst src).sketch? dst = some (a.fold.mergeFrom b.fold) := by
  rw [State.sketch?_eq_some, State.context?_mergeContexts ha hb, if_pos rfl]
  by_cases h : dst = src
  · subst h
    obtain rfl := Option.some.inj (ha.symm.trans hb)
    simp only [if_true, Sketch.fold_fold hw]
  · simp only [if_neg h]

end

/-! ## The modes of the result (R163 to R166) -/

/-- Sparse into Sparse: the union of the arrays, and the promotion test (R163). -/
theorem Sketch.mergeFrom_of_sparse {a b : Sketch} {ta sa tb sb : List Word}
    (ha : a.payload = .sparse ta sa) (hb : b.payload = .sparse tb sb) :
    a.mergeFrom b = Sketch.promoteIfFull ⟨a.p, a.r, .sparse ta (union a.p a.r sa sb)⟩ := by
  simp only [Sketch.mergeFrom, ha, hb]

theorem Sketch.mode_mergeFrom_of_dense_source (a : Sketch) {b : Sketch} (h : b.mode = .dense) :
    (a.mergeFrom b).mode = .dense := by
  rcases b with ⟨p, r, ⟨tb, sb⟩ | words⟩
  · cases h
  · rcases a with ⟨p', r', ⟨ta, sa⟩ | words'⟩ <;> rfl

/-- Settles O36: the modes of the two folded operands decide the pairing. -/
theorem mergeCompletes : Obligations.MergeCompletes := by
  intro s dst src a b hs hne ha hb hp hr
  have hc : a.compatible b = true := Sketch.compatible_iff.mpr ⟨hp, hr⟩
  have hwa := Sketch.wf_fold (State.sketch_wf_of_wf hs ha)
  have hwb := Sketch.wf_fold (State.sketch_wf_of_wf hs hb)
  obtain ⟨hdp, hdr⟩ := a.fold.shape_mergeFrom b.fold
  refine ⟨a.fold.mergeFrom b.fold, ?_, hdp.trans a.p_fold, hdr.trans a.r_fold,
    Sketch.wf_mergeFrom hwa hwb (Sketch.compatible_fold hc), fun sa sb hsa hsb hlt => ?_,
    fun sa sb hsa hsb hle => ?_, ?_⟩
  · rw [exec_merge_of_compatible ha hb hc, State.mergeContexts_of_ne hne ha hb]
    rfl
  · rw [Sketch.mergeFrom_of_sparse hsa hsb, Sketch.p_fold, Sketch.r_fold]
    obtain ⟨_, e⟩ := (Sketch.promoteIfFull_cases a.p a.r [] (union a.p a.r sa sb)).resolve_right
      fun h => Nat.not_le.mpr hlt h.1
    rw [e]
  · rw [Sketch.mergeFrom_of_sparse hsa hsb, Sketch.p_fold, Sketch.r_fold]
    obtain ⟨_, e⟩ := (Sketch.promoteIfFull_cases a.p a.r [] (union a.p a.r sa sb)).resolve_left
      fun h => Nat.not_le.mpr h.1 hle
    rw [e]
    rfl
  · rintro (h | h)
    · exact Sketch.mode_mergeFrom_of_dense h _
    · exact Sketch.mode_mergeFrom_of_dense_source _ h

/-! ## The maximum of the two contents (R168) -/

theorem Sketch.coarse_mergeFrom_fold {a b : Sketch} (ha : a.wf = true) (hb : b.wf = true)
    (hc : a.compatible b = true) {i : Nat} (hi : i < regCount a.p) :
    (a.fold.mergeFrom b.fold).coarse i = max (a.coarse i) (b.coarse i) := by
  rw [Sketch.coarse_mergeFrom (Sketch.wf_fold ha) (Sketch.compatible_fold hc) a.tcnt_fold
    b.tcnt_fold (by rwa [Sketch.p_fold]), Sketch.coarse_fold (Sketch.paramsOk_of_wf ha),
    Sketch.coarse_fold (Sketch.paramsOk_of_wf hb)]

/-- A fold that leaves the sketch Sparse keeps the fine content (R36). -/
theorem Sketch.fine_fold {a : Sketch} (ha : a.wf = true) (hm : a.fold.mode = .sparse) (f : Nat) :
    a.fold.fine f = a.fine f := by
  rcases a with ⟨p, r, ⟨tb, sa⟩ | words⟩
  · rcases Sketch.fold_sparse_cases p r tb sa with ⟨_, e⟩ | ⟨_, e⟩
    · rw [e, Sketch.fine_folded_array (Sketch.paramsOk_of_wf ha)]
    · rw [e] at hm
      cases hm
  · rfl

/-- A merge of two sketches with empty buffers that leaves a Sparse sketch keeps the larger rank at
every fine index. -/
theorem Sketch.fine_mergeFrom {a b : Sketch} (ha : a.wf = true) (hc : a.compatible b = true)
    (ha0 : a.tcnt = 0) (hb0 : b.tcnt = 0) (hm : (a.mergeFrom b).mode = .sparse) (f : Nat) :
    (a.mergeFrom b).fine f = max (a.fine f) (b.fine f) := by
  rcases a with ⟨p, r, pa⟩
  rcases b with ⟨p', r', pb⟩
  obtain ⟨rfl, rfl⟩ : p = p' ∧ r = r' := Sketch.compatible_iff.mp hc
  rcases pa with ⟨ta, sa⟩ | words <;> rcases pb with ⟨tb, sb⟩ | words'
  · obtain rfl := List.eq_nil_of_length_eq_zero ha0
    obtain rfl := List.eq_nil_of_length_eq_zero hb0
    rw [Sketch.mergeFrom_of_sparse rfl rfl] at hm ⊢
    rcases Sketch.promoteIfFull_cases p r [] (union p r sa sb) with ⟨_, e⟩ | ⟨_, e⟩
    · rw [e]
      exact maxRank_union (Sketch.paramsOk_of_wf ha) _ sa sb
    · rw [e] at hm
      cases hm
  · cases hm
  · cases hm
  · cases hm

/-- The operands of a merge that leaves a Sparse sketch are Sparse. -/
theorem Sketch.modes_of_mergeFrom_sparse {a b : Sketch} (hm : (a.mergeFrom b).mode = .sparse) :
    a.mode = .sparse ∧ b.mode = .sparse := by
  constructor
  · cases h : a.mode with
    | sparse => rfl
    | dense => cases hm.symm.trans (Sketch.mode_mergeFrom_of_dense h b)
  · cases h : b.mode with
    | sparse => rfl
    | dense => cases hm.symm.trans (a.mode_mergeFrom_of_dense_source h)

/-- Settles O37: the folds keep both contents, and the four pairings take the maximum. -/
theorem mergeIsTheMaximum : Obligations.MergeIsTheMaximum := by
  intro s t dst src a b d hs ha hb hp hr h hd
  have hc : a.compatible b = true := Sketch.compatible_iff.mpr ⟨hp, hr⟩
  have hwa := State.sketch_wf_of_wf hs ha
  have hwb := State.sketch_wf_of_wf hs hb
  obtain rfl := Host.Outcome.next.inj ((exec_merge_of_compatible ha hb hc).symm.trans h)
  obtain rfl := Option.some.inj ((State.sketch?_mergeContexts_dst hwa ha hb).symm.trans hd)
  refine ⟨fun i hi => Sketch.coarse_mergeFrom_fold hwa hwb hc hi, fun hm f => ?_⟩
  obtain ⟨hma, hmb⟩ := Sketch.modes_of_mergeFrom_sparse hm
  rw [Sketch.fine_mergeFrom (Sketch.wf_fold hwa) (Sketch.compatible_fold hc) a.tcnt_fold
    b.tcnt_fold hm, Sketch.fine_fold hwa hma, Sketch.fine_fold hwb hmb]

/-! ## Merging a context with itself (R170) -/

theorem mergeWords_self (p r : Nat) (words : List Word) : mergeWords p r words words = words :=
  List.foldl_fixed' (fun _ => updateMax_of_le le_rfl) _

/-- A well-formed sketch with an empty buffer is its own merge with itself. -/
theorem Sketch.mergeFrom_self {a : Sketch} (hw : a.wf = true) (h0 : a.tcnt = 0) :
    a.mergeFrom a = a := by
  rcases a with ⟨p, r, ⟨tb, sa⟩ | words⟩
  · obtain rfl := List.eq_nil_of_length_eq_zero h0
    obtain ⟨hp, hsp⟩ := Sketch.wf_sparse_iff.mp hw
    obtain ⟨_, hlen, _, hsa, hs⟩ := sparseWf_iff.mp hsp
    rw [Sketch.mergeFrom_of_sparse rfl rfl, union_self hp hsa, sortDedup_of_sorted hs]
    exact if_neg (Nat.not_le.mpr hlen)
  · exact congrArg (fun ws => (⟨p, r, .dense ws⟩ : Sketch)) (mergeWords_self p r words)

/-- Settles O38: after the first fold both the second one and the merge find nothing to do. -/
theorem selfMergeIsOneFold : Obligations.SelfMergeIsOneFold := by
  intro s dst a hs ha
  have hw := State.sketch_wf_of_wf hs ha
  rw [exec_merge_of_compatible ha ha a.compatible_self, State.mergeContexts_same hw ha,
    Sketch.mergeFrom_self (Sketch.wf_fold hw) a.tcnt_fold]
  rfl

/-! ## Merging is commutative and associative (R169) -/

/-- A merge of two sketches of one shape completes; it gives the destination the larger of the two
counters at every index and changes no shape and no other coarse content, not even the source's
(R168, R171). -/
theorem exec_merge_coarse {s : State} {x y : ContextId} {a b : Sketch} (hs : s.wf = true)
    (ha : s.sketch? x = some a) (hb : s.sketch? y = some b) (hp : a.p = b.p) (hr : a.r = b.r) :
    ∃ t, exec (.merge x y) s = .next t ∧ t.wf = true ∧
      ∀ z c, s.sketch? z = some c → ∃ d, t.sketch? z = some d ∧ d.p = c.p ∧ d.r = c.r ∧
        ∀ i < 2 ^ c.p, d.coarse i = if z = x then max (a.coarse i) (b.coarse i) else c.coarse i := by
  have hc : a.compatible b = true := Sketch.compatible_iff.mpr ⟨hp, hr⟩
  have hwa := State.sketch_wf_of_wf hs ha
  have hwb := State.sketch_wf_of_wf hs hb
  have hexec := exec_merge_of_compatible ha hb hc
  refine ⟨_, hexec, (exec_effect hexec).wf hs, fun z c hz => ?_⟩
  rw [State.sketch?_complete]
  by_cases hx : z = x
  · subst hx
    obtain rfl := Option.some.inj (ha.symm.trans hz)
    obtain ⟨hdp, hdr⟩ := a.fold.shape_mergeFrom b.fold
    refine ⟨_, State.sketch?_mergeContexts_dst hwa ha hb, hdp.trans a.p_fold, hdr.trans a.r_fold,
      fun i hi => ?_⟩
    rw [if_pos rfl, Sketch.coarse_mergeFrom_fold hwa hwb hc hi]
  · have hctx := State.context?_mergeContexts ha hb z
    rw [if_neg hx] at hctx
    simp only [if_neg hx]
    by_cases hy : z = y
    · subst hy
      obtain rfl := Option.some.inj (hb.symm.trans hz)
      rw [if_pos rfl] at hctx
      exact ⟨b.fold, State.sketch?_eq_some.mpr hctx, b.p_fold, b.r_fold,
        fun i _ => Sketch.coarse_fold (Sketch.paramsOk_of_wf hwb) i⟩
    · rw [if_neg hy] at hctx
      exact ⟨c, by rw [State.sketch?, hctx]; exact hz, rfl, rfl, fun _ _ => rfl⟩

/-- Settles O39: every merge takes a maximum. Where two of the contexts are one, the merge before has
already raised its counters, which the later maximum does not see. -/
theorem mergeIsCommutativeAndAssociative : Obligations.MergeIsCommutativeAndAssociative := by
  constructor
  · intro s x y a b hs ha hb hp hr
    obtain ⟨t, ht, _, hxy⟩ := exec_merge_coarse hs ha hb hp hr
    obtain ⟨u, hu, _, hyx⟩ := exec_merge_coarse hs hb ha hp.symm hr.symm
    obtain ⟨d, hd, _, _, hdi⟩ := hxy x a ha
    obtain ⟨e, he, _, _, hei⟩ := hyx y b hb
    refine ⟨t, u, d, e, ht, hu, hd, he, fun i hi => ?_⟩
    rw [hdi i hi, hei i (hp ▸ hi), if_pos rfl, if_pos rfl, max_comm]
  · intro s x y z a b c hs ha hb hc hp hr hp' hr'
    -- `MERGE x, y` and then `MERGE x, z`
    obtain ⟨t, ht, hwt, hxy⟩ := exec_merge_coarse hs ha hb hp hr
    obtain ⟨a₁, ha₁, hap, har, hai⟩ := hxy x a ha
    obtain ⟨c₁, hc₁, hcp, hcr, hci⟩ := hxy z c hc
    obtain ⟨t', ht', _, hxz⟩ := exec_merge_coarse hwt ha₁ hc₁ (by omega) (by omega)
    obtain ⟨d, hd, _, _, hdi⟩ := hxz x a₁ ha₁
    -- `MERGE y, z` and then `MERGE x, y`
    obtain ⟨u, hu, hwu, hyz⟩ := exec_merge_coarse hs hb hc hp' hr'
    obtain ⟨b₂, hb₂, hbp, hbr, hbi⟩ := hyz y b hb
    obtain ⟨a₂, ha₂, hap₂, har₂, hai₂⟩ := hyz x a ha
    obtain ⟨u', hu', _, hxy'⟩ := exec_merge_coarse hwu ha₂ hb₂ (by omega) (by omega)
    obtain ⟨e, he, _, _, hei⟩ := hxy' x a₂ ha₂
    refine ⟨t, t', u, u', d, e, ht, ht', hu, hu', hd, he, fun i hi => ?_⟩
    -- a shared context holds what its first merge raised, and the last maximum absorbs that
    have hleft : max (max (a.coarse i) (b.coarse i))
        (if z = x then max (a.coarse i) (b.coarse i) else c.coarse i) =
          max (max (a.coarse i) (b.coarse i)) (c.coarse i) := by
      split
      · next h =>
        obtain rfl := Option.some.inj (ha.symm.trans (h ▸ hc))
        omega
      · rfl
    have hright : max (if x = y then max (b.coarse i) (c.coarse i) else a.coarse i)
        (max (b.coarse i) (c.coarse i)) = max (a.coarse i) (max (b.coarse i) (c.coarse i)) := by
      split
      · next h =>
        obtain rfl := Option.some.inj (ha.symm.trans (h ▸ hb))
        omega
      · rfl
    rw [hdi i (by rwa [hap]), hei i (by rwa [hap₂]), if_pos rfl, if_pos rfl, hai i hi,
      hci i (by rwa [← hp', ← hp]), hbi i (by rwa [← hp]), hai₂ i hi, if_pos rfl, if_pos rfl,
      hleft, hright, max_assoc]

end Sys2Proof.Machine
end

section
/-! PROOFS for spec/43_estimator.md, first part: how `EST` ends, what the estimate reads, and the
estimate of a fresh sketch. -/

namespace Sys2Proof.Machine

/-! ## How `EST` ends (R180, R189) -/

section
variable {s : State} {dst : ContextId} {a : Sketch} (ha : s.sketch? dst = some a)

include ha

theorem exec_est_of_sketch :
    exec (.est dst) s =
      .next ((s.setContext dst (some a.fold)).completeEstimate a.fold.estimate) := by
  rw [exec, execEst, State.withSketch_of_some ha]

theorem exec_est_of_estimate {v : DWord} (hv : a.fold.estimate = some v) :
    exec (.est dst) s = .next { s with
      contexts := s.contexts.set dst.toNat (some a.fold), response := some ⟨.ok, v, []⟩ } := by
  rw [exec_est_of_sketch ha, hv]
  rfl

theorem exec_est_of_no_estimate (hv : a.fold.estimate = none) :
    exec (.est dst) s = .next { s with
      contexts := s.contexts.set dst.toNat (some a.fold)
      response := some ⟨.ok, Config.freeEstimate s.draws, []⟩
      draws := s.draws + 1 } := by
  rw [exec_est_of_sketch ha, hv]
  rfl

end

/-- Settles O40, by whether a rule gives the estimate. -/
theorem estFoldsAndAnswers : Obligations.EstFoldsAndAnswers := by
  intro s dst a ha
  cases hv : a.fold.estimate with
  | some v => exact ⟨v, s.draws, exec_est_of_estimate ha hv, .inl ⟨rfl, rfl⟩⟩
  | none => exact ⟨_, s.draws + 1, exec_est_of_no_estimate ha hv, .inr ⟨rfl, rfl⟩⟩

/-! ## What the estimate reads (R190) -/

/-- How many counters hold `v`, counted over the indices. -/
theorem count_counters (p r : Nat) (words : List Word) (v : Nat) :
    (counters p r words).count v =
      ((List.range (2 ^ p)).filter fun i => regRead r words i == v).length := by
  rw [counters, List.count, List.countP_map, List.countP_eq_length_filter]
  rfl

theorem histogram_congr {values values' : List Nat}
    (h : ∀ v, values.count v = values'.count v) : histogram values = histogram values' :=
  List.map_congr_left fun v _ => h v

/-- Settles O42: a Dense estimate is taken of the histogram, a Sparse one of the array's length. -/
theorem estimateReadsOnlyTheHistogram : Obligations.EstimateReadsOnlyTheHistogram := by
  constructor
  · intro p r r' w w' h
    refine congrArg (denseEstimate p) (histogram_congr fun v => ?_)
    rw [count_counters, count_counters]
    exact h v
  · intro p r r' tb sa tb' sa' h
    exact congrArg (fun n => some (sparseEstimate p n)) h

/-! ## Fresh sketches (R187) -/

/-- The first entry of the histogram counts the counters that are 0. -/
theorem histogram_headD (values : List Nat) : (histogram values).headD 0 = values.count 0 := rfl

theorem estimate_newSparse (p r : Nat) : (newSparse p r).estimate = some 0 := rfl

theorem denseEstimate_of_all_zero {p : Nat} {hist : List Nat} (h : hist.headD 0 = regCount p) :
    denseEstimate p hist = some 0 := if_pos h

theorem counters_zeroWords (p r : Nat) :
    counters p r (zeroWords p r) = List.replicate (regCount p) 0 := by
  simp [counters]

theorem estimate_newDense (p r : Nat) : (newDense p r).estimate = some 0 :=
  denseEstimate_of_all_zero <| by
    rw [histogram_headD, newDense, counters_zeroWords, List.count_replicate_self]

/-- `EST` of a folded sketch whose estimate is 0. -/
theorem exec_est_zero {s : State} {dst : ContextId} {a : Sketch} (ha : s.sketch? dst = some a)
    (hf : a.fold = a) (h0 : a.estimate = some 0) :
    exec (.est dst) s = .next { s with response := some ⟨.ok, 0, []⟩ } := by
  rw [exec_est_of_folded ha hf, h0]
  rfl

/-- Settles O41: a fresh sketch has nothing to fold, and its array or all its counters are empty. -/
theorem freshSketchEstimatesZero : Obligations.FreshSketchEstimatesZero := by
  rintro s dst p r hp (ha | ha)
  · exact exec_est_zero ha (Sketch.fold_of_empty_buffer (newSparse_wf hp) rfl)
      (estimate_newSparse p r)
  · exact exec_est_zero ha rfl (estimate_newDense p r)

end Sys2Proof.Machine
end

section
/-! PROOFS for spec/43_estimator.md, second part: the integer bounds of a computed `scale · ln(a / b)`
hold its reference value, and leave it by no more than the rounding error. -/

namespace Sys2Proof.Machine

open Real

/-! ## Integer parts -/

/-- The integer part of a quotient of natural numbers. -/
theorem floor_natCast_div (n d : ℕ) : ⌊(n : ℝ) / d⌋ = ((n / d : ℕ) : ℤ) := by
  rw [Int.floor_div_natCast, Int.floor_natCast, Int.natCast_ediv]

theorem natDiv_le_floor {n d : ℕ} {x : ℝ} (h : (n : ℝ) / d ≤ x) : ((n / d : ℕ) : ℤ) ≤ ⌊x⌋ :=
  floor_natCast_div n d ▸ Int.floor_le_floor h

theorem floor_le_natDiv {n d : ℕ} {x : ℝ} (h : x ≤ (n : ℝ) / d) : ⌊x⌋ ≤ ((n / d : ℕ) : ℤ) :=
  floor_natCast_div n d ▸ Int.floor_le_floor h

/-! ## The rounding error of a logarithmic value (R190 item 3) -/

/-- The rounding error of a computed `x = scale · ln(…)`: the part `ε / 2^128` of the scale and of `x`,
and `2^(-64)` for the width of the integer bounds. -/
noncomputable def logSlack (ε : ℕ) (scale x : ℝ) : ℝ := (scale + x) * (ε / 2 ^ 128) + 1 / 2 ^ 64

theorem logSlack_nonneg (ε : ℕ) {scale x : ℝ} (hs : 0 ≤ scale) (hx : 0 ≤ x) :
    0 ≤ logSlack ε scale x := by
  unfold logSlack
  positivity

/-! ## The bounds of a logarithmic value -/

section
variable {a b : ℕ} (hb : 0 < b) (hab : b ≤ a)

include hb hab

theorem log_ratio_nonneg : 0 ≤ log ((a : ℝ) / b) :=
  log_nonneg <| (one_le_div (by exact_mod_cast hb)).mpr (by exact_mod_cast hab)

theorem log_ratio_le {k : ℕ} (ha : a < 2 ^ k) : log ((a : ℝ) / b) ≤ k := by
  have hbr : (1 : ℝ) ≤ b := by exact_mod_cast hb
  have har : (0 : ℝ) < a := by exact_mod_cast hb.trans_le hab
  calc log ((a : ℝ) / b) ≤ log (2 ^ k) := by
        refine log_le_log (by positivity) ((div_le_self har.le hbr).trans ?_)
        exact_mod_cast ha.le
    _ = k * log 2 := log_pow 2 k
    _ ≤ k * 1 := by
        gcongr
        exact log_two_lt_d9.le.trans (by norm_num)
    _ = k := mul_one _

theorem lnExponent_lt {k : ℕ} (ha : a < 2 ^ k) : lnExponent a b < k :=
  (Nat.pow_lt_pow_iff_right Nat.one_lt_two).mp <|
    calc 2 ^ lnExponent a b ≤ b * 2 ^ lnExponent a b := Nat.le_mul_of_pos_left _ hb
      _ ≤ a := (lnExponent_spec hb hab).1
      _ < 2 ^ k := ha

theorem scale_mul_lnLo_le (scale : ℕ) :
    (scale : ℝ) * lnLo a b ≤ 2 ^ lnFrac * (scale * log ((a : ℝ) / b)) := by
  rw [mul_left_comm]
  exact mul_le_mul_of_nonneg_left (lnLo_le hb hab) (Nat.cast_nonneg scale)

theorem le_scale_mul_lnHi (scale : ℕ) :
    2 ^ lnFrac * (scale * log ((a : ℝ) / b)) ≤ (scale : ℝ) * lnHi a b := by
  rw [mul_left_comm]
  exact mul_le_mul_of_nonneg_left (le_lnHi hb hab) (Nat.cast_nonneg scale)

/-- The two integer bounds of one logarithm are less than `2^(-64)` apart. -/
theorem scale_mul_lnHi_le {scale k : ℕ} (hs : scale ≤ 2 ^ 32) (hk : k ≤ 300) (ha : a < 2 ^ k) :
    (scale : ℝ) * lnHi a b ≤ scale * lnLo a b + (2 ^ 64 - 1) := by
  have he := lnExponent_lt hb hab ha
  have hgap := calc
    scale * lnHi a b ≤ scale * (lnLo a b + 518 * (lnExponent a b + 1)) :=
        Nat.mul_le_mul_left _ (ln_gap hb hab)
    _ = scale * lnLo a b + scale * (518 * (lnExponent a b + 1)) := Nat.mul_add ..
    _ ≤ scale * lnLo a b + 2 ^ 32 * (518 * 300) := by gcongr; omega
  have := (Nat.cast_le (α := ℝ)).mpr hgap
  push_cast at this
  linarith

/-- The integer slack leaves room for that width. -/
theorem lnSlack_add_le (ε scale : ℕ) :
    (lnSlack ε scale (lnLo a b) : ℝ) + (2 ^ 64 - 1) ≤
      2 ^ lnFrac * logSlack ε scale (scale * log ((a : ℝ) / b)) := by
  have hdiv : (((scale * 2 ^ lnFrac + scale * lnLo a b) * ε / 2 ^ errorFrac : ℕ) : ℝ) ≤
      (scale * 2 ^ lnFrac + scale * lnLo a b) * (ε / 2 ^ errorFrac) :=
    (cast_div_le _ _).trans_eq (by push_cast; ring)
  have hpart := mul_le_mul_of_nonneg_right (scale_mul_lnLo_le hb hab scale)
    (by positivity : (0 : ℝ) ≤ ε / 2 ^ 128)
  rw [lnSlack, logSlack, Nat.cast_add, Nat.cast_one]
  simp only [lnFrac, errorFrac] at *
  linarith

/-- The reference value lies between the bounds, whatever the rounding error. -/
theorem lnForm_holds_reference (ε scale offset : ℕ) :
    (lnFormLo ε scale a b offset : ℤ) ≤ ⌊scale * log ((a : ℝ) / b) + offset / 2 ^ lnFrac⌋ ∧
      ⌊scale * log ((a : ℝ) / b) + offset / 2 ^ lnFrac⌋ ≤ (lnFormHi ε scale a b offset : ℤ) := by
  have hpos : (0 : ℝ) < (2 ^ lnFrac : ℕ) := by positivity
  constructor
  · refine natDiv_le_floor ((div_le_iff₀ hpos).mpr ?_)
    have hsub : ((scale * lnLo a b + offset - lnSlack ε scale (lnLo a b) : ℕ) : ℝ) ≤
        ((scale * lnLo a b + offset : ℕ) : ℝ) := by exact_mod_cast Nat.sub_le _ _
    refine hsub.trans ?_
    have := scale_mul_lnLo_le hb hab scale
    push_cast
    field_simp
    linarith
  · refine floor_le_natDiv ((le_div_iff₀ hpos).mpr ?_)
    have := le_scale_mul_lnHi hb hab scale
    push_cast
    field_simp
    have : (0 : ℝ) ≤ lnSlack ε scale (lnLo a b) := Nat.cast_nonneg _
    linarith

/-- The bounds leave the reference value by no more than the rounding error. -/
theorem lnForm_within_slack {scale k : ℕ} (hs : scale ≤ 2 ^ 32) (hk : k ≤ 300) (ha : a < 2 ^ k)
    (ε offset : ℕ) :
    ⌊scale * log ((a : ℝ) / b) + offset / 2 ^ lnFrac -
          logSlack ε scale (scale * log ((a : ℝ) / b))⌋ ≤ (lnFormLo ε scale a b offset : ℤ) ∧
      (lnFormHi ε scale a b offset : ℤ) ≤
        ⌊scale * log ((a : ℝ) / b) + offset / 2 ^ lnFrac +
          logSlack ε scale (scale * log ((a : ℝ) / b))⌋ := by
  have hpos : (0 : ℝ) < (2 ^ lnFrac : ℕ) := by positivity
  have hlo := scale_mul_lnLo_le hb hab scale
  have hhi := le_scale_mul_lnHi hb hab scale
  have hslack := lnSlack_add_le hb hab ε scale
  have hgap := scale_mul_lnHi_le hb hab hs hk ha
  constructor
  · refine floor_le_natDiv ((le_div_iff₀ hpos).mpr ?_)
    have hsub : ((scale * lnLo a b + offset : ℕ) : ℝ) ≤
        ((scale * lnLo a b + offset - lnSlack ε scale (lnLo a b) : ℕ) : ℝ) +
          lnSlack ε scale (lnLo a b) := by exact_mod_cast le_tsub_add
    push_cast at hsub ⊢
    rw [sub_mul, add_mul, div_mul_cancel₀ _ (by positivity)]
    linarith
  · refine natDiv_le_floor ((div_le_iff₀ hpos).mpr ?_)
    push_cast
    rw [add_mul, add_mul, div_mul_cancel₀ _ (by positivity)]
    linarith

theorem lnFormLo_lt {scale offset k : ℕ} (hs : scale ≤ 2 ^ 32) (hk : k ≤ 300) (ha : a < 2 ^ k)
    (ho : offset ≤ 2 ^ lnFrac) (ε : ℕ) : lnFormLo ε scale a b offset < 2 ^ 64 := by
  have hlog : scale * log ((a : ℝ) / b) ≤ 2 ^ 32 * (300 : ℝ) :=
    mul_le_mul (by exact_mod_cast hs) ((log_ratio_le hb hab ha).trans (by exact_mod_cast hk))
      (log_ratio_nonneg hb hab)
      (by positivity)
  have hoff : (offset : ℝ) / 2 ^ lnFrac ≤ 1 := by
    rw [div_le_one (by positivity)]
    exact_mod_cast ho
  have h := (lnForm_holds_reference hb hab ε scale offset).1.trans
    (Int.floor_le_floor (add_le_add hlog hoff))
  norm_num at h
  omega

end

end Sys2Proof.Machine
end

section
/-! PROOFS for spec/43_estimator.md, third part: the Sparse estimate is rounded linear counting (R182,
R183). -/

namespace Sys2Proof.Machine

open Real

/-- Linear counting at the fine scale (R182): `m' · ln(m' / (m' - n))` for `m' = 2^sp`. -/
noncomputable def linearCounting (p n : ℕ) : ℝ :=
  2 ^ (p + 4) * log (2 ^ (p + 4) / (2 ^ (p + 4) - n))

theorem linearCounting_zero (p : ℕ) : linearCounting p 0 = 0 := by
  simp [linearCounting]

/-- The offset that turns `floor` into `round`. -/
theorem cast_oneHalf_div : ((oneHalf : ℕ) : ℝ) / 2 ^ lnFrac = 1 / 2 := by
  norm_num [oneHalf, lnFrac]

theorem two_pow_fineWidth_le {p : ℕ} (hp : p ≤ 18) : 2 ^ fineWidth p ≤ 2 ^ 32 :=
  Nat.pow_le_pow_right Nat.two_pos (by rw [fineWidth]; omega)

section
variable {p n : ℕ} (hn : n < 2 ^ p)

include hn

theorem lt_two_pow_fineWidth : n < 2 ^ fineWidth p :=
  hn.trans_le (Nat.pow_le_pow_right Nat.two_pos (Nat.le_add_right p 4))

theorem linearCounting_eq :
    linearCounting p n = (2 ^ fineWidth p : ℕ) *
      log ((2 ^ fineWidth p : ℕ) / (2 ^ fineWidth p - n : ℕ)) := by
  rw [Nat.cast_sub (lt_two_pow_fineWidth hn).le]
  push_cast
  rfl

theorem sparseRange_holds_reference (ε : ℕ) :
    ((sparseRange ε p n).lo : ℤ) ≤ ⌊linearCounting p n + 1 / 2⌋ ∧
      ⌊linearCounting p n + 1 / 2⌋ ≤ ((sparseRange ε p n).hi : ℤ) := by
  rw [linearCounting_eq hn, ← cast_oneHalf_div]
  exact lnForm_holds_reference (Nat.sub_pos_of_lt (lt_two_pow_fineWidth hn)) (Nat.sub_le _ _) ..

variable (hp : p ≤ 18)

include hp

theorem sparseRange_within_slack (ε : ℕ) :
    ⌊linearCounting p n + 1 / 2 - logSlack ε (2 ^ (p + 4)) (linearCounting p n)⌋ ≤
        ((sparseRange ε p n).lo : ℤ) ∧
      ((sparseRange ε p n).hi : ℤ) ≤
        ⌊linearCounting p n + 1 / 2 + logSlack ε (2 ^ (p + 4)) (linearCounting p n)⌋ := by
  have hm : (2 ^ (p + 4) : ℝ) = (2 ^ fineWidth p : ℕ) := by push_cast; rfl
  rw [hm, linearCounting_eq hn, ← cast_oneHalf_div]
  have hle := two_pow_fineWidth_le hp
  exact lnForm_within_slack (Nat.sub_pos_of_lt (lt_two_pow_fineWidth hn)) (Nat.sub_le _ _) hle
    (k := 33) (by decide) (hle.trans_lt (by decide)) ..

theorem sparseEstimate_within_slack :
    ⌊linearCounting p n + 1 / 2 - logSlack Config.lnError (2 ^ (p + 4)) (linearCounting p n)⌋ ≤
        ((sparseEstimate p n).toNat : ℤ) ∧
      ((sparseEstimate p n).toNat : ℤ) ≤ ⌊linearCounting p n + 1 / 2 +
        logSlack Config.lnError (2 ^ (p + 4)) (linearCounting p n)⌋ := by
  by_cases h0 : n = 0
  · subst h0
    have hslack := logSlack_nonneg Config.lnError (scale := 2 ^ (p + 4)) (by positivity) le_rfl
    rw [linearCounting_zero, show (sparseEstimate p 0).toNat = 0 from rfl]
    constructor
    · exact Int.floor_le_iff.mpr (by push_cast; linarith)
    · exact Int.le_floor.mpr (by push_cast; linarith)
  · have hpos := Nat.sub_pos_of_lt (lt_two_pow_fineWidth hn)
    have hle := two_pow_fineWidth_le hp
    obtain ⟨range, hmem, hc⟩ := pickEstimate_spec (ranges := [sparseRange Config.lnError p n])
      (Config.sparseEstimate p n) (List.cons_ne_nil _ _) fun range hr => by
        rw [List.mem_singleton.mp hr]
        exact ⟨lnFormLo_le_lnFormHi hpos (Nat.sub_le _ _), lnFormLo_lt hpos (Nat.sub_le _ _) hle
          (k := 33) (by decide) (hle.trans_lt (by decide)) (by decide) _⟩
    obtain rfl := List.mem_singleton.mp hmem
    obtain ⟨h1, h2⟩ := EstRange.contains_iff.mp hc
    obtain ⟨h3, h4⟩ := sparseRange_within_slack hn hp Config.lnError
    rw [sparseEstimate, if_neg h0]
    exact ⟨h3.trans (by exact_mod_cast h1), le_trans (by exact_mod_cast h2) h4⟩

end

/-- Settles O44: the range holds the reference value of every array that a Sparse sketch can have. -/
theorem sparseReferenceValueIsAllowed : Obligations.SparseReferenceValueIsAllowed :=
  fun ε _ _ _ _ hn => sparseRange_holds_reference hn ε

/-- The entries of a folded Sparse sketch are fewer than its counters (R44). -/
theorem length_of_sparse_fold {a : Sketch} (hw : a.wf = true) {tb sa : List Word}
    (hf : a.fold.payload = .sparse tb sa) : sa.length < 2 ^ a.p := by
  have h := Sketch.wf_fold hw
  rw [Sketch.wf, hf, Bool.and_eq_true, Sketch.p_fold] at h
  obtain ⟨_, hlen, _⟩ := sparseWf_iff.mp h.2
  exact hlen

/-- Settles O43: the answer lies in the range, which leaves linear counting by no more than the rounding
error. -/
theorem sparseEstimateIsRoundedLinearCounting :
    Obligations.SparseEstimateIsRoundedLinearCounting := by
  intro s dst a tb sa hs ha hf
  have hw := State.sketch_wf_of_wf hs ha
  obtain ⟨⟨_, hp⟩, _⟩ := paramsOk_iff.mp (Sketch.paramsOk_of_wf hw)
  have hlen := length_of_sparse_fold hw hf
  have hest : a.fold.estimate = some (sparseEstimate a.p sa.length) := by
    rw [Sketch.estimate, hf, Sketch.p_fold]
  refine ⟨_, exec_est_of_estimate ha hest, fun h0 => by rw [h0]; rfl, ?_⟩
  exact sparseEstimate_within_slack hlen hp

end Sys2Proof.Machine
end

section
/-! PROOFS for spec/43_estimator.md, fourth part: the accumulators of a Dense sketch and `raw` over the
reals (R184, R185, R186), which the estimator computes from the histogram. -/

namespace Sys2Proof.Machine

/-! ## The accumulators (R184) -/

/-- `sum`: every counter `k` adds `2^(-k)`. -/
noncomputable def harmonicSum (p r : ℕ) (words : List Word) : ℝ :=
  ∑ i ∈ Finset.range (2 ^ p), (1 / 2 : ℝ) ^ regRead r words i

theorem scaledSum_map_range' (f : ℕ → ℕ) (n : ℕ) : ∀ k,
    scaledSum k ((List.range' k n).map f) = ∑ v ∈ Finset.Ico k (k + n), f v * 2 ^ (63 - v) := by
  induction n with
  | zero => intro k; simp [scaledSum]
  | succ n ih =>
    intro k
    rw [List.range'_succ, List.map_cons, scaledSum, ih, Nat.add_assoc, Nat.add_comm 1 n,
      Finset.sum_eq_sum_Ico_succ_bot (show k < k + (n + 1) by omega)]

/-- The sum over the histogram is the sum over the counters. -/
theorem cast_scaledSum_histogram {values : List ℕ} (h : ∀ v ∈ values, v < 64) :
    (scaledSum 0 (histogram values) : ℝ) = 2 ^ 63 * (values.map fun v => (1 / 2 : ℝ) ^ v).sum := by
  have hsub : values.toFinset ⊆ Finset.Ico 0 64 := fun v hv =>
    Finset.mem_Ico.mpr ⟨Nat.zero_le v, h v (List.mem_toFinset.mp hv)⟩
  rw [histogram, List.range_eq_range', scaledSum_map_range', Finset.sum_list_map_count,
    Finset.sum_subset hsub fun v _ hv => by
      rw [List.count_eq_zero_of_not_mem (mt List.mem_toFinset.mpr hv), zero_smul],
    Finset.mul_sum]
  push_cast
  refine Finset.sum_congr rfl fun v hv => ?_
  have hpow : (2 : ℝ) ^ 63 = 2 ^ (63 - v) * 2 ^ v := by
    rw [← pow_add]
    congr 1
    have := (Finset.mem_Ico.mp hv).2
    omega
  rw [nsmul_eq_mul, hpow, one_div, inv_pow]
  field_simp

theorem cast_scaledSum {p r : ℕ} (hp : paramsOk p r = true) (words : List Word) :
    (scaledSum 0 (histogram (counters p r words)) : ℝ) = 2 ^ 63 * harmonicSum p r words := by
  rw [cast_scaledSum_histogram, counters, List.map_map]
  · rfl
  · intro v hv
    obtain ⟨i, _, rfl⟩ := List.mem_map.mp hv
    exact (regRead_lt r words i).trans_le (Nat.pow_le_pow_right Nat.two_pos (width_le hp))

theorem harmonicSum_pos (p r : ℕ) (words : List Word) : 0 < harmonicSum p r words :=
  Finset.sum_pos (fun _ _ => by positivity) ⟨0, by simp⟩

theorem harmonicSum_le (p r : ℕ) (words : List Word) : harmonicSum p r words ≤ 2 ^ p := by
  refine (Finset.sum_le_card_nsmul _ _ 1 fun i _ =>
    pow_le_one₀ (by norm_num) (by norm_num)).trans_eq ?_
  simp

/-- `zeros`: the first entry of the histogram. -/
theorem headD_histogram_counters (p r : ℕ) (words : List Word) :
    (histogram (counters p r words)).headD 0 =
      ((Finset.range (2 ^ p)).filter fun i => regRead r words i = 0).card := by
  rw [histogram_headD, count_counters]
  rfl

theorem headD_histogram_le (p r : ℕ) (words : List Word) :
    (histogram (counters p r words)).headD 0 ≤ regCount p := by
  rw [histogram_headD]
  exact List.count_le_length.trans_eq (by simp [counters])

/-! ## `alpha` and `raw` (R185, R186) -/

/-- `alpha(M)` for `M = 2^p`. -/
noncomputable def alpha (p : ℕ) : ℝ :=
  if p = 4 then 0.673 else if p = 5 then 0.697 else if p = 6 then 0.709
  else 0.7213 / (1 + 1.079 / 2 ^ p)

theorem alpha_eq (p : ℕ) : alpha p = alphaNum p / alphaDen p := by
  unfold alpha alphaNum alphaDen
  split_ifs
  · norm_num
  · norm_num
  · norm_num
  · rw [regCount]
    push_cast
    field_simp
    ring

theorem alphaDen_pos (p : ℕ) : 0 < alphaDen p := by
  unfold alphaDen
  split_ifs <;> omega

theorem alphaNum_le_alphaDen (p : ℕ) : alphaNum p ≤ alphaDen p := by
  unfold alphaNum alphaDen
  split_ifs <;> omega

theorem alphaDen_lt {p : ℕ} (hp : p ≤ 18) : alphaDen p < 2 ^ 32 := by
  have : regCount p ≤ 2 ^ 18 := Nat.pow_le_pow_right Nat.two_pos hp
  unfold alphaDen
  split_ifs <;> omega

/-- `raw`, as the quotient of the estimator's integers. -/
noncomputable def rawValue (p : ℕ) (hist : List ℕ) : ℝ := rawNum p / rawDen p hist

theorem rawValue_eq {p r : ℕ} (hp : paramsOk p r = true) (words : List Word) :
    rawValue p (histogram (counters p r words)) =
      alpha p * (2 ^ p) ^ 2 / harmonicSum p r words := by
  have hpos := harmonicSum_pos p r words
  have hden : (0 : ℝ) < alphaDen p := by exact_mod_cast alphaDen_pos p
  rw [rawValue, rawNum, rawDen, alpha_eq, regCount]
  push_cast
  rw [cast_scaledSum hp]
  field_simp
  norm_num

theorem scaledSum_pos {p r : ℕ} (hp : paramsOk p r = true) (words : List Word) :
    0 < scaledSum 0 (histogram (counters p r words)) := by
  have h : (0 : ℝ) < scaledSum 0 (histogram (counters p r words)) := by
    rw [cast_scaledSum hp]
    exact mul_pos (by positivity) (harmonicSum_pos p r words)
  exact_mod_cast h

theorem scaledSum_le {p r : ℕ} (hp : paramsOk p r = true) (words : List Word) :
    scaledSum 0 (histogram (counters p r words)) ≤ 2 ^ 81 := by
  have h : (scaledSum 0 (histogram (counters p r words)) : ℝ) ≤ 2 ^ 63 * 2 ^ 18 := by
    rw [cast_scaledSum hp]
    gcongr
    exact (harmonicSum_le p r words).trans
      (pow_le_pow_right₀ one_le_two (paramsOk_iff.mp hp).1.2)
  rw [← pow_add] at h
  exact_mod_cast h

theorem rawDen_pos {p r : ℕ} (hp : paramsOk p r = true) (words : List Word) :
    0 < rawDen p (histogram (counters p r words)) :=
  Nat.mul_pos (alphaDen_pos p) (scaledSum_pos hp words)

theorem rawDen_lt {p r : ℕ} (hp : paramsOk p r = true) (words : List Word) :
    rawDen p (histogram (counters p r words)) < 2 ^ 113 :=
  calc rawDen p (histogram (counters p r words)) ≤ alphaDen p * 2 ^ 81 :=
        Nat.mul_le_mul_left _ (scaledSum_le hp words)
    _ < 2 ^ 32 * 2 ^ 81 :=
        Nat.mul_lt_mul_of_pos_right (alphaDen_lt (paramsOk_iff.mp hp).1.2) (by positivity)
    _ = 2 ^ 113 := by norm_num

/-- Where every counter is 0, `raw` is at most `M` (R187). -/
theorem rawValue_le_of_all_zero {p : ℕ} {hist : List ℕ} (h : hist.headD 0 = regCount p) :
    rawValue p hist ≤ 2 ^ p := by
  have hsum : regCount p * 2 ^ 63 ≤ scaledSum 0 hist := by
    rw [← h]
    cases hist with
    | nil => simp
    | cons c cs => exact Nat.le_add_right _ _
  have hnum := calc
    rawNum p = alphaNum p * (regCount p * (regCount p * 2 ^ 63)) := by rw [rawNum]; ring
    _ ≤ alphaDen p * (regCount p * scaledSum 0 hist) :=
        Nat.mul_le_mul (alphaNum_le_alphaDen p) (Nat.mul_le_mul_left _ hsum)
    _ = 2 ^ p * rawDen p hist := by rw [rawDen, regCount]; ring
  refine div_le_of_le_mul₀ (Nat.cast_nonneg _) (by positivity) ?_
  exact_mod_cast hnum

/-- R189. -/
theorem rawOverflows_iff {p : ℕ} {hist : List ℕ} (hpos : 0 < rawDen p hist) :
    rawOverflows p hist = true ↔ 2 ^ 32 ≤ rawValue p hist := by
  rw [rawOverflows, decide_eq_true_eq, rawValue, le_div_iff₀ (by exact_mod_cast hpos)]
  exact_mod_cast Iff.rfl

end Sys2Proof.Machine
end

section
/-! PROOFS for spec/43_estimator.md, fifth part: the three branches of a Dense estimate, the tests that
leave them open, and where their results lie (R186). -/

namespace Sys2Proof.Machine

open Real

/-! ## The small-range branch -/

/-- `M · ln(M / zeros)` for `M = 2^p`. -/
noncomputable def smallValue (p zeros : ℕ) : ℝ := 2 ^ p * log (2 ^ p / zeros)

theorem smallValue_all_zero (p : ℕ) : smallValue p (2 ^ p) = 0 := by
  simp [smallValue]

theorem smallValue_eq (p zeros : ℕ) :
    smallValue p zeros = regCount p * log (regCount p / zeros) + (0 : ℕ) / 2 ^ lnFrac := by
  simp [smallValue, regCount]

section
variable {p zeros : ℕ} (hpos : 0 < zeros) (hle : zeros ≤ regCount p)

include hpos hle

theorem smallRange_holds_reference (ε : ℕ) :
    ((smallRange ε p zeros).lo : ℤ) ≤ ⌊smallValue p zeros⌋ ∧
      ⌊smallValue p zeros⌋ ≤ ((smallRange ε p zeros).hi : ℤ) := by
  rw [smallValue_eq]
  exact lnForm_holds_reference hpos hle ..

theorem smallRange_within_slack (hp : p ≤ 18) (ε : ℕ) :
    ⌊smallValue p zeros - logSlack ε (2 ^ p) (smallValue p zeros)⌋ ≤
        ((smallRange ε p zeros).lo : ℤ) ∧
      ((smallRange ε p zeros).hi : ℤ) ≤
        ⌊smallValue p zeros + logSlack ε (2 ^ p) (smallValue p zeros)⌋ := by
  have hm : (2 ^ p : ℝ) = regCount p := by simp [regCount]
  have hM : regCount p ≤ 2 ^ 18 := Nat.pow_le_pow_right Nat.two_pos hp
  have h := lnForm_within_slack (k := 19) hpos hle (hM.trans (by decide)) (by decide)
    (hM.trans_lt (by decide)) ε 0
  simp only [Nat.cast_zero, zero_div, add_zero, ← hm] at h
  exact h

theorem smallRange_lo_lt (hp : p ≤ 18) (ε : ℕ) : (smallRange ε p zeros).lo < 2 ^ 64 :=
  have hM : regCount p ≤ 2 ^ 18 := Nat.pow_le_pow_right Nat.two_pos hp
  lnFormLo_lt (k := 19) hpos hle (hM.trans (by decide)) (by decide) (hM.trans_lt (by decide))
    (Nat.zero_le _) ε

end

/-! ## The large-range branch -/

/-- `-2^32 · ln(1 - x / 2^32)`. -/
noncomputable def largeValue (x : ℝ) : ℝ := -2 ^ 32 * log (1 - x / 2 ^ 32)

theorem largeValue_mono {x y : ℝ} (hxy : x ≤ y) (hy : y < 2 ^ 32) :
    largeValue x ≤ largeValue y := by
  have hpos : 0 < 1 - y / 2 ^ 32 := by
    rw [sub_pos, div_lt_one (by positivity)]
    exact hy
  rw [largeValue, largeValue, neg_mul, neg_mul, neg_le_neg_iff]
  gcongr

/-- The value as the estimator computes it: `2^32 · ln(2^32 / (2^32 - x))` for `x = num / den`. -/
theorem largeValue_eq {num den : ℕ} (h : num < 2 ^ 32 * den) :
    largeValue (num / den) = (2 ^ 32 : ℕ) *
      log ((2 ^ 32 * den : ℕ) / (2 ^ 32 * den - num : ℕ)) := by
  have hden : (0 : ℝ) < den := by exact_mod_cast (by omega : 0 < den)
  have hinv : (1 - (num : ℝ) / den / 2 ^ 32) =
      ((2 ^ 32 * den : ℕ) / (2 ^ 32 * den - num : ℕ) : ℝ)⁻¹ := by
    rw [Nat.cast_sub h.le, inv_div]
    push_cast
    field_simp
    ring
  rw [largeValue, hinv, log_inv]
  push_cast
  ring

section
variable {num den : ℕ} (h : num < 2 ^ 32 * den)

include h

theorem largeForm_holds_reference (ε : ℕ) :
    (lnFormLo ε (2 ^ 32) (2 ^ 32 * den) (2 ^ 32 * den - num) 0 : ℤ) ≤ ⌊largeValue (num / den)⌋ ∧
      ⌊largeValue (num / den)⌋ ≤
        (lnFormHi ε (2 ^ 32) (2 ^ 32 * den) (2 ^ 32 * den - num) 0 : ℤ) := by
  have := lnForm_holds_reference (Nat.sub_pos_of_lt h) (Nat.sub_le _ _) ε (2 ^ 32) 0
  rw [← largeValue_eq h, Nat.cast_zero, zero_div, add_zero] at this
  exact this

theorem largeForm_within_slack (hden : den < 2 ^ 241) (ε : ℕ) :
    ⌊largeValue (num / den) - logSlack ε (2 ^ 32) (largeValue (num / den))⌋ ≤
        (lnFormLo ε (2 ^ 32) (2 ^ 32 * den) (2 ^ 32 * den - num) 0 : ℤ) ∧
      (lnFormHi ε (2 ^ 32) (2 ^ 32 * den) (2 ^ 32 * den - num) 0 : ℤ) ≤
        ⌊largeValue (num / den) + logSlack ε (2 ^ 32) (largeValue (num / den))⌋ := by
  have := lnForm_within_slack (scale := 2 ^ 32) (k := 32 + 241) (Nat.sub_pos_of_lt h)
    (Nat.sub_le _ _) le_rfl (by decide) (by rw [pow_add]; omega) ε 0
  rw [← largeValue_eq h, Nat.cast_zero, zero_div, add_zero, Nat.cast_pow, Nat.cast_two] at this
  exact this

theorem largeForm_lo_lt (hden : den < 2 ^ 241) (ε : ℕ) :
    lnFormLo ε (2 ^ 32) (2 ^ 32 * den) (2 ^ 32 * den - num) 0 < 2 ^ 64 :=
  lnFormLo_lt (k := 32 + 241) (Nat.sub_pos_of_lt h) (Nat.sub_le _ _) le_rfl (by decide)
    (by rw [pow_add]; omega) (Nat.zero_le _) ε

theorem largeValue_nonneg : 0 ≤ largeValue (num / den) := by
  rw [largeValue_eq h]
  exact mul_nonneg (Nat.cast_nonneg _) (log_ratio_nonneg (Nat.sub_pos_of_lt h) (Nat.sub_le _ _))

theorem largeValue_lt (hden : den < 2 ^ 241) : largeValue (num / den) < 2 ^ 63 := by
  have hlog := log_ratio_le (k := 32 + 241) (Nat.sub_pos_of_lt h) (Nat.sub_le _ _)
    (by rw [pow_add]; omega)
  rw [largeValue_eq h]
  push_cast at hlog ⊢
  linarith

end

section
variable {lo hi den : ℕ}

theorem largeRange_of_lt (h : hi < 2 ^ 32 * den) (ε : ℕ) :
    largeRange ε lo hi den =
      { lo := lnFormLo ε (2 ^ 32) (2 ^ 32 * den) (2 ^ 32 * den - lo) 0
        hi := lnFormHi ε (2 ^ 32) (2 ^ 32 * den) (2 ^ 32 * den - hi) 0 } :=
  if_pos h

theorem largeRange_of_le (h : ¬ hi < 2 ^ 32 * den) (ε : ℕ) :
    largeRange ε lo hi den = anyEstimate :=
  if_neg h

theorem cast_div_lt_iff {num den : ℕ} (hpos : 0 < den) :
    (num : ℝ) / den < 2 ^ 32 ↔ num < 2 ^ 32 * den := by
  rw [div_lt_iff₀ (by exact_mod_cast hpos)]
  exact_mod_cast Iff.rfl

/-- Any value between the two ends is held. -/
theorem largeRange_holds_reference {num d : ℕ} (hpos : 0 < den) (h : num < 2 ^ 32 * d)
    (hd : d < 2 ^ 241) (hlo : (lo : ℝ) / den ≤ num / d) (hhi : (num : ℝ) / d ≤ hi / den) (ε : ℕ) :
    ((largeRange ε lo hi den).lo : ℤ) ≤ ⌊largeValue (num / d)⌋ ∧
      ⌊largeValue (num / d)⌋ ≤ ((largeRange ε lo hi den).hi : ℤ) := by
  have hx : (num : ℝ) / d < 2 ^ 32 := (cast_div_lt_iff (by omega)).mpr h
  by_cases htop : hi < 2 ^ 32 * den
  · have hlo' := (cast_div_lt_iff hpos).mp (hlo.trans_lt hx)
    rw [largeRange_of_lt htop]
    exact ⟨(largeForm_holds_reference hlo' ε).1.trans (Int.floor_le_floor (largeValue_mono hlo hx)),
      (Int.floor_le_floor (largeValue_mono hhi ((cast_div_lt_iff hpos).mpr htop))).trans
        (largeForm_holds_reference htop ε).2⟩
  · rw [largeRange_of_le htop]
    have hlt : ⌊largeValue (num / d)⌋ < 2 ^ 63 := Int.floor_lt.mpr <|
      (largeValue_lt h hd).trans_eq (by norm_num)
    exact ⟨Int.floor_nonneg.mpr (largeValue_nonneg h), by simp only [anyEstimate]; omega⟩

theorem largeRange_within_slack (hle : lo ≤ hi) (hden : den < 2 ^ 241) (htop : hi < 2 ^ 32 * den)
    (ε : ℕ) :
    ⌊largeValue (lo / den) - logSlack ε (2 ^ 32) (largeValue (lo / den))⌋ ≤
        ((largeRange ε lo hi den).lo : ℤ) ∧
      ((largeRange ε lo hi den).hi : ℤ) ≤
        ⌊largeValue (hi / den) + logSlack ε (2 ^ 32) (largeValue (hi / den))⌋ := by
  rw [largeRange_of_lt htop]
  exact ⟨(largeForm_within_slack (hle.trans_lt htop) hden ε).1,
    (largeForm_within_slack htop hden ε).2⟩

theorem largeRange_valid (hle : lo ≤ hi) (hpos : 0 < den) (hden : den < 2 ^ 241) (ε : ℕ) :
    (largeRange ε lo hi den).lo ≤ (largeRange ε lo hi den).hi ∧
      (largeRange ε lo hi den).lo < 2 ^ 64 := by
  by_cases htop : hi < 2 ^ 32 * den
  · have hlh : (lo : ℝ) / den ≤ hi / den := by gcongr
    have h := largeRange_holds_reference hpos htop hden hlh le_rfl ε
    refine ⟨by exact_mod_cast h.1.trans h.2, ?_⟩
    rw [largeRange_of_lt htop]
    exact largeForm_lo_lt (hle.trans_lt htop) hden ε
  · rw [largeRange_of_le htop]
    decide

end

/-! ## The open branches -/

section
variable {ε p zeros lo hi den : ℕ} {range : EstRange}

/-- The tests as the estimator makes them, on integers. -/
theorem mem_openBranches :
    range ∈ openBranches ε p zeros lo hi den ↔
      (zeros ≠ 0 ∧ 2 * lo ≤ 5 * regCount p * den ∧ range = smallRange ε p zeros) ∨
      ((zeros = 0 ∨ 5 * regCount p * den < 2 * hi) ∧ 30 * lo ≤ 2 ^ 32 * den ∧
        range = ⟨lo / den, hi / den⟩) ∨
      ((zeros = 0 ∨ 5 * regCount p * den < 2 * hi) ∧ 2 ^ 32 * den < 30 * hi ∧
        range = largeRange ε lo hi den) := by
  have hz : 1 ≤ zeros ↔ zeros ≠ 0 := Nat.one_le_iff_ne_zero
  simp only [openBranches, List.mem_append, List.mem_ite_nil_right, List.mem_singleton,
    Bool.and_eq_true, Bool.or_eq_true, decide_eq_true_eq, hz, and_assoc, or_assoc]

/-- A test of a quotient against a quotient. -/
theorem mul_le_mul_iff_cast_div_le {a c num den : ℕ} (ha : 0 < a) (hpos : 0 < den) :
    a * num ≤ c * den ↔ (num : ℝ) / den ≤ c / a := by
  rw [div_le_div_iff₀ (by exact_mod_cast hpos) (by exact_mod_cast ha), Nat.mul_comm]
  exact_mod_cast Iff.rfl

/-- The tests on a computed `raw` between `lo / den` and `hi / den`. -/
theorem mem_openBranches_iff (hpos : 0 < den) :
    range ∈ openBranches ε p zeros lo hi den ↔
      (zeros ≠ 0 ∧ (lo : ℝ) / den ≤ 2.5 * 2 ^ p ∧ range = smallRange ε p zeros) ∨
      ((zeros = 0 ∨ 2.5 * 2 ^ p < (hi : ℝ) / den) ∧ (lo : ℝ) / den ≤ 2 ^ 32 / 30 ∧
        range = ⟨lo / den, hi / den⟩) ∨
      ((zeros = 0 ∨ 2.5 * 2 ^ p < (hi : ℝ) / den) ∧ 2 ^ 32 / 30 < (hi : ℝ) / den ∧
        range = largeRange ε lo hi den) := by
  have hsmall (num : ℕ) :
      2 * num ≤ 5 * regCount p * den ↔ (num : ℝ) / den ≤ 2.5 * 2 ^ p := by
    rw [mul_le_mul_iff_cast_div_le two_pos hpos, regCount]
    push_cast
    ring_nf
  have hplain (num : ℕ) : 30 * num ≤ 2 ^ 32 * den ↔ (num : ℝ) / den ≤ 2 ^ 32 / 30 := by
    rw [mul_le_mul_iff_cast_div_le (by decide) hpos]
    norm_num
  simp only [mem_openBranches, ← not_le, hsmall, hplain]

/-- Every open branch offers an integer of 64 bits. -/
theorem openBranches_valid (hp : p ≤ 18) (hz : zeros ≤ regCount p) (hle : lo ≤ hi) (hpos : 0 < den)
    (hden : den < 2 ^ 241) (h : range ∈ openBranches ε p zeros lo hi den) :
    range.lo ≤ range.hi ∧ range.lo < 2 ^ 64 := by
  rcases mem_openBranches.mp h with ⟨h0, _, rfl⟩ | ⟨_, hlo, rfl⟩ | ⟨_, _, rfl⟩
  · have h0 := Nat.pos_of_ne_zero h0
    exact ⟨lnFormLo_le_lnFormHi h0 hz, smallRange_lo_lt h0 hz hp ε⟩
  · exact ⟨Nat.div_le_div_right hle, (Nat.div_lt_iff_lt_mul hpos).mpr (by omega)⟩
  · exact largeRange_valid hle hpos hden ε

end

end Sys2Proof.Machine
end

section
/-! PROOFS for spec/43_estimator.md, sixth part: the Dense estimate follows the formulas of R184 to R186
up to the rounding errors, and their exact value is one of the results the model allows. -/

namespace Sys2Proof.Machine

/-! ## The computed `raw` (R190 item 3) -/

/-- The numerator of the least computed `raw`. -/
def rawLoNum (ρ p : ℕ) : ℕ := rawNum p * (2 ^ errorFrac - ρ)

/-- The numerator of the greatest computed `raw`. -/
def rawHiNum (ρ p : ℕ) : ℕ := rawNum p * (2 ^ errorFrac + ρ)

/-- The denominator of both. -/
def rawErrorDen (p : ℕ) (hist : List ℕ) : ℕ := rawDen p hist * 2 ^ errorFrac

theorem denseRanges_eq (ρ ε p : ℕ) (hist : List ℕ) :
    denseRanges ρ ε p hist =
      openBranches ε p (hist.headD 0) (rawLoNum ρ p) (rawHiNum ρ p) (rawErrorDen p hist) := rfl

/-- The least computed `raw`. -/
noncomputable def lowRaw (ρ : ℕ) (raw : ℝ) : ℝ := max 0 (raw * (1 - ρ / 2 ^ 128))

/-- The greatest computed `raw`. -/
noncomputable def highRaw (ρ : ℕ) (raw : ℝ) : ℝ := raw * (1 + ρ / 2 ^ 128)

theorem rawLoNum_le_rawHiNum (ρ p : ℕ) : rawLoNum ρ p ≤ rawHiNum ρ p :=
  Nat.mul_le_mul_left _ ((Nat.sub_le _ _).trans (Nat.le_add_right _ _))

theorem rawValue_nonneg (p : ℕ) (hist : List ℕ) : 0 ≤ rawValue p hist := by
  unfold rawValue
  positivity

theorem lowRaw_le (ρ : ℕ) {raw : ℝ} (h : 0 ≤ raw) : lowRaw ρ raw ≤ raw :=
  max_le h <| mul_le_of_le_one_right h <| sub_le_self _ (by positivity)

theorem le_highRaw (ρ : ℕ) {raw : ℝ} (h : 0 ≤ raw) : raw ≤ highRaw ρ raw :=
  le_mul_of_one_le_right h <| le_add_of_nonneg_right (by positivity)

/-- The subtraction of natural numbers stops at 0, as `lowRaw` does. -/
theorem lowRaw_eq (ρ p : ℕ) (hist : List ℕ) :
    lowRaw ρ (rawValue p hist) = rawLoNum ρ p / rawErrorDen p hist := by
  have h0 := rawValue_nonneg p hist
  have hfrac : ((2 ^ errorFrac - ρ : ℕ) : ℝ) / 2 ^ errorFrac = max 0 (1 - ρ / 2 ^ 128 : ℝ) := by
    have hT : (2 : ℝ) ^ errorFrac = 2 ^ 128 := rfl
    rcases le_total ρ (2 ^ errorFrac) with h | h
    · have hr : (ρ : ℝ) ≤ 2 ^ 128 := by exact_mod_cast h
      rw [Nat.cast_sub h, Nat.cast_pow, Nat.cast_two, hT, sub_div, div_self (by positivity),
        max_eq_right (sub_nonneg.mpr (div_le_one_of_le₀ hr (by positivity)))]
    · have hr : (2 : ℝ) ^ 128 ≤ ρ := by exact_mod_cast h
      rw [Nat.sub_eq_zero_of_le h, Nat.cast_zero, zero_div,
        max_eq_left (sub_nonpos.mpr ((one_le_div (by positivity)).mpr hr))]
  rw [rawLoNum, rawErrorDen, Nat.cast_mul, Nat.cast_mul, Nat.cast_pow, Nat.cast_two,
    mul_div_mul_comm, hfrac, ← rawValue, mul_max_of_nonneg _ _ h0, mul_zero, lowRaw]

theorem highRaw_eq (ρ p : ℕ) (hist : List ℕ) :
    highRaw ρ (rawValue p hist) = rawHiNum ρ p / rawErrorDen p hist := by
  have hfrac : ((2 ^ errorFrac + ρ : ℕ) : ℝ) / 2 ^ errorFrac = 1 + ρ / 2 ^ 128 := by
    have hT : (2 : ℝ) ^ errorFrac = 2 ^ 128 := rfl
    rw [Nat.cast_add, Nat.cast_pow, Nat.cast_two, hT, add_div, div_self (by positivity)]
  rw [rawHiNum, rawErrorDen, Nat.cast_mul, Nat.cast_mul, Nat.cast_pow, Nat.cast_two,
    mul_div_mul_comm, hfrac, ← rawValue, highRaw]

/-! ## Dense estimates -/

section
variable {p : ℕ} {hist : List ℕ} (hp : p ≤ 18) (hz : hist.headD 0 ≤ regCount p)
  (hpos : 0 < rawDen p hist) (hlt : rawDen p hist < 2 ^ 113)

include hpos in
theorem rawErrorDen_pos : 0 < rawErrorDen p hist := Nat.mul_pos hpos (Nat.two_pow_pos _)

include hlt in
theorem rawErrorDen_lt : rawErrorDen p hist < 2 ^ 241 :=
  (Nat.mul_lt_mul_of_pos_right hlt (Nat.two_pow_pos _)).trans_eq (by norm_num [errorFrac])

include hpos in
theorem mem_denseRanges_iff {ρ ε : ℕ} {range : EstRange} :
    range ∈ denseRanges ρ ε p hist ↔
      (hist.headD 0 ≠ 0 ∧ lowRaw ρ (rawValue p hist) ≤ 2.5 * 2 ^ p ∧
        range = smallRange ε p (hist.headD 0)) ∨
      ((hist.headD 0 = 0 ∨ 2.5 * 2 ^ p < highRaw ρ (rawValue p hist)) ∧
        lowRaw ρ (rawValue p hist) ≤ 2 ^ 32 / 30 ∧
        range = ⟨rawLoNum ρ p / rawErrorDen p hist, rawHiNum ρ p / rawErrorDen p hist⟩) ∨
      ((hist.headD 0 = 0 ∨ 2.5 * 2 ^ p < highRaw ρ (rawValue p hist)) ∧
        2 ^ 32 / 30 < highRaw ρ (rawValue p hist) ∧
        range = largeRange ε (rawLoNum ρ p) (rawHiNum ρ p) (rawErrorDen p hist)) := by
  rw [denseRanges_eq, mem_openBranches_iff (rawErrorDen_pos hpos), lowRaw_eq, highRaw_eq]

/-- The range holds the exact value of the branch that the exact `raw` selects (R186). -/
def HoldsReference (p zeros : ℕ) (raw : ℝ) (range : EstRange) : Prop :=
  (raw ≤ 2.5 * 2 ^ p → zeros ≠ 0 →
    (range.lo : ℤ) ≤ ⌊smallValue p zeros⌋ ∧ ⌊smallValue p zeros⌋ ≤ (range.hi : ℤ)) ∧
  (2.5 * 2 ^ p < raw ∨ zeros = 0 → raw ≤ 2 ^ 32 / 30 →
    (range.lo : ℤ) ≤ ⌊raw⌋ ∧ ⌊raw⌋ ≤ (range.hi : ℤ)) ∧
  (2 ^ 32 / 30 < raw → (range.lo : ℤ) ≤ ⌊largeValue raw⌋ ∧ ⌊largeValue raw⌋ ≤ (range.hi : ℤ))

include hp in
theorem small_limit_le : (2.5 : ℝ) * 2 ^ p ≤ 2 ^ 32 / 30 := by
  have : (2 : ℝ) ^ p ≤ 2 ^ 18 := pow_le_pow_right₀ one_le_two hp
  linarith

include hp hz hpos hlt in
theorem denseRanges_hold_reference (ρ ε : ℕ) :
    rawValue p hist < 2 ^ 32 →
      ∃ range ∈ denseRanges ρ ε p hist,
        HoldsReference p (hist.headD 0) (rawValue p hist) range := by
  intro hraw
  have hlow := lowRaw_le ρ (rawValue_nonneg p hist)
  have hhigh := le_highRaw ρ (rawValue_nonneg p hist)
  have hlim := small_limit_le hp
  simp only [mem_denseRanges_iff hpos]
  by_cases hs : rawValue p hist ≤ 2.5 * 2 ^ p ∧ hist.headD 0 ≠ 0
  · obtain ⟨hs, h0⟩ := hs
    refine ⟨_, .inl ⟨h0, hlow.trans hs, rfl⟩, fun _ _ => ?_, fun h => ?_, fun h => ?_⟩
    · exact smallRange_holds_reference (Nat.pos_of_ne_zero h0) hz ε
    · exact absurd h (not_or.mpr ⟨hs.not_gt, h0⟩)
    · exact absurd h (hs.trans hlim).not_gt
  · have hnot : hist.headD 0 = 0 ∨ 2.5 * 2 ^ p < highRaw ρ (rawValue p hist) := by
      rw [not_and_or, not_le, not_not] at hs
      exact hs.symm.imp_right (·.trans_le hhigh)
    have hlo := (lowRaw_eq ρ p hist).symm.trans_le hlow
    have hhi := hhigh.trans_eq (highRaw_eq ρ p hist)
    by_cases hl : rawValue p hist ≤ 2 ^ 32 / 30
    · refine ⟨_, .inr (.inl ⟨hnot, hlow.trans hl, rfl⟩), fun h h0 => absurd ⟨h, h0⟩ hs,
        fun _ _ => ?_, fun h => absurd h hl.not_gt⟩
      exact ⟨natDiv_le_floor hlo, floor_le_natDiv hhi⟩
    · refine ⟨_, .inr (.inr ⟨hnot, (not_le.mp hl).trans_le hhigh, rfl⟩),
        fun h h0 => absurd ⟨h, h0⟩ hs, fun _ h => absurd h hl, fun _ => ?_⟩
      exact largeRange_holds_reference (rawErrorDen_pos hpos) ((cast_div_lt_iff hpos).mp hraw)
        (hlt.trans (by decide)) hlo hhi ε

/-- The integer part of the value of a branch that a computed `raw` may select (R186), up to the
rounding errors. -/
def FollowsFormulas (ρ ε p zeros : ℕ) (raw : ℝ) (v : ℕ) : Prop :=
  (zeros ≠ 0 ∧ lowRaw ρ raw ≤ 2.5 * 2 ^ p ∧
    ⌊smallValue p zeros - logSlack ε (2 ^ p) (smallValue p zeros)⌋ ≤ (v : ℤ) ∧
    (v : ℤ) ≤ ⌊smallValue p zeros + logSlack ε (2 ^ p) (smallValue p zeros)⌋) ∨
  ((zeros = 0 ∨ 2.5 * 2 ^ p < highRaw ρ raw) ∧ lowRaw ρ raw ≤ 2 ^ 32 / 30 ∧
    ⌊lowRaw ρ raw⌋ ≤ (v : ℤ) ∧ (v : ℤ) ≤ ⌊highRaw ρ raw⌋) ∨
  ((zeros = 0 ∨ 2.5 * 2 ^ p < highRaw ρ raw) ∧ 2 ^ 32 / 30 < highRaw ρ raw ∧
    (highRaw ρ raw < 2 ^ 32 →
      ⌊largeValue (lowRaw ρ raw) - logSlack ε (2 ^ 32) (largeValue (lowRaw ρ raw))⌋ ≤ (v : ℤ) ∧
      (v : ℤ) ≤
        ⌊largeValue (highRaw ρ raw) + logSlack ε (2 ^ 32) (largeValue (highRaw ρ raw))⌋))

include hp hz hpos hlt in
theorem followsFormulas_of_mem {ρ ε v : ℕ} {range : EstRange}
    (hmem : range ∈ denseRanges ρ ε p hist) (hlo : range.lo ≤ v) (hhi : v ≤ range.hi) :
    FollowsFormulas ρ ε p (hist.headD 0) (rawValue p hist) v := by
  have hlo' : (range.lo : ℤ) ≤ v := by exact_mod_cast hlo
  have hhi' : (v : ℤ) ≤ range.hi := by exact_mod_cast hhi
  rcases (mem_denseRanges_iff hpos).mp hmem with ⟨h0, ht, rfl⟩ | ⟨h0, ht, rfl⟩ | ⟨h0, ht, rfl⟩
  · obtain ⟨h1, h2⟩ := smallRange_within_slack (Nat.pos_of_ne_zero h0) hz hp ε
    exact .inl ⟨h0, ht, h1.trans hlo', hhi'.trans h2⟩
  · refine .inr (.inl ⟨h0, ht, ?_⟩)
    rw [lowRaw_eq, highRaw_eq, floor_natCast_div, floor_natCast_div]
    exact ⟨hlo', hhi'⟩
  · refine .inr (.inr ⟨h0, ht, fun htop => ?_⟩)
    rw [highRaw_eq, cast_div_lt_iff (rawErrorDen_pos hpos)] at htop
    obtain ⟨h1, h2⟩ :=
      largeRange_within_slack (rawLoNum_le_rawHiNum ρ p) (rawErrorDen_lt hlt) htop ε
    rw [lowRaw_eq, highRaw_eq]
    exact ⟨h1.trans hlo', hhi'.trans h2⟩

include hp hz hpos hlt in
/-- Whatever the free value is, the answer follows the formulas. -/
theorem pickEstimate_followsFormulas (ρ ε : ℕ) (free : DWord) :
    FollowsFormulas ρ ε p (hist.headD 0) (rawValue p hist)
      (pickEstimate (denseRanges ρ ε p hist) free).toNat := by
  have hle := rawLoNum_le_rawHiNum ρ p
  obtain ⟨range, hmem, hc⟩ := pickEstimate_spec (ranges := denseRanges ρ ε p hist) free
    (openBranches_ne_nil hle _ _ _ _)
    fun range => openBranches_valid hp hz hle (rawErrorDen_pos hpos) (rawErrorDen_lt hlt)
  obtain ⟨hlo, hhi⟩ := EstRange.contains_iff.mp hc
  exact followsFormulas_of_mem hp hz hpos hlt hmem hlo hhi

/-- Counters that are all 0 estimate 0, which is what the small-range formula gives (R187). -/
theorem followsFormulas_all_zero (ρ ε : ℕ) (h : hist.headD 0 = regCount p) :
    FollowsFormulas ρ ε p (hist.headD 0) (rawValue p hist) 0 := by
  have hraw := rawValue_le_of_all_zero h
  have hlow := lowRaw_le ρ (rawValue_nonneg p hist)
  have hslack := logSlack_nonneg ε (scale := 2 ^ p) (by positivity) le_rfl
  have hM : (0 : ℝ) < 2 ^ p := by positivity
  rw [h, regCount]
  refine .inl ⟨(Nat.two_pow_pos p).ne', by linarith, ?_⟩
  rw [smallValue_all_zero, zero_sub, zero_add]
  exact ⟨Int.floor_nonpos (neg_nonpos.mpr hslack), Int.floor_nonneg.mpr hslack⟩

include hp hz hpos hlt in
/-- The three ways a Dense estimate ends: all counters 0, no rule (R189), or a branch of R186. -/
theorem denseEstimate_cases :
    (hist.headD 0 = regCount p ∧ rawValue p hist < 2 ^ 32 ∧ denseEstimate p hist = some 0) ∨
      (hist.headD 0 ≠ regCount p ∧ 2 ^ 32 ≤ rawValue p hist ∧ denseEstimate p hist = none) ∨
      (hist.headD 0 ≠ regCount p ∧ rawValue p hist < 2 ^ 32 ∧ ∃ v, denseEstimate p hist = some v ∧
        FollowsFormulas (Config.rawError p) Config.lnError p (hist.headD 0) (rawValue p hist)
          v.toNat) := by
  have hover := rawOverflows_iff hpos
  by_cases h0 : hist.headD 0 = regCount p
  · refine .inl ⟨h0, ?_, denseEstimate_of_all_zero h0⟩
    exact (rawValue_le_of_all_zero h0).trans_lt (pow_lt_pow_right₀ one_lt_two (by omega))
  · by_cases h : rawOverflows p hist = true
    · exact .inr (.inl ⟨h0, hover.mp h, by rw [denseEstimate, if_neg h0, if_pos h]⟩)
    · exact .inr (.inr ⟨h0, not_le.mp (mt hover.mpr h), _,
        by rw [denseEstimate, if_neg h0, if_neg h],
        pickEstimate_followsFormulas hp hz hpos hlt _ _ _⟩)

end

/-- Settles O46: the branch that the exact `raw` selects is open, and its range holds the exact value. -/
theorem denseReferenceValueIsAllowed : Obligations.DenseReferenceValueIsAllowed := by
  intro ρ ε p r words hp
  have h := denseRanges_hold_reference (paramsOk_iff.mp hp).1.2 (headD_histogram_le p r words)
    (rawDen_pos hp words) (rawDen_lt hp words) ρ ε
  rw [rawValue_eq hp, headD_histogram_counters] at h
  exact h

/-- `EST` of a Dense sketch, which has nothing to fold. -/
theorem exec_est_dense {s : State} {dst : ContextId} {p r : ℕ} {words : List Word}
    (hp : paramsOk p r = true) (ha : s.sketch? dst = some ⟨p, r, .dense words⟩) :
    let hist := histogram (counters p r words)
    ∃ v : DWord, ∃ n : ℕ,
      exec (.est dst) s = .next { s with response := some ⟨.ok, v, []⟩, draws := n } ∧
      (hist.headD 0 = 2 ^ p → v = 0) ∧
      (rawValue p hist < 2 ^ 32 → n = s.draws ∧
        FollowsFormulas (Config.rawError p) Config.lnError p (hist.headD 0) (rawValue p hist)
          v.toNat) ∧
      (2 ^ 32 ≤ rawValue p hist → v = Config.freeEstimate s.draws ∧ n = s.draws + 1) := by
  intro hist
  have hp18 := (paramsOk_iff.mp hp).1.2
  have hexec := exec_est_of_folded ha rfl
  change exec (.est dst) s = .next (s.completeEstimate (denseEstimate p hist)) at hexec
  rcases denseEstimate_cases hp18 (headD_histogram_le p r words) (rawDen_pos hp words)
    (rawDen_lt hp words) with
    ⟨h0, hraw, e⟩ | ⟨h0, hraw, e⟩ | ⟨h0, hraw, v, e, hv⟩ <;>
    rw [e] at hexec
  · exact ⟨0, s.draws, hexec, fun _ => rfl, fun _ => ⟨rfl, followsFormulas_all_zero _ _ h0⟩,
      fun h => absurd h hraw.not_ge⟩
  · exact ⟨_, _, hexec, fun h => absurd h h0, fun h => absurd h hraw.not_gt, fun _ => ⟨rfl, rfl⟩⟩
  · exact ⟨v, s.draws, hexec, fun h => absurd h h0, fun _ => ⟨rfl, hv⟩,
      fun h => absurd h hraw.not_ge⟩

/-- Settles O45: the answer lies in the range of an open branch, which leaves the branch's formula by no
more than the rounding errors. -/
theorem denseEstimateFollowsTheFormulas : Obligations.DenseEstimateFollowsTheFormulas := by
  intro s dst p r words hs ha
  have hp := Sketch.paramsOk_of_wf (State.sketch_wf_of_wf hs ha)
  have h := exec_est_dense hp ha
  simp only [rawValue_eq hp, headD_histogram_counters] at h
  exact h

end Sys2Proof.Machine
end

section
/-! PROOFS for spec/44_codec.md, first part: the bytes of an image, what the checks of a load find in
them, and how the four commands end. -/

namespace Sys2Proof.Machine

/-! ## Shape bytes -/

theorem paramsOk_eq_false_iff {p r : Nat} :
    paramsOk p r = false ↔ (p < 4 ∨ 18 < p) ∨ r ∉ [4, 5, 6] := by
  rw [Bool.eq_false_iff, ne_eq, paramsOk_iff, not_and_or, not_and_or, Nat.not_le, Nat.not_le]
  simp

section
variable {p r : Nat} (h : paramsOk p r = true)

include h

/-- The `p` byte of an image holds `p`. -/
theorem precisionByte_toNat : (BitVec.ofNat 8 p).toNat = p := by
  obtain ⟨⟨_, hle⟩, _⟩ := paramsOk_iff.mp h
  exact Nat.mod_eq_of_lt (by omega)

/-- The `r` byte of an image holds `r`. -/
theorem widthByte_toNat : (BitVec.ofNat 8 r).toNat = r :=
  Nat.mod_eq_of_lt (by have := width_of_paramsOk h; omega)

theorem paramsOk_shapeBytes :
    paramsOk (BitVec.ofNat 8 p).toNat (BitVec.ofNat 8 r).toNat = true := by
  rwa [precisionByte_toNat h, widthByte_toNat h]

end

/-! ## The tagged image (R202 to R204) -/

/-- The mode byte and the words of a well-formed sketch with an empty buffer. -/
theorem taggedImage_cases {a : Sketch} (hw : a.wf = true) (h0 : a.tcnt = 0) :
    ∃ (mode : Byte) (ws : List Word),
      taggedImage a = mode :: shapeBytes a ++ wordsToBytes ws ∧
      (mode = 1 ∧ a.payload = .dense ws ∧ ws.length = wordCount a.p a.r ∨
        mode = 0 ∧ a.payload = .sparse [] ws) := by
  rcases a with ⟨p, r, ⟨tb, sa⟩ | words⟩
  · obtain rfl := List.eq_nil_of_length_eq_zero h0
    exact ⟨0, sa, rfl, .inr ⟨rfl, rfl⟩⟩
  · exact ⟨1, words, rfl, .inl ⟨rfl, rfl, (denseWf_iff.mp (Sketch.wf_dense_iff.mp hw).2).1⟩⟩

/-! ## The content of an image (R207 to R209) -/

theorem contentChecked_of_wf {a : Sketch} (h : a.wf = true) : contentChecked a = .loaded a :=
  if_pos h

theorem contentChecked_of_not_wf {a : Sketch} (h : a.wf = false) :
    contentChecked a = .undefinedContent :=
  if_neg (Bool.eq_false_iff.mp h)

theorem contentChecked_ne_formatError (a : Sketch) : contentChecked a ≠ .formatError := by
  unfold contentChecked
  split <;> nofun

theorem eq_of_contentChecked {a b : Sketch} (h : contentChecked a = .loaded b) : a = b := by
  unfold contentChecked at h
  split at h
  · exact LoadResult.loaded.inj h
  · cases h

section
variable {p r : Nat} {payload : List Byte}

theorem loadDense_of_length (h : payload.length = 4 * wordCount p r) :
    loadDense p r payload = contentChecked ⟨p, r, .dense (bytesToWords payload)⟩ :=
  if_neg (not_not.mpr h)

theorem loadSparse_of_length (h : payload.length % 4 = 0) :
    loadSparse p r payload = contentChecked ⟨p, r, .sparse [] (bytesToWords payload)⟩ :=
  if_neg (not_not.mpr h)

/-- The length check is the only way to a `FormatError` in `LoadDense`. -/
theorem loadDense_eq_formatError_iff :
    loadDense p r payload = .formatError ↔ payload.length ≠ 4 * wordCount p r := by
  refine ⟨fun h hlen => ?_, fun h => if_pos h⟩
  exact contentChecked_ne_formatError _ ((loadDense_of_length hlen).symm.trans h)

/-- The length check is the only way to a `FormatError` in `LoadSparse`. -/
theorem loadSparse_eq_formatError_iff :
    loadSparse p r payload = .formatError ↔ payload.length % 4 ≠ 0 := by
  refine ⟨fun h hlen => ?_, fun h => if_pos h⟩
  exact contentChecked_ne_formatError _ ((loadSparse_of_length hlen).symm.trans h)

/-- A payload that `LoadDense` loads is the bytes of the register words. -/
theorem words_of_loadDense {a : Sketch} (h : loadDense p r payload = .loaded a) :
    ∃ ws, a = ⟨p, r, .dense ws⟩ ∧ wordsToBytes ws = payload := by
  by_cases hlen : payload.length = 4 * wordCount p r
  · rw [loadDense_of_length hlen] at h
    exact ⟨_, (eq_of_contentChecked h).symm, wordsToBytes_bytesToWords _ (by omega)⟩
  · exact nomatch (loadDense_eq_formatError_iff.mpr hlen).symm.trans h

/-- A payload that `LoadSparse` loads is the bytes of the array. -/
theorem words_of_loadSparse {a : Sketch} (h : loadSparse p r payload = .loaded a) :
    ∃ ws, a = ⟨p, r, .sparse [] ws⟩ ∧ wordsToBytes ws = payload := by
  by_cases hlen : payload.length % 4 = 0
  · rw [loadSparse_of_length hlen] at h
    exact ⟨_, (eq_of_contentChecked h).symm, wordsToBytes_bytesToWords _ hlen⟩
  · exact nomatch (loadSparse_eq_formatError_iff.mpr hlen).symm.trans h

theorem loadDense_wordsToBytes {ws : List Word} (h : ws.length = wordCount p r) :
    loadDense p r (wordsToBytes ws) = contentChecked ⟨p, r, .dense ws⟩ := by
  rw [loadDense_of_length (by rw [length_wordsToBytes, h]), bytesToWords_wordsToBytes]

theorem loadSparse_wordsToBytes (ws : List Word) :
    loadSparse p r (wordsToBytes ws) = contentChecked ⟨p, r, .sparse [] ws⟩ := by
  rw [loadSparse_of_length (by rw [length_wordsToBytes]; omega), bytesToWords_wordsToBytes]

end

/-! ## The checks of `DES` (R205, R206) -/

section
variable {pb rb : Byte} (h : paramsOk pb.toNat rb.toNat = true) (payload : List Byte)

include h

theorem loadTagged_sparse :
    loadTagged (0 :: pb :: rb :: payload) = loadSparse pb.toNat rb.toNat payload := by
  simp [loadTagged, h]

theorem loadTagged_dense :
    loadTagged (1 :: pb :: rb :: payload) = loadDense pb.toNat rb.toNat payload := by
  simp [loadTagged, h]

end

/-- An image has a bad header, which is a `FormatError`, or it goes on to the load of its mode. -/
theorem loadTagged_cases (image : List Byte) :
    (loadTagged image = .formatError ∧
        (image.length < 3 ∨ (image.getD 0 0 ≠ 0 ∧ image.getD 0 0 ≠ 1) ∨
          paramsOk (image.getD 1 0).toNat (image.getD 2 0).toNat = false)) ∨
      ∃ pb rb payload, paramsOk pb.toNat rb.toNat = true ∧
        (image = 0 :: pb :: rb :: payload ∨ image = 1 :: pb :: rb :: payload) := by
  match image with
  | [] | [_] | [_, _] => exact .inl ⟨rfl, .inl (by simp)⟩
  | mb :: pb :: rb :: payload =>
    by_cases hmode : mb ≠ 0 ∧ mb ≠ 1
    · exact .inl ⟨if_pos hmode, .inr (.inl hmode)⟩
    · by_cases hp : paramsOk pb.toNat rb.toNat = true
      · refine .inr ⟨pb, rb, payload, hp, ?_⟩
        rcases Decidable.not_and_iff_not_or_not.mp hmode with h0 | h1
        · exact .inl (by rw [not_not.mp h0])
        · exact .inr (by rw [not_not.mp h1])
      · have hp' := Bool.eq_false_iff.mpr hp
        exact .inl ⟨(if_neg hmode).trans (if_pos (by rw [hp']; rfl)), .inr (.inr hp')⟩

/-- The six cases of R206, with the two about the parameters in one. -/
theorem loadTagged_eq_formatError_iff (image : List Byte) :
    let mb := image.getD 0 0
    let pb := (image.getD 1 0).toNat
    let rb := (image.getD 2 0).toNat
    loadTagged image = .formatError ↔
      image.length < 3 ∨ (mb ≠ 0 ∧ mb ≠ 1) ∨ paramsOk pb rb = false ∨
        (mb = 1 ∧ image.length ≠ 3 + 4 * wordCount pb rb) ∨
        (mb = 0 ∧ (image.length - 3) % 4 ≠ 0) := by
  rcases loadTagged_cases image with ⟨e, hbad⟩ | ⟨pb, rb, payload, hp, rfl | rfl⟩
  · exact iff_of_true e (hbad.imp_right (.imp_right .inl))
  · rw [loadTagged_sparse hp, loadSparse_eq_formatError_iff]
    simp [hp]
  · rw [loadTagged_dense hp, loadDense_eq_formatError_iff]
    simp [hp, Nat.add_comm 3]

/-- What `DES` loads has an empty buffer, and its tagged image is what was loaded. -/
theorem taggedImage_of_loadTagged {image : List Byte} {a : Sketch}
    (h : loadTagged image = .loaded a) : taggedImage a = image ∧ a.tcnt = 0 := by
  rcases loadTagged_cases image with ⟨e, _⟩ | ⟨pb, rb, payload, hp, rfl | rfl⟩
  · exact nomatch e.symm.trans h
  · obtain ⟨ws, rfl, rfl⟩ := words_of_loadSparse ((loadTagged_sparse hp payload).symm.trans h)
    exact ⟨by simp [taggedImage, shapeBytes], rfl⟩
  · obtain ⟨ws, rfl, rfl⟩ := words_of_loadDense ((loadTagged_dense hp payload).symm.trans h)
    exact ⟨by simp [taggedImage, shapeBytes], rfl⟩

/-! ## The checks of `DES.L` (R213) -/

theorem loadLegacy_append {pb rb : Byte} (h : paramsOk pb.toNat rb.toNat = true)
    (body : List Byte) :
    loadLegacy (body ++ [pb, rb]) = loadDense pb.toNat rb.toNat body := by
  simp [loadLegacy, h]

/-- An image is too short or ends with bad parameters, which is a `FormatError`, or it goes on to the
load of the bytes before its last two. -/
theorem loadLegacy_cases (image : List Byte) :
    (loadLegacy image = .formatError ∧
        (image.length < 2 ∨ paramsOk (image.getD (image.length - 2) 0).toNat
          (image.getD (image.length - 1) 0).toNat = false)) ∨
      ∃ pb rb body, paramsOk pb.toNat rb.toNat = true ∧ image = body ++ [pb, rb] := by
  by_cases hlen : image.length < 2
  · exact .inl ⟨if_pos hlen, .inl hlen⟩
  · obtain ⟨body, tail, rfl, htail⟩ : ∃ body tail, image = body ++ tail ∧ tail.length = 2 :=
      ⟨image.take (image.length - 2), image.drop (image.length - 2),
        (List.take_append_drop _ _).symm, by rw [List.length_drop]; omega⟩
    obtain ⟨pb, rb, rfl⟩ := List.length_eq_two.mp htail
    by_cases hp : paramsOk pb.toNat rb.toNat = true
    · exact .inr ⟨pb, rb, body, hp, rfl⟩
    · exact .inl ⟨by simp [loadLegacy, hp], .inr (by simpa using hp)⟩

/-- The four cases of R213, with the two about the parameters in one. -/
theorem loadLegacy_eq_formatError_iff (image : List Byte) :
    let pb := (image.getD (image.length - 2) 0).toNat
    let rb := (image.getD (image.length - 1) 0).toNat
    loadLegacy image = .formatError ↔
      image.length < 2 ∨ paramsOk pb rb = false ∨ image.length ≠ 4 * wordCount pb rb + 2 := by
  rcases loadLegacy_cases image with ⟨e, hbad⟩ | ⟨pb, rb, body, hp, rfl⟩
  · exact iff_of_true e (hbad.imp_right .inl)
  · rw [loadLegacy_append hp, loadDense_eq_formatError_iff]
    simp [hp]

/-- What `DES.L` loads is Dense (R214). -/
theorem mode_of_loadLegacy {image : List Byte} {a : Sketch} (h : loadLegacy image = .loaded a) :
    a.mode = .dense := by
  rcases loadLegacy_cases image with ⟨e, _⟩ | ⟨pb, rb, body, hp, rfl⟩
  · exact nomatch e.symm.trans h
  · obtain ⟨ws, rfl, _⟩ := words_of_loadDense ((loadLegacy_append hp body).symm.trans h)
    rfl

/-! ## Images of words -/

section
variable {p r : Nat} (h : paramsOk p r = true)

include h

theorem loadTagged_sparse_words (ws : List Word) :
    loadTagged (0 :: BitVec.ofNat 8 p :: BitVec.ofNat 8 r :: wordsToBytes ws) =
      contentChecked ⟨p, r, .sparse [] ws⟩ := by
  rw [loadTagged_sparse (paramsOk_shapeBytes h), precisionByte_toNat h, widthByte_toNat h,
    loadSparse_wordsToBytes]

theorem loadTagged_dense_words {ws : List Word} (hlen : ws.length = wordCount p r) :
    loadTagged (1 :: BitVec.ofNat 8 p :: BitVec.ofNat 8 r :: wordsToBytes ws) =
      contentChecked ⟨p, r, .dense ws⟩ := by
  rw [loadTagged_dense (paramsOk_shapeBytes h), precisionByte_toNat h, widthByte_toNat h,
    loadDense_wordsToBytes hlen]

theorem loadLegacy_words {ws : List Word} (hlen : ws.length = wordCount p r) :
    loadLegacy (wordsToBytes ws ++ [BitVec.ofNat 8 p, BitVec.ofNat 8 r]) =
      contentChecked ⟨p, r, .dense ws⟩ := by
  rw [loadLegacy_append (paramsOk_shapeBytes h), precisionByte_toNat h, widthByte_toNat h,
    loadDense_wordsToBytes hlen]

end

/-- `DES` reads back the tagged image of a well-formed sketch with an empty buffer. -/
theorem loadTagged_taggedImage {a : Sketch} (hw : a.wf = true) (h0 : a.tcnt = 0) :
    loadTagged (taggedImage a) = .loaded a := by
  have hp := Sketch.paramsOk_of_wf hw
  refine Eq.trans ?_ (contentChecked_of_wf hw)
  obtain ⟨p, r, payload⟩ := a
  obtain ⟨mode, ws, e, ⟨rfl, rfl, hlen⟩ | ⟨rfl, rfl⟩⟩ := taggedImage_cases hw h0
  · exact e ▸ loadTagged_dense_words hp hlen
  · exact e ▸ loadTagged_sparse_words hp ws

/-- `DES.L` reads back the legacy image of a well-formed Dense sketch. -/
theorem loadLegacy_legacyImage {a : Sketch} {words : List Word} (hw : a.wf = true)
    (ha : a.payload = .dense words) : loadLegacy (legacyImage a words) = .loaded a := by
  obtain ⟨p, r, payload⟩ := a
  obtain rfl : payload = .dense words := ha
  obtain ⟨hp, hd⟩ := Sketch.wf_dense_iff.mp hw
  exact (loadLegacy_words hp (denseWf_iff.mp hd).1).trans (contentChecked_of_wf hw)

/-! ## How a load ends (R205, R207, R213) -/

section
variable {s : State} {dst : ContextId} (h : dst.toNat < s.contexts.length)

include h

theorem State.load_loaded (a : Sketch) :
    s.load dst (.loaded a) = .next ((s.setContext dst (some a)).complete 0 []) :=
  congrArg Host.Outcome.next (State.withContext_of_lt h)

theorem exec_des_of_loaded {image : List Byte} {a : Sketch} (ha : loadTagged image = .loaded a) :
    exec (.des dst image) s = .next ((s.setContext dst (some a)).complete 0 []) :=
  (congrArg (s.load dst) ha).trans (State.load_loaded h a)

theorem exec_desL_of_loaded {image : List Byte} {a : Sketch} (ha : loadLegacy image = .loaded a) :
    exec (.desL dst image) s = .next ((s.setContext dst (some a)).complete 0 []) :=
  (congrArg (s.load dst) ha).trans (State.load_loaded h a)

theorem State.load_undefinedContent : s.load dst .undefinedContent = .refused .undefinedImage := by
  rcases s.load_cases dst .undefinedContent with ⟨hle, _⟩ | ⟨_, ⟨e, _⟩ | ⟨_, e⟩ | ⟨_, e, _⟩⟩
  · omega
  · cases e
  · exact e
  · cases e

/-- A load into an existing context ends with `FormatError` exactly when the checks find one. -/
theorem State.load_eq_formatError_iff (result : LoadResult) :
    s.load dst result = .next { s with response := some ⟨.formatError, 0, []⟩ } ↔
      result = .formatError := by
  cases result with
  | loaded a =>
    rw [State.load_loaded h]
    refine ⟨fun e => ?_, nofun⟩
    cases congrArg State.response (Host.Outcome.next.inj e)
  | formatError => exact iff_of_true (congrArg Host.Outcome.next (State.withContext_of_lt h)) rfl
  | undefinedContent =>
    rw [State.load_undefinedContent h]
    exact ⟨nofun, nofun⟩

end

/-- A load that completes has put a content-valid sketch into an existing context. -/
theorem State.loaded_of_load_ok {s u : State} {dst : ContextId} {result : LoadResult}
    (h : s.load dst result = .next u) (hu : u.response = some ⟨.ok, 0, []⟩) :
    ∃ a, result = .loaded a ∧ u.sketch? dst = some a := by
  rcases s.load_cases dst result with ⟨_, e⟩ | ⟨hlt, ⟨_, e⟩ | ⟨_, e⟩ | ⟨a, ha, e⟩⟩
  · obtain rfl := Host.Outcome.next.inj (e.symm.trans h)
    cases hu
  · obtain rfl := Host.Outcome.next.inj (e.symm.trans h)
    cases hu
  · exact nomatch e.symm.trans h
  · obtain rfl := Host.Outcome.next.inj (e.symm.trans h)
    exact ⟨a, ha, (State.sketch?_setContext _ dst hlt).trans (if_pos rfl)⟩

/-! ## How a store ends (R200, R212) -/

theorem State.completeImage_of_length (s : State) {image : List Byte} {n : Nat}
    (h : image.length = n) :
    s.completeImage image = { s with response := some ⟨.ok, BitVec.ofNat 64 n, image⟩ } :=
  h ▸ rfl

/-- A `SER` that completes has folded a sketch and emitted its image. -/
theorem sketch_of_exec_ser_ok {s t : State} {src : ContextId} {q : Response}
    (h : exec (.ser src) s = .next t) (hq : t.response = some q) (hok : q.status = .ok) :
    ∃ a, s.sketch? src = some a ∧ t.sketch? src = some a.fold ∧
      t.contexts.length = s.contexts.length ∧ q.out = taggedImage a.fold := by
  rcases execSer_cases src s with ⟨_, e⟩ | ⟨a, ha, e⟩ <;>
    obtain rfl := Host.Outcome.next.inj (e.symm.trans h) <;>
    obtain rfl := Option.some.inj hq
  · cases hok
  · exact ⟨a, ha, State.sketch?_setContext_same ha a.fold, List.length_set, rfl⟩

/-- A `SER.L` that completes has emitted the image of a Dense sketch and changed no context. -/
theorem sketch_of_exec_serL_ok {s t : State} {src : ContextId} {q : Response}
    (h : exec (.serL src) s = .next t) (hq : t.response = some q) (hok : q.status = .ok) :
    ∃ a words, s.sketch? src = some a ∧ a.payload = .dense words ∧
      t.contexts = s.contexts ∧ q.out = legacyImage a words := by
  rcases execSerL_cases src s with ⟨_, e⟩ | ⟨a, ha, ⟨_, _, _, e⟩ | ⟨words, hw, e⟩⟩ <;>
    obtain rfl := Host.Outcome.next.inj (e.symm.trans h) <;>
    obtain rfl := Option.some.inj hq
  · cases hok
  · cases hok
  · exact ⟨a, words, ha, hw, rfl, rfl⟩

end Sys2Proof.Machine
end

section
/-! PROOFS for spec/44_codec.md, second part: what `SER`, `DES`, `SER.L` and `DES.L` answer, and the
round trips of R210 and R214. -/

namespace Sys2Proof.Machine

/-! ## The stores (R200, R212) -/

/-- Settles O47: a folded sketch has an empty buffer, so its image holds the words of its mode. -/
theorem serFoldsAndEmitsTheImage : Obligations.SerFoldsAndEmitsTheImage := by
  intro s dst a hs ha
  obtain ⟨mode, ws, himage, hmode⟩ :=
    taggedImage_cases (Sketch.wf_fold (State.sketch_wf_of_wf hs ha)) a.tcnt_fold
  rw [shapeBytes, Sketch.p_fold, Sketch.r_fold] at himage
  rw [Sketch.p_fold, Sketch.r_fold] at hmode
  have hlen : (taggedImage a.fold).length = 3 + 4 * ws.length := by
    simp [himage, Nat.add_comm 3]
  refine ⟨mode, ws, ?_, (congrArg List.length himage).symm.trans hlen, hmode⟩
  rw [exec, execSer, State.withSketch_of_some ha, State.completeImage_of_length _ hlen, himage]
  rfl

/-- Settles O54: `SER.L` by the content of the context. -/
theorem serLEmitsTheLegacyImage : Obligations.SerLEmitsTheLegacyImage := by
  intro s dst p r
  refine ⟨fun words ha => ?_, fun tb sa ha => ?_, fun hn => ?_⟩
  · have hlen := length_legacyImage ⟨p, r, .dense words⟩ words
    exact ⟨congrArg Host.Outcome.next
      ((State.withSketch_of_some ha).trans (s.completeImage_of_length hlen)), hlen⟩
  · exact congrArg Host.Outcome.next (State.withSketch_of_some ha)
  · exact congrArg Host.Outcome.next (State.withSketch_of_none hn)

/-! ## The loads (R205 to R209, R213) -/

/-- Settles O48: the checks of `DES` find a `FormatError` exactly in the cases of R206. -/
theorem desFormatErrorCases : Obligations.DesFormatErrorCases := by
  intro s dst image hlt mb pb rb
  refine (State.load_eq_formatError_iff hlt _).trans
    ((loadTagged_eq_formatError_iff image).trans ?_)
  rw [paramsOk_eq_false_iff, or_assoc]

/-- Settles O49: the checks of `DES.L` find a `FormatError` exactly in the cases of R213. -/
theorem desLFormatErrorCases : Obligations.DesLFormatErrorCases := by
  intro s dst image hlt pb rb
  refine (State.load_eq_formatError_iff hlt _).trans
    ((loadLegacy_eq_formatError_iff image).trans ?_)
  rw [paramsOk_eq_false_iff, or_assoc]

/-- Settles O50: both loads read back the image of a well-formed sketch. -/
theorem loadsReplaceTheContext : Obligations.LoadsReplaceTheContext := by
  intro s dst a hlt hw after pr
  refine ⟨fun sa ha => exec_des_of_loaded hlt ?_, fun words ha => ⟨exec_des_of_loaded hlt ?_,
    exec_desL_of_loaded hlt (loadLegacy_legacyImage hw ha)⟩⟩
  · have image := loadTagged_taggedImage hw (by rw [Sketch.tcnt, ha]; rfl)
    rwa [taggedImage, ha] at image
  · have image := loadTagged_taggedImage hw (by rw [Sketch.tcnt, ha])
    rwa [taggedImage, ha] at image

/-- Settles O51: past the checks of header and length only the content is left to fail. -/
theorem invalidContentIsRefused : Obligations.InvalidContentIsRefused := by
  intro s dst p r ws hlt hp pr
  have refuse {a : Sketch} {result : LoadResult} (h : result = contentChecked a)
      (hw : a.wf = false) : s.load dst result = .refused .undefinedImage := by
    rw [h, contentChecked_of_not_wf hw]
    exact State.load_undefinedContent hlt
  refine ⟨fun hws => refuse (loadTagged_sparse_words hp ws) (by simp [Sketch.wf, hws]),
    fun hlen hws => ?_⟩
  have hbad : Sketch.wf ⟨p, r, .dense ws⟩ = false := by simp [Sketch.wf, hws]
  exact ⟨refuse (loadTagged_dense_words hp hlen) hbad, refuse (loadLegacy_words hp hlen) hbad⟩

/-! ## Round trips (R210, R214) -/

/-- Loading what a context holds into another or the same one leaves it in both. -/
theorem exec_des_copies {t : State} {src dst : ContextId} {image : List Byte} {b : Sketch}
    (hlt : dst.toNat < t.contexts.length) (hsrc : t.sketch? src = some b)
    (hload : loadTagged image = .loaded b) :
    ∃ u, exec (.des dst image) t = .next u ∧ u.sketch? dst = some b ∧ u.sketch? src = some b ∧
      u.response = some ⟨.ok, 0, []⟩ := by
  have hread (c : ContextId) := State.sketch?_setContext (some b) c hlt
  refine ⟨_, exec_des_of_loaded hlt hload, (hread dst).trans (if_pos rfl), ?_, rfl⟩
  rw [State.sketch?_complete, hread, hsrc, ite_self]

/-- Two contexts that hold one folded sketch cannot be told apart by an `EST`. -/
theorem exec_est_eq_of_same_folded {u : State} {c d : ContextId} {b : Sketch}
    (hc : u.sketch? c = some b) (hd : u.sketch? d = some b) (hf : b.fold = b) :
    exec (.est c) u = exec (.est d) u :=
  (exec_est_of_folded hc hf).trans (exec_est_of_folded hd hf).symm

/-- Settles O52: the sketch after a `SER` is folded, and `DES` reads its image back. -/
theorem serThenDesCopiesTheSketch : Obligations.SerThenDesCopiesTheSketch := by
  intro s t src dst q hs hlt h hq hok
  obtain ⟨a, ha, hsrc, hlen, hout⟩ := sketch_of_exec_ser_ok h hq hok
  have hw := State.sketch_wf_of_wf hs ha
  obtain ⟨u, hu, hudst, husrc, hresponse⟩ := exec_des_copies (hlen ▸ hlt) hsrc
    (loadTagged_taggedImage (Sketch.wf_fold hw) a.tcnt_fold)
  refine ⟨u, hout ▸ hu, hudst.trans hsrc.symm, husrc.trans hsrc.symm, hresponse,
    fun v w hv hest _ => ?_⟩
  rw [exec_est_eq_of_same_folded husrc hudst (Sketch.fold_fold hw)] at hv
  rw [Host.Outcome.next.inj (hv.symm.trans hest)]

/-- Settles O53: what `DES` loads has nothing to fold, and its image is the one that was loaded. -/
theorem desThenSerEmitsTheImage : Obligations.DesThenSerEmitsTheImage := by
  intro s u dst image _ h hu
  obtain ⟨a, hload, ha⟩ := State.loaded_of_load_ok (result := loadTagged image) h hu
  obtain ⟨himage, h0⟩ := taggedImage_of_loadTagged hload
  have hfold := Sketch.fold_of_empty_buffer (loadTagged_loaded hload) h0
  exact ⟨_, exec_ser_of_folded ha hfold, by rw [himage]; rfl, rfl⟩

/-- Settles O55: `DES.L` goes on to `LoadDense` alone, and reads back the legacy image. -/
theorem legacyRoundTrip : Obligations.LegacyRoundTrip := by
  refine ⟨fun s u dst image h hu => ?_, fun s t src dst q hs hlt h hq hok => ?_⟩
  · obtain ⟨b, hload, hb⟩ := State.loaded_of_load_ok (result := loadLegacy image) h hu
    exact ⟨b, hb, mode_of_loadLegacy hload⟩
  · obtain ⟨a, words, ha, hwords, hcontexts, hout⟩ := sketch_of_exec_serL_ok h hq hok
    have hlt' : dst.toNat < t.contexts.length := hcontexts ▸ hlt
    have hload := loadLegacy_legacyImage (State.sketch_wf_of_wf hs ha) hwords
    rw [hout]
    refine ⟨_, exec_desL_of_loaded hlt' hload, ?_⟩
    rw [State.sketch?_complete, State.sketch?_setContext _ dst hlt', if_pos rfl, ha]

end Sys2Proof.Machine
end

section
/-! PROOFS for spec/45_lifecycle.md: how the creation commands and `FREE` end, the fields of the
packed status word, and what `STAT` answers. -/

namespace Sys2Proof.Machine

/-! ## Creation (R230, R231, R233) -/

/-- The 45 legal pairs, as R233 lists them. -/
theorem paramsOk_iff_mem {p r : Nat} :
    paramsOk p r = true ↔ (4 ≤ p ∧ p ≤ 18) ∧ r ∈ [4, 5, 6] := by
  rw [paramsOk_iff]
  simp

section
variable {s : State} {dst : ContextId} (h : dst.toNat < s.contexts.length)

include h

theorem State.create_of_paramsOk {sk : Sketch} (hp : paramsOk sk.p sk.r = true) :
    s.create dst sk = (s.setContext dst (some sk)).complete 0 [] :=
  (State.withContext_of_lt h).trans (if_pos hp)

theorem State.create_of_not_paramsOk {sk : Sketch} (hp : ¬ paramsOk sk.p sk.r = true) :
    s.create dst sk = s.raise .invalidParameter :=
  (State.withContext_of_lt h).trans (if_neg hp)

end

/-- Settles O56: into an existing context a creation command ends by the parameter check alone. -/
theorem newCreatesOrRefusesParameters : Obligations.NewCreatesOrRefusesParameters := by
  intro s dst pb rb hlt legal after refusal
  refine ⟨fun hl => ?_, fun hl => ?_⟩
  · have hp := paramsOk_iff_mem.mpr hl
    exact ⟨congrArg Host.Outcome.next (State.create_of_paramsOk hlt hp),
      zeroWords pb.toNat rb.toNat, congrArg Host.Outcome.next (State.create_of_paramsOk hlt hp),
      length_zeroWords _ _, fun w hw => List.eq_of_mem_replicate hw⟩
  · have hp := mt paramsOk_iff_mem.mp hl
    exact ⟨congrArg Host.Outcome.next (State.create_of_not_paramsOk hlt hp),
      congrArg Host.Outcome.next (State.create_of_not_paramsOk hlt hp)⟩

/-! ## `FREE` (R232) -/

/-- Settles O57, by whether the context exists. -/
theorem freeEmptiesTheContext : Obligations.FreeEmptiesTheContext := by
  intro s dst
  rcases execFree_cases dst s with ⟨hle, e⟩ | ⟨hlt, e⟩
  · exact ⟨fun h => absurd h (Nat.not_lt.mpr hle), fun _ => e⟩
  · exact ⟨fun _ => e, fun h => absurd hlt (Nat.not_lt.mpr h)⟩

/-! ## The packed status word (R234) -/

theorem toNat_fieldAt {lo width v : Nat} (hv : v < 2 ^ width) (hfit : lo + width ≤ 64) :
    (fieldAt lo width v).toNat = v * 2 ^ lo := by
  have hlt : v * 2 ^ lo < 2 ^ 64 := calc
    v * 2 ^ lo < 2 ^ width * 2 ^ lo := Nat.mul_lt_mul_of_pos_right hv (Nat.two_pow_pos lo)
    _ = 2 ^ (lo + width) := by rw [Nat.mul_comm, Nat.pow_add]
    _ ≤ 2 ^ 64 := Nat.pow_le_pow_right Nat.two_pos hfit
  rw [fieldAt, Nat.mod_eq_of_lt hv, BitVec.toNat_shiftLeft, BitVec.toNat_ofNat, Nat.shiftLeft_eq,
    Nat.mod_mul_mod, Nat.mod_eq_of_lt hlt]

/-- A field above every set bit of a word adds its value to the word. -/
theorem toNat_or_fieldAt {x : DWord} {n lo width v : Nat} (hx : x.toNat = n) (hn : n < 2 ^ lo)
    (hv : v < 2 ^ width) (hfit : lo + width ≤ 64) :
    (x ||| fieldAt lo width v).toNat = n + v * 2 ^ lo := by
  rw [BitVec.toNat_or, toNat_fieldAt hv hfit, hx, Nat.or_comm, ← Nat.shiftLeft_eq,
    ← Nat.shiftLeft_add_eq_or_of_lt hn, Nat.add_comm]

theorem Mode.bit_eq (m : Mode) : m.bit = if m = .dense then 1 else 0 := by
  cases m <;> rfl

theorem Mode.bit_lt (m : Mode) : m.bit < 2 ^ 1 := by
  cases m <;> decide

/-- A well-formed sketch has fewer than 5 buffered entries (R30). -/
theorem Sketch.tcnt_lt {a : Sketch} (h : a.wf = true) : a.tcnt < bufferCapacity := by
  obtain ⟨p, r, ⟨tb, sa⟩ | words⟩ := a
  · exact (sparseWf_iff.mp (Sketch.wf_sparse_iff.mp h).2).1
  · exact Nat.succ_pos 4

/-- A well-formed sketch has fewer than `m` array entries (R32). -/
theorem Sketch.alen_lt {a : Sketch} (h : a.wf = true) : a.alen < regCount a.p := by
  obtain ⟨p, r, ⟨tb, sa⟩ | words⟩ := a
  · exact (sparseWf_iff.mp (Sketch.wf_sparse_iff.mp h).2).2.1
  · exact regCount_pos p

/-- A Dense sketch has no buffer and no array (R29). -/
theorem Sketch.counts_of_dense {a : Sketch} (h : a.mode = .dense) : a.tcnt = 0 ∧ a.alen = 0 := by
  obtain ⟨p, r, ⟨tb, sa⟩ | words⟩ := a
  · cases h
  · exact ⟨rfl, rfl⟩

/-- The attributes of a well-formed sketch fit their fields, so the status word is their sum. -/
theorem toNat_statWord {a : Sketch} (h : a.wf = true) :
    (statWord (some a)).toNat = a.p + a.r * 2 ^ 8 + a.mode.bit * 2 ^ 16 + 2 ^ 17 +
      a.tcnt * 2 ^ 20 + a.alen * 2 ^ 32 := by
  obtain ⟨⟨-, hp⟩, -⟩ := paramsOk_iff.mp (Sketch.paramsOk_of_wf h)
  have hr := width_le (Sketch.paramsOk_of_wf h)
  have hm := a.mode.bit_lt
  have ht : a.tcnt < 5 := Sketch.tcnt_lt h
  have hl : a.alen < 2 ^ 18 :=
    (Sketch.alen_lt h).trans_le (Nat.pow_le_pow_right Nat.two_pos hp)
  have hprecision := toNat_fieldAt (lo := 0) (width := 8) (v := a.p) (by omega) (by decide)
  have hwidth := toNat_or_fieldAt (lo := 8) (width := 8) (v := a.r) hprecision
    (by omega) (by omega) (by decide)
  have hmode := toNat_or_fieldAt (lo := 16) (width := 1) hwidth (by omega) hm (by decide)
  have hvalid := toNat_or_fieldAt (lo := 17) (width := 1) (v := 1) hmode
    (by omega) (by decide) (by decide)
  have htcnt := toNat_or_fieldAt (lo := 20) (width := 4) (v := a.tcnt) hvalid
    (by omega) (by omega) (by decide)
  have halen := toNat_or_fieldAt (lo := 32) (width := 20) (v := a.alen) htcnt
    (by omega) (by omega) (by decide)
  rw [statWord, halen]
  omega

/-! ## `STAT` (R234) -/

section
variable {s : State} {dst : ContextId}

theorem exec_stat_of_no_context (h : s.context? dst = none) :
    exec (.stat dst) s = .next (s.raise .badOperand) := by
  rw [exec, execStat, h]

theorem exec_stat_of_context {x : Context} (h : s.context? dst = some x) :
    exec (.stat dst) s = .next (s.complete (statWord x) []) := by
  rw [exec, execStat, h]

end

/-- Settles O58, by the content of the context. -/
theorem statReportsTheAttributes : Obligations.StatReportsTheAttributes := by
  intro s dst hs
  refine ⟨fun hle => exec_stat_of_no_context (State.context?_eq_none.mpr hle),
    fun hnone => exec_stat_of_context hnone, fun a ha => ?_⟩
  refine ⟨statWord (some a), exec_stat_of_context (State.sketch?_eq_some.mp ha), ?_,
    Sketch.counts_of_dense⟩
  rw [toNat_statWord (State.sketch_wf_of_wf hs ha), Mode.bit_eq]

end Sys2Proof.Machine
end

section
/-! PROOFS for spec/60_exceptions.md: how every command ends, said once, and what follows of its
statuses, of `BadOperand`, and of where a step stops. -/

namespace Sys2Proof.Machine

/-! ## The status codes (R250) -/

theorem Status.code_lt (e : Status) : e.code.toNat < 6 := by
  cases e <;> decide

/-- Settles O21, code by code. -/
theorem statusCodesAreTheTable : Obligations.StatusCodesAreTheTable :=
  ⟨rfl, rfl, rfl, rfl, rfl, rfl, Status.code_lt⟩

/-! ## What a command can lack (R255) -/

/-- Something that the command names is not there, command by command (R255). -/
def LacksOperand (s : State) : Instr → Prop
  | .newS dst _ _ => s.contexts.length ≤ dst.toNat
  | .newD dst _ _ => s.contexts.length ≤ dst.toNat
  | .free dst => s.contexts.length ≤ dst.toNat
  | .add dst _ => s.sketch? dst = none
  | .merge dst src => s.sketch? dst = none ∨ s.sketch? src = none
  | .est dst => s.sketch? dst = none
  | .ser dst => s.sketch? dst = none
  | .des dst _ => s.contexts.length ≤ dst.toNat
  | .serL dst => ∀ a, s.sketch? dst = some a → a.mode = .sparse
  | .desL dst _ => s.contexts.length ≤ dst.toNat
  | .rdreg dst index => ∀ a, s.sketch? dst = some a → a.mode = .sparse ∨ regCount a.p ≤ index.toNat
  | .stat dst => s.contexts.length ≤ dst.toNat

/-- A context that does not exist holds no sketch, so the second check covers the first. -/
theorem length_le_or_sketch?_eq_none {s : State} {c : ContextId} :
    s.contexts.length ≤ c.toNat ∨ s.sketch? c = none ↔ s.sketch? c = none :=
  or_iff_right_of_imp State.sketch?_of_length_le

theorem forall_sketch_iff {s : State} {c : ContextId} {P : Sketch → Prop} :
    (∀ a, s.sketch? c = some a → P a) ↔
      s.sketch? c = none ∨ ∃ a, s.sketch? c = some a ∧ P a := by
  rcases s.sketch? c with _ | a <;> simp

/-- The cases of `BadOperand`, as the table of R255 lists them for all commands together. -/
theorem lacksOperand_iff (i : Instr) (s : State) :
    LacksOperand s i ↔
      (∃ c ∈ i.names, s.contexts.length ≤ c.toNat) ∨
      (i.needsSketch = true ∧ ∃ c ∈ i.names, s.sketch? c = none) ∨
      (∃ dst k a, i = .rdreg dst k ∧ s.sketch? dst = some a ∧
        (a.mode = .sparse ∨ 2 ^ a.p ≤ k.toNat)) ∨
      (∃ dst a, i = .serL dst ∧ s.sketch? dst = some a ∧ a.mode = .sparse) := by
  cases i with
  | merge dst src =>
    simpa [LacksOperand, Instr.names, Instr.needsSketch] using
      (or_iff_right_of_imp (Or.imp State.sketch?_of_length_le State.sketch?_of_length_le)).symm
  | serL dst | rdreg dst k =>
    simp [LacksOperand, Instr.names, Instr.needsSketch, ← or_assoc, length_le_or_sketch?_eq_none,
      forall_sketch_iff, regCount]
  | _ => simp [LacksOperand, Instr.names, Instr.needsSketch, length_le_or_sketch?_eq_none]

/-! ## How a command ends (R257, R265) -/

/-- The command loads an image that passes the checks of its layout and is not content-valid (R207). -/
inductive LoadsUndefinedImage : Instr → Prop where
  | des (dst : ContextId) (image : List Byte) (h : loadTagged image = .undefinedContent) :
      LoadsUndefinedImage (.des dst image)
  | desL (dst : ContextId) (image : List Byte) (h : loadLegacy image = .undefinedContent) :
      LoadsUndefinedImage (.desL dst image)

/-- The four ways in which a command can end. -/
inductive CommandEnd (i : Instr) (s : State) : Prop where
  /-- It names something that is not there. -/
  | lacks (h : exec i s = .next (s.raise .badOperand)) (hm : LacksOperand s i)
  /-- It ends with another error of its row. -/
  | fails (e : Status) (h : exec i s = .next (s.raise e)) (he : e ∈ i.statuses) (hok : e ≠ .ok)
      (hb : e ≠ .badOperand) (hm : ¬ LacksOperand s i)
  /-- It completes. -/
  | completes (t : State) (q : Response) (h : exec i s = .next t) (hq : t.response = some q)
      (hok : q.status = .ok) (hm : ¬ LacksOperand s i)
  /-- It loads an image without a defined meaning. -/
  | refused (h : exec i s = .refused .undefinedImage) (hu : LoadsUndefinedImage i)
      (hm : ¬ LacksOperand s i)

theorem ne_none_of_sketch? {s : State} {c : ContextId} {a : Sketch} (h : s.sketch? c = some a) :
    ¬ s.sketch? c = none := by
  simp [h]

section
variable {i : Instr} {s : State} {dst : ContextId}
  (hm : LacksOperand s i ↔ s.contexts.length ≤ dst.toNat)

include hm

theorem not_lacksOperand_of_lt (hlt : dst.toNat < s.contexts.length) : ¬ LacksOperand s i :=
  mt hm.mp (Nat.not_le.mpr hlt)

theorem create_end {sk : Sketch} (h : exec i s = .next (s.create dst sk))
    (he : .invalidParameter ∈ i.statuses) : CommandEnd i s := by
  rcases s.create_cases dst sk with ⟨hle, e⟩ | ⟨hlt, _, e⟩ | ⟨hlt, _, e⟩ <;> rw [e] at h
  · exact .lacks h (hm.mpr hle)
  · exact .fails _ h he nofun nofun (not_lacksOperand_of_lt hm hlt)
  · exact .completes _ _ h rfl rfl (not_lacksOperand_of_lt hm hlt)

theorem load_end {result : LoadResult} (h : exec i s = s.load dst result)
    (he : .formatError ∈ i.statuses) (hu : result = .undefinedContent → LoadsUndefinedImage i) :
    CommandEnd i s := by
  rcases s.load_cases dst result with ⟨hle, e⟩ | ⟨hlt, ⟨_, e⟩ | ⟨hr, e⟩ | ⟨_, _, e⟩⟩ <;> rw [e] at h
  · exact .lacks h (hm.mpr hle)
  · exact .fails _ h he nofun nofun (not_lacksOperand_of_lt hm hlt)
  · exact .refused h (hu hr) (not_lacksOperand_of_lt hm hlt)
  · exact .completes _ _ h rfl rfl (not_lacksOperand_of_lt hm hlt)

end

theorem State.completeEstimate_response (s : State) (v : Option DWord) :
    ∃ x, (s.completeEstimate v).response = some ⟨.ok, x, []⟩ := by
  cases v <;> exact ⟨_, rfl⟩

/-- Every command ends in one of the four ways. -/
theorem exec_end (i : Instr) (s : State) : CommandEnd i s := by
  cases i with
  | newS dst pb rb => exact create_end .rfl rfl (by simp [Instr.statuses])
  | newD dst pb rb => exact create_end .rfl rfl (by simp [Instr.statuses])
  | free dst =>
    rcases execFree_cases dst s with ⟨hle, e⟩ | ⟨hlt, e⟩
    · exact .lacks e hle
    · exact .completes _ _ e rfl rfl (Nat.not_le.mpr hlt)
  | add dst hash =>
    rcases execAdd_cases dst hash s with ⟨hn, e⟩ | ⟨a, ha, e⟩
    · exact .lacks e hn
    · exact .completes _ _ e rfl rfl (ne_none_of_sketch? ha)
  | merge dst src =>
    rcases execMerge_cases dst src s with ⟨hn, e⟩ | ⟨a, b, ha, hb, hc⟩
    · exact .lacks e hn
    · have hm : ¬ LacksOperand s (.merge dst src) :=
        not_or.mpr ⟨ne_none_of_sketch? ha, ne_none_of_sketch? hb⟩
      rcases hc with ⟨_, e⟩ | ⟨_, e⟩
      · exact .fails _ e (by simp [Instr.statuses]) nofun nofun hm
      · exact .completes _ _ e rfl rfl hm
  | est dst =>
    rcases execEst_cases dst s with ⟨hn, e⟩ | ⟨a, ha, e⟩
    · exact .lacks e hn
    · obtain ⟨_, hq⟩ :=
        State.completeEstimate_response (s.setContext dst (some a.fold)) a.fold.estimate
      exact .completes _ _ e hq rfl (ne_none_of_sketch? ha)
  | ser dst =>
    rcases execSer_cases dst s with ⟨hn, e⟩ | ⟨a, ha, e⟩
    · exact .lacks e hn
    · exact .completes _ _ e rfl rfl (ne_none_of_sketch? ha)
  | des dst image => exact load_end .rfl rfl (by simp [Instr.statuses]) (.des dst image)
  | serL dst =>
    rcases execSerL_cases dst s with ⟨hn, e⟩ | ⟨a, ha, ⟨_, _, hp, e⟩ | ⟨_, hp, e⟩⟩
    · exact .lacks e (by simp [LacksOperand, hn])
    · exact .lacks e (by simp [LacksOperand, ha, Sketch.mode, hp])
    · exact .completes _ _ e rfl rfl (by simp [LacksOperand, ha, Sketch.mode, hp])
  | desL dst image => exact load_end .rfl rfl (by simp [Instr.statuses]) (.desL dst image)
  | rdreg dst index =>
    rcases execRdreg_cases dst index s with
      ⟨hn, e⟩ | ⟨a, ha, ⟨_, _, hp, e⟩ | ⟨_, hp, ⟨hi, e⟩ | ⟨hi, e⟩⟩⟩
    · exact .lacks e (by simp [LacksOperand, hn])
    · exact .lacks e (by simp [LacksOperand, ha, Sketch.mode, hp])
    · exact .lacks e (by simpa [LacksOperand, ha, Sketch.mode, hp] using hi)
    · exact .completes _ _ e rfl rfl (by simpa [LacksOperand, ha, Sketch.mode, hp] using hi)
  | stat dst =>
    rcases execStat_cases dst s with ⟨hn, e⟩ | ⟨x, hx, e⟩
    · exact .lacks e (State.context?_eq_none.mp hn)
    · exact .completes _ _ e rfl rfl (mt State.context?_eq_none.mpr (by simp [hx]))

/-! ## Statuses (R257, R265) -/

theorem ok_mem_statuses (i : Instr) : .ok ∈ i.statuses := by
  cases i <;> exact List.mem_cons_self

theorem badOperand_mem_statuses (i : Instr) : .badOperand ∈ i.statuses := by
  cases i <;> simp [Instr.statuses]

/-- A command that answers has raised its status, unless that is `OK`. -/
theorem exec_response_cases {i : Instr} {s t : State} (h : exec i s = .next t) :
    ∃ q, t.response = some q ∧ q.status ∈ i.statuses ∧
      (q.status ≠ .ok → q.res = 0 ∧ q.out = [] ∧ t = { s with response := some q }) := by
  have answer {u : State} (e : exec i s = .next u) : u = t :=
    Host.Outcome.next.inj (e.symm.trans h)
  cases exec_end i s with
  | lacks e => exact answer e ▸ ⟨_, rfl, badOperand_mem_statuses i, fun _ => ⟨rfl, rfl, rfl⟩⟩
  | fails _ e he => exact answer e ▸ ⟨_, rfl, he, fun _ => ⟨rfl, rfl, rfl⟩⟩
  | completes _ q e hq hok =>
    exact answer e ▸ ⟨q, hq, hok ▸ ok_mem_statuses i, fun hne => absurd hok hne⟩
  | refused e => exact nomatch e.symm.trans h

/-- Settles O13: each way a command ends gives a status of its row. -/
theorem commandEndsWithItsStatuses : Obligations.CommandEndsWithItsStatuses := by
  intro i s t h
  obtain ⟨q, hq, hmem, _⟩ := exec_response_cases h
  exact ⟨q, hq, hmem⟩

/-- Settles O12: a status other than `OK` is raised, by the decoder or by the command. -/
theorem failedCommandChangesNothing : Obligations.FailedCommandChangesNothing := by
  intro s t c rest hs h
  rw [step_of_command hs, runCommand] at h
  split at h
  · exact Host.Outcome.next.inj h ▸ ⟨_, rfl, fun _ => ⟨rfl, rfl, rfl⟩⟩
  · obtain ⟨q, hq, _, hfail⟩ := exec_response_cases h
    exact ⟨q, hq, hfail⟩

/-! ## `BadOperand` (R255) -/

theorem exec_eq_badOperand_iff (i : Instr) (s : State) :
    exec i s = .next (s.raise .badOperand) ↔ LacksOperand s i := by
  have answer {t u : State} (h : exec i s = .next t) (e : exec i s = .next u) :
      t.response = u.response := congrArg State.response (Host.Outcome.next.inj (h.symm.trans e))
  cases exec_end i s with
  | lacks e hm => exact iff_of_true e hm
  | fails _ e _ _ hb hm =>
    refine iff_of_false (fun h => hb ?_) hm
    simpa using answer e h
  | completes _ q e hq hok hm =>
    refine iff_of_false (fun h => ?_) hm
    have hresp := hq.symm.trans (answer e h)
    simp [Option.some.inj hresp] at hok
  | refused e _ hm => exact iff_of_false (fun h => nomatch e.symm.trans h) hm

/-- Settles O14: a command raises `BadOperand` exactly when it lacks an operand. -/
theorem badOperandExactlyInItsCases : Obligations.BadOperandExactlyInItsCases := fun i s =>
  (exec_eq_badOperand_iff i s).trans (lacksOperand_iff i s)

/-! ## Where a step stops (R207, R257) -/

theorem exec_next_or_refused (i : Instr) (s : State) :
    (∃ t, exec i s = .next t) ∨
      (exec i s = .refused .undefinedImage ∧ LoadsUndefinedImage i) := by
  cases exec_end i s with
  | lacks e => exact .inl ⟨_, e⟩
  | fails _ e => exact .inl ⟨_, e⟩
  | completes _ _ e => exact .inl ⟨_, e⟩
  | refused e hu => exact .inr ⟨e, hu⟩

/-- Settles O11: of the events only a command can stop, and of the commands only a load. -/
theorem stepStopsOnlyOnUndefinedImage : Obligations.StepStopsOnlyOnUndefinedImage := by
  intro s
  match hs : s.inputs with
  | [] => exact .inl ⟨s, by rw [step, hs]⟩
  | .reset :: rest => exact .inl ⟨_, by rw [step, hs]⟩
  | .command c :: rest =>
    rw [step_of_command hs, runCommand]
    match hd : decode c with
    | .error _ => exact .inl ⟨_, rfl⟩
    | .ok i =>
      refine (exec_next_or_refused i { s with inputs := rest }).imp_right fun ⟨e, hu⟩ => ⟨e, ?_⟩
      cases hu with
      | des dst image h => exact ⟨c, rest, dst, image, rfl, .inl ⟨hd, h⟩⟩
      | desL dst image h => exact ⟨c, rest, dst, image, rfl, .inr ⟨hd, h⟩⟩

end Sys2Proof.Machine
end

section
/-! PROOFS for spec/70_reset_and_hazards.md: what a step does with no event and with a reset, and
which events empty a context. -/

namespace Sys2Proof.Machine

/-! ## A step that runs no command (R280, R282) -/

theorem step_of_no_event {s : State} (h : s.inputs = []) : step s = .next s := by
  rw [step, h]

theorem step_of_reset {s : State} {rest : List HostEvent} (h : s.inputs = .reset :: rest) :
    step s = .next { s with inputs := rest }.resetBlock := by
  rw [step, h]

/-- Settles O6, by the step with no event. -/
theorem blockWaitsForACommand : Obligations.BlockWaitsForACommand :=
  fun _ => step_of_no_event

/-! ## What empties a context (R280) -/

/-- Where every context is empty, no number reads a sketch. -/
theorem State.sketch?_of_all_empty {s : State} (h : ∀ x ∈ s.contexts, x = none) (c : ContextId) :
    s.sketch? c = none :=
  Option.eq_none_iff_forall_ne_some.mpr fun _ ha =>
    nomatch h _ (List.mem_of_getElem? (State.sketch?_eq_some.mp ha))

theorem State.sketch?_powerOn (n : Nat) (c : ContextId) : (State.powerOn n).sketch? c = none :=
  State.sketch?_of_all_empty (fun _ => List.eq_of_mem_replicate) c

@[simp] theorem State.length_contexts_resetBlock (s : State) :
    s.resetBlock.contexts.length = s.contexts.length :=
  List.length_map _

@[simp] theorem State.sketch?_resetBlock (s : State) (c : ContextId) :
    s.resetBlock.sketch? c = none := by
  refine State.sketch?_of_all_empty (fun x hx => ?_) c
  obtain ⟨_, _, rfl⟩ := List.mem_map.mp hx
  rfl

/-- Every other replacement gives the context a sketch. -/
theorem Replacement.eq_free {i : Instr} {c : ContextId} (h : Replacement i c none) :
    i = .free c := by
  cases h
  rfl

/-- A context is left as it was, updated to a sketch or replaced, and only `FREE` replaces its
content by none. -/
theorem exec_empties {i : Instr} {s t : State} {c : ContextId} {a : Sketch}
    (h : exec i s = .next t) (ha : s.sketch? c = some a) (hn : t.sketch? c = none) :
    i = .free c := by
  rcases (exec_effect h).context c with e | ⟨x, hx, hr⟩ | ⟨_, b, _, hb, _⟩
  · rw [State.sketch?, e, ← State.sketch?, ha] at hn
    exact nomatch hn
  · rw [State.sketch?, hx, Option.join_some] at hn
    exact (hn ▸ hr).eq_free
  · exact nomatch hb.symm.trans hn

/-- An illegal triple empties no context, so the command was decoded. -/
theorem runCommand_empties {cmd : Command} {s t : State} {c : ContextId} {a : Sketch}
    (h : runCommand cmd s = .next t) (ha : s.sketch? c = some a) (hn : t.sketch? c = none) :
    decode cmd = .ok (.free c) := by
  unfold runCommand at h
  split at h
  · obtain rfl := Host.Outcome.next.inj h
    exact nomatch ha.symm.trans hn
  · next hd => rw [hd, exec_empties h ha hn]

/-- Settles O7: reset empties every context; waiting empties none, and a command only one that it
frees. -/
theorem onlyResetAndFreeEmptyAContext : Obligations.OnlyResetAndFreeEmptyAContext := by
  refine ⟨State.sketch?_powerOn _, fun s rest hs => ?_, fun s t c a h ha hn => ?_⟩
  · exact ⟨_, step_of_reset hs, State.length_contexts_resetBlock _, State.sketch?_resetBlock _⟩
  · match hs : s.inputs with
    | [] =>
      obtain rfl := Host.Outcome.next.inj ((step_of_no_event hs).symm.trans h)
      exact nomatch ha.symm.trans hn
    | .reset :: rest => exact .inl ⟨rest, rfl⟩
    | .command cmd :: rest =>
      exact .inr ⟨cmd, rest, rfl, runCommand_empties ((step_of_command hs).symm.trans h) ha hn⟩

end Sys2Proof.Machine
end
